-- ==== Sys2Proof/Word.lean ====
section
/-! DEFINITION. The word types of the block (00_scope.md R7): every value is unsigned. -/
namespace Sys2Proof

/-- A byte of a stream or of the name buffer (`u8`). -/
abbrev Byte := BitVec 8

/-- A 32-bit register, field or table entry (`u32`). -/
abbrev Word := BitVec 32

/-- A UTF-16 code unit of a name (`u16`). -/
abbrev CodeUnit := BitVec 16

/-- A word of the command port (30_encoding.md R62): 48 bits, `op idx data`. -/
abbrev CommandWord := BitVec 48

/-- A word of the response port (30_encoding.md R64): 40 bits, `code data`. -/
abbrev ResponseWord := BitVec 40

end Sys2Proof
end

