-- ==== Sys2Proof/Syntax.lean ====
section
/-! DEFINITION. The command set as syntax: the registers of the index space (30_encoding.md R65), the twenty
commands (R63) and the pseudo-commands (R75). -/
namespace Sys2Proof

/-- The twelve registers of the register index space, in index order (30_encoding.md R65). -/
inductive Reg where
  | magic | hsize | version | rsvd | subsize | hck | pck | acc | namelen | flags | err | mode
deriving DecidableEq, Repr

/-- The commands, one constructor per row of opcode_table.json. -/
inductive Instr where
  /-- `NOP`, 42_fields.md R100. -/
  | nop
  /-- `CRC.LOAD v`, 41_crc.md R85. -/
  | crcLoad (v : Word)
  /-- `CRC.FEED b`, 41_crc.md R86. -/
  | crcFeed (b : Byte)
  /-- `CRC.FEEDS`, 41_crc.md R87. -/
  | crcFeeds
  /-- `REG.RD r`, 42_fields.md R101. -/
  | regRd (r : Reg)
  /-- `REG.WR r, v`, 42_fields.md R102. -/
  | regWr (r : Reg) (v : Word)
  /-- `FLD.IN r`, 42_fields.md R103. -/
  | fldIn (r : Reg)
  /-- `FLD.OUT r`, 42_fields.md R104. -/
  | fldOut (r : Reg)
  /-- `HDR.DFLT`, 42_fields.md R105. -/
  | hdrDflt
  /-- `HDR.UNPACK`, 42_fields.md R108. -/
  | hdrUnpack
  /-- `HDR.PACK`, 42_fields.md R110. -/
  | hdrPack
  /-- `HDR.CRC`, 42_fields.md R111. -/
  | hdrCrc
  /-- `NAME.IN`, 43_name.md R120. -/
  | nameIn
  /-- `NAME.OUT`, 43_name.md R121. -/
  | nameOut
  /-- `NAME.PACK`, 43_name.md R124. -/
  | namePack
  /-- `NAME.UNPACK`, 43_name.md R126. -/
  | nameUnpack
  /-- `PAY.COPY`, 44_codec.md R135. -/
  | payCopy
  /-- `DECODE`, 44_codec.md R137. -/
  | decode
  /-- `ENCODE`, 44_codec.md R144. -/
  | encode
  /-- `IN.REWIND`, 42_fields.md R112. -/
  | inRewind
deriving DecidableEq, Repr

/-- The pseudo-commands (30_encoding.md R75). `CRC.UPDATE` takes one byte or more: `b` and then `rest`. -/
inductive Pseudo where
  | crcClr
  | crcRead
  | crcUpdate (b : Byte) (rest : List Byte)
  | crcEmit
  | sinkOn
  | sinkOff
deriving DecidableEq, Repr

end Sys2Proof
end

