-- ==== Sys2Proof/WellFormed.lean ====
section
/-! DEFINITION. Which commands the command word can carry: the index sets of 30_encoding.md R65. -/
namespace Sys2Proof

/-- The registers `REG.WR` may name (R65: indices 0 to 7 and 11). -/
def Reg.writable : Reg → Bool
  | .magic | .hsize | .version | .rsvd | .subsize | .hck | .pck | .acc | .mode => true
  | .namelen | .flags | .err => false

/-- The registers `FLD.IN` may name (R65: indices 0 to 6). -/
def Reg.fieldIn : Reg → Bool
  | .magic | .hsize | .version | .rsvd | .subsize | .hck | .pck => true
  | .acc | .namelen | .flags | .err | .mode => false

/-- The registers `FLD.OUT` may name (R65: indices 0 to 7). -/
def Reg.fieldOut : Reg → Bool
  | .magic | .hsize | .version | .rsvd | .subsize | .hck | .pck | .acc => true
  | .namelen | .flags | .err | .mode => false

/-- A command whose register operand its row allows (`idx_legal` of opcode_table.json, R65). -/
def Instr.wf : Instr → Bool
  | .regWr r _ => r.writable
  | .fldIn r => r.fieldIn
  | .fldOut r => r.fieldOut
  | .nop | .crcLoad _ | .crcFeed _ | .crcFeeds | .regRd _ | .hdrDflt | .hdrUnpack | .hdrPack | .hdrCrc
  | .nameIn | .nameOut | .namePack | .nameUnpack | .payCopy | .decode | .encode | .inRewind => true

end Sys2Proof
end

