-- ==== Sys2Proof/Decode.lean ====
section
/-! DEFINITION. The decoder of the 48-bit command word (30_encoding.md R62, R63, R65, R66, R69 to R71), total on
every word and rejecting by name, and the encoder written from the same tables (R77). -/
namespace Sys2Proof

/-- Why a command word is illegal (30_encoding.md R69, R70, R71). -/
inductive Reject where
  /-- R69: `op` is `0x14` to `0xFF`. -/
  | reservedOpcode
  /-- R70: `idx` is outside the set of R65 for this `op`. -/
  | badIndex
  /-- R71: unused bits of `idx` or `data` are not zero. -/
  | strayBits
deriving DecidableEq, Repr

/-- `op`, bits 47 to 40 (R62). -/
def opField (w : CommandWord) : Byte := w.extractLsb' 40 8

/-- `idx`, bits 39 to 32 (R62). -/
def idxField (w : CommandWord) : Byte := w.extractLsb' 32 8

/-- `data`, bits 31 to 0 (R62). -/
def dataField (w : CommandWord) : Word := w.extractLsb' 0 32

/-- The register at an index of the register index space; 12 to 255 are reserved (R65). -/
def Reg.ofIndex (n : Byte) : Option Reg :=
  match n.toNat with
  | 0 => some .magic
  | 1 => some .hsize
  | 2 => some .version
  | 3 => some .rsvd
  | 4 => some .subsize
  | 5 => some .hck
  | 6 => some .pck
  | 7 => some .acc
  | 8 => some .namelen
  | 9 => some .flags
  | 10 => some .err
  | 11 => some .mode
  | _ => none

/-- The index of a register (R65). -/
def Reg.index : Reg → Byte
  | .magic => 0#8
  | .hsize => 1#8
  | .version => 2#8
  | .rsvd => 3#8
  | .subsize => 4#8
  | .hck => 5#8
  | .pck => 6#8
  | .acc => 7#8
  | .namelen => 8#8
  | .flags => 9#8
  | .err => 10#8
  | .mode => 11#8

/-- Shape `C0` (R66): `idx` and `data` zero. -/
def shapeC0 (i : Instr) (idx : Byte) (data : Word) : Except Reject Instr :=
  if idx = 0#8 ∧ data = 0#32 then .ok i else .error .strayBits

/-- Shape `CD` (R66): `idx` zero, `data` a 32-bit immediate. -/
def shapeCD (i : Word → Instr) (idx : Byte) (data : Word) : Except Reject Instr :=
  if idx = 0#8 then .ok (i data) else .error .strayBits

/-- Shape `CB` (R66, R68): `idx` zero, `data[31:8]` zero, `data[7:0]` a byte immediate. -/
def shapeCB (i : Byte → Instr) (idx : Byte) (data : Word) : Except Reject Instr :=
  if idx = 0#8 ∧ data.extractLsb' 8 24 = 0#24 then .ok (i (data.extractLsb' 0 8)) else .error .strayBits

/-- A register operand of the shapes `CI` and `CID`: allowed by the command's row, or the word is illegal (R70). -/
def indexed (i : Reg → Instr) (idx : Byte) : Except Reject Instr :=
  match Reg.ofIndex idx with
  | some r => if (i r).wf then .ok (i r) else .error .badIndex
  | none => .error .badIndex

/-- Shape `CI` (R66): `idx` a register index, `data` zero. -/
def shapeCI (i : Reg → Instr) (idx : Byte) (data : Word) : Except Reject Instr :=
  if data = 0#32 then indexed i idx else .error .strayBits

/-- Shape `CID` (R66): `idx` a register index, `data` a 32-bit immediate. -/
def shapeCID (i : Reg → Word → Instr) (idx : Byte) (data : Word) : Except Reject Instr :=
  indexed (fun r => i r data) idx

/-- The opcode map (R63): the command a word stands for, or why it is illegal. -/
def decode (w : CommandWord) : Except Reject Instr :=
  let idx := idxField w
  let data := dataField w
  match (opField w).toNat with
  | 0x00 => shapeC0 .nop idx data
  | 0x01 => shapeCD .crcLoad idx data
  | 0x02 => shapeCB .crcFeed idx data
  | 0x03 => shapeC0 .crcFeeds idx data
  | 0x04 => shapeCI .regRd idx data
  | 0x05 => shapeCID .regWr idx data
  | 0x06 => shapeCI .fldIn idx data
  | 0x07 => shapeCI .fldOut idx data
  | 0x08 => shapeC0 .hdrDflt idx data
  | 0x09 => shapeC0 .hdrUnpack idx data
  | 0x0A => shapeC0 .hdrPack idx data
  | 0x0B => shapeC0 .hdrCrc idx data
  | 0x0C => shapeC0 .nameIn idx data
  | 0x0D => shapeC0 .nameOut idx data
  | 0x0E => shapeC0 .namePack idx data
  | 0x0F => shapeC0 .nameUnpack idx data
  | 0x10 => shapeC0 .payCopy idx data
  | 0x11 => shapeC0 .decode idx data
  | 0x12 => shapeC0 .encode idx data
  | 0x13 => shapeC0 .inRewind idx data
  | _ => .error .reservedOpcode

/-- The opcode of a command (R63). -/
def Instr.opcode : Instr → Byte
  | .nop => 0x00#8
  | .crcLoad _ => 0x01#8
  | .crcFeed _ => 0x02#8
  | .crcFeeds => 0x03#8
  | .regRd _ => 0x04#8
  | .regWr _ _ => 0x05#8
  | .fldIn _ => 0x06#8
  | .fldOut _ => 0x07#8
  | .hdrDflt => 0x08#8
  | .hdrUnpack => 0x09#8
  | .hdrPack => 0x0A#8
  | .hdrCrc => 0x0B#8
  | .nameIn => 0x0C#8
  | .nameOut => 0x0D#8
  | .namePack => 0x0E#8
  | .nameUnpack => 0x0F#8
  | .payCopy => 0x10#8
  | .decode => 0x11#8
  | .encode => 0x12#8
  | .inRewind => 0x13#8

/-- The `idx` field of a command; zero when it takes none (R62, R77). -/
def Instr.idx : Instr → Byte
  | .regRd r | .regWr r _ | .fldIn r | .fldOut r => r.index
  | .nop | .crcLoad _ | .crcFeed _ | .crcFeeds | .hdrDflt | .hdrUnpack | .hdrPack | .hdrCrc
  | .nameIn | .nameOut | .namePack | .nameUnpack | .payCopy | .decode | .encode | .inRewind => 0#8

/-- The `data` field of a command; zero when it takes none (R62, R77). -/
def Instr.data : Instr → Word
  | .crcLoad v => v
  | .crcFeed b => b.setWidth 32
  | .regWr _ v => v
  | .nop | .crcFeeds | .regRd _ | .fldIn _ | .fldOut _ | .hdrDflt | .hdrUnpack | .hdrPack | .hdrCrc
  | .nameIn | .nameOut | .namePack | .nameUnpack | .payCopy | .decode | .encode | .inRewind => 0#32

/-- `op idx data` put together (R62). -/
def assemble (op idx : Byte) (data : Word) : CommandWord := op ++ idx ++ data

/-- The command word of a command (R77). -/
def encode (i : Instr) : CommandWord := assemble i.opcode i.idx i.data

/-- The host's question: the command the decoder reads from a word given as opcode_table.json numbers its bits
(bit 0 the least significant of the 48), every bit from `nbits` up being 0. -/
def decodeTableWord (nbits w : Nat) : Option Instr :=
  if w % 2 ^ nbits < 2 ^ 48 then
    match decode (BitVec.ofNat 48 (w % 2 ^ nbits)) with
    | .ok i => some i
    | .error _ => none
  else none

end Sys2Proof
end

