-- ==== Sys2Proof/Config.lean ====
section
/-! DEFINITION. The parameters of the block (00_scope.md R5, R6) and its free values
(93_implementation_defined.md U1, U2). -/
namespace Sys2Proof.Config

/-- `POLY`, the polynomial constant of the table, reflected form (R5). -/
def poly : Word := 0xEDB88320#32

/-- `INIT_DEFAULT`, the accumulator's start value when the caller gives none (R5). -/
def initDefault : Word := 0#32

/-- `HDR_LEN`, the header's length in bytes (R5). -/
def hdrLen : Nat := 20

/-- `CK_LEN`, the length of a checksum field, and of every single field, in bytes (R5). -/
def ckLen : Nat := 4

/-- `NAME_UNITS`, the name field's length in code units (R5). -/
def nameUnits : Nat := 64

/-- `NAME_LEN`, the name field's length in bytes (R5). -/
def nameLen : Nat := 128

/-- `PAYLOAD_OFF`, the container offset of the payload (R5). -/
def payloadOff : Nat := 156

/-- `C_MAGIC`, what the encoder writes in header field 0 (R5; its byte order is settled by 90_conflicts.md C1). -/
def magic : Word := 0x64B354D3#32

/-- `C_HSIZE`, what the encoder writes in header field 1 (R5). -/
def hsize : Word := 0x0000009C#32

/-- `C_VERSION`, what the encoder writes in header field 2 (R5). -/
def version : Word := 1000#32

/-- `C_RSVD`, what the encoder writes in header field 3 (R5). -/
def rsvd : Word := 0#32

/-- `C_SUBSIZE`, what the encoder writes in header field 4 (R5). -/
def subsize : Word := 0x00000018#32

/-- `SURR_LO`: least top byte of a high surrogate (R5). -/
def surrLo : Byte := 0xD8#8

/-- `SURR_HI`: greatest top byte of a high surrogate (R5). -/
def surrHi : Byte := 0xDB#8

/-- `SURR_BYTE`: the byte of a full name field that is tested for the trim (R6; 90_conflicts.md C2). -/
def surrByte : Nat := 127

/-- The open part of `CHUNK_MAX` (R6, D9): any natural number. -/
opaque chunkMore : Nat

/-- `CHUNK_MAX` (R6, D9): any positive natural number; no rule reads it (41_crc.md R89), so no meaning does. -/
def chunkMax : Nat := chunkMore + 1

/-- FREE VALUE: an unspecified byte of `NAMEBUF` (U1, U2; log 3). -/
opaque freeByte : Nat → Byte

/-- FREE VALUE: an unspecified 32-bit register after a reset in the middle of a run (U1; log 3). -/
opaque freeWord : Nat → Word

/-- FREE VALUE: an unspecified `NAMELEN` after a reset in the middle of a run, 0 to 127 (U1; log 3). -/
opaque freeLen : Nat → BitVec 7

end Sys2Proof.Config
end

