-- ==== Sys2Proof/Machine/State.lean ====
section
/-! DEFINITION. Everything the spec gives the machine to hold (10_state.md), as plain data: the registers, the
sequencer's position, the ports and streams with what the host has put on them, and the script of the host's
further moves. -/
namespace Sys2Proof.Machine

/-- The causes of a fault (60_exceptions.md R160), in the order of their codes 1 to 8. -/
inductive Cause where
  | headerTruncated
  | checksumFieldTruncated
  | headerChecksumMismatch
  | payloadChecksumFieldTruncated
  | nameFieldTruncated
  | payloadChecksumMismatch
  | ioError
  | illegalCommand
deriving DecidableEq, Repr

/-- `PHASE` (10_state.md R20): `IDLE`, `PRIM` with the primitive command that runs, a phase of `DECODE`
(44_codec.md R136) or a phase of `ENCODE` (R143). -/
inductive Phase where
  | idle
  | prim (c : Instr)
  | d1 | d2 | d3 | d4 | d5 | d6 | d7 | d8
  | e1 | e2 | e3 | e4 | e5 | e6 | e7
deriving DecidableEq, Repr

/-- The header field registers `HF[0]` to `HF[4]` by name (10_state.md R12). -/
structure Header where
  magic : Word
  hsize : Word
  version : Word
  rsvd : Word
  subsize : Word
deriving DecidableEq, Repr

/-- The registers (10_state.md R10, R12 to R19). `flags` and `mode` keep one bit, `nameLen` seven (30_encoding.md
R65); `nameBuf` is 128 bytes (an invariant: `State.Inv`). -/
structure Regs where
  acc : Word
  hf : Header
  hck : Word
  pck : Word
  nameLen : BitVec 7
  nameBuf : List Byte
  flags : BitVec 1
  err : Byte
  mode : BitVec 1
deriving DecidableEq, Repr

/-- The sequencer's position (10_state.md R20) and its transfer in progress: the bytes a `ReadExact` has collected
(`got`), the units a name message has given (`units`), the bytes an `OutWrite` has still to hand over (`pend`). -/
structure Seq where
  phase : Phase
  ipos : Nat
  opos : Nat
  got : List Byte
  units : List CodeUnit
  pend : List Byte
deriving DecidableEq, Repr

/-- A response (30_encoding.md R64): `code` and `data`. -/
structure Response where
  code : Byte
  data : Word
deriving DecidableEq, Repr

/-- What follows the bytes the host has put on `IN` (20_memory.md R47): nothing yet (case d), the end of the
stream (case b), or a failure of the stream (case c). -/
inductive StreamEnd where
  | pending
  | ended
  | failed
deriving DecidableEq, Repr

/-- What the host does when the block asks for a rewind (20_memory.md R50; log 9): it presents the same sequence again,
it presents another one (it breaks its duty, 44_codec.md R146), or it cannot. -/
inductive Rewind where
  | same
  | other (bytes : List Byte)
  | unable
deriving DecidableEq, Repr

/-- How the host accepts bytes on `OUT` (20_memory.md R49): all of them, or `n` more, after which it fails the
stream (`fails`) or lets the block wait. -/
inductive Room where
  | all
  | upTo (n : Nat) (fails : Bool)
deriving DecidableEq, Repr

/-- An item of `NIN` (10_state.md R23): a code unit, or the end mark of a name message. -/
inductive NinItem where
  | unit (u : CodeUnit)
  | done
deriving DecidableEq, Repr

/-- The ports and streams (10_state.md R21 to R25): what the host has put on them and what the block has handed
over. `cmd` is the word presented at the command port, which takes one at a time (R25). `inData` is the sequence `S` of
20_memory.md R47 as far as the host has delivered it; `Seq.ipos` of its bytes are consumed. `inEos` says that end of
stream has been returned since `IN` was opened or rewound (R21). -/
structure Ports where
  cmd : Option CommandWord
  responses : List Response
  inData : List Byte
  inEnd : StreamEnd
  inEos : Bool
  inRewind : Rewind
  out : List Byte
  outRoom : Room
  nin : List NinItem
  ninFailed : Bool
  nout : List (List CodeUnit)
deriving DecidableEq, Repr

/-- A move of the host (10_state.md R31), taken while the block waits (log 7). -/
inductive HostMove where
  /-- present a command word to an idle block (R25; 93_implementation_defined.md U15) -/
  | issue (w : CommandWord)
  /-- open a new input stream (R21) -/
  | openIn (bytes : List Byte) (ending : StreamEnd) (rewind : Rewind)
  /-- deliver further bytes on `IN` (R21) -/
  | deliver (bytes : List Byte)
  /-- signal the end of `IN` (20_memory.md R47 b) -/
  | endIn
  /-- fail `IN` (20_memory.md R47 c) -/
  | failIn
  /-- change the answer to the next rewind (20_memory.md R50; log 9) -/
  | setRewind (rewind : Rewind)
  /-- open a new output stream (R22) -/
  | openOut (room : Room)
  /-- accept further bytes on `OUT`, or fail it (20_memory.md R49); also after a failure (log 28) -/
  | setRoom (room : Room)
  /-- open `NIN` anew (R23) -/
  | openNin (items : List NinItem)
  /-- supply further items on `NIN` (R23) -/
  | sendNin (items : List NinItem)
  /-- fail `NIN` (20_memory.md R50) -/
  | failNin
  /-- apply reset (70_reset_and_hazards.md R185, R186) -/
  | reset
deriving DecidableEq, Repr

/-- The machine. `host` is the script of the host's further moves (log 6, 7); `fresh` counts the free values taken
(log 3). -/
structure State where
  regs : Regs
  seq : Seq
  ports : Ports
  host : List HostMove
  fresh : Nat
deriving DecidableEq, Repr

/-- Why the model stops. The block's own faults are not here: they are next states (60_exceptions.md R171). -/
inductive Fault where
  /-- Raised by `resume` only, in a state whose `PHASE` is one in which no command ever waits: no run from a state
  meeting `State.Inv` reaches it (log 22). Safe. -/
  | strayPhase
deriving DecidableEq, Repr

/-- Why the model answers no next state. -/
inductive Refusal where
  /-- Raised by `exec` for an instruction that has no meaning yet. Safe. -/
  | notModelled (mnemonic : String)
  /-- Raised by `hostMove` only, for a move of the host that the spec puts outside the model
  (93_implementation_defined.md U15, U16, 20_memory.md R47; log 12): a word presented or a stream replaced while a
  command runs, or an item delivered after the end or failure of its stream. Safe. -/
  | hostDuty
deriving DecidableEq, Repr

/-- The constants of the header (00_scope.md R5). -/
def Header.constants : Header :=
  { magic := Config.magic, hsize := Config.hsize, version := Config.version, rsvd := Config.rsvd,
    subsize := Config.subsize }

/-- Between commands nothing is in transfer (10_state.md R20). -/
def Seq.idleAt (ipos opos : Nat) : Seq :=
  { phase := .idle, ipos := ipos, opos := opos, got := [], units := [], pend := [] }

/-- Streams the host has not opened (10_state.md R30; log 2): a read or a write waits. They are not told apart from
streams opened empty (70_reset_and_hazards.md R190; log 29). -/
def Ports.closed : Ports :=
  { cmd := none, responses := [], inData := [], inEnd := .pending, inEos := false, inRewind := .same, out := [],
    outRoom := .upTo 0 false, nin := [], ninFailed := false, nout := [] }

/-- The registers the spec leaves unspecified after reset (10_state.md R30): the free part of the launch state. -/
structure Launch where
  hf : Header
  hck : Word
  pck : Word
  nameLen : BitVec 7
  nameBuf : List Byte
deriving DecidableEq, Repr

/-- The registers after reset (10_state.md R30), for given values of the unspecified ones. -/
def Launch.regs (u : Launch) : Regs :=
  { acc := Config.initDefault, hf := u.hf, hck := u.hck, pck := u.pck, nameLen := u.nameLen,
    nameBuf := u.nameBuf, flags := 0#1, err := 0#8, mode := 0#1 }

/-- The launch state (10_state.md R30, 70_reset_and_hazards.md R185) for given values of the unspecified
registers. -/
def State.launch (u : Launch) : State :=
  { regs := u.regs, seq := Seq.idleAt 0 0, ports := Ports.closed, host := [], fresh := 0 }

/-- The value the model names for each unspecified register: zero. DESIGN CHOICE (unsafe), log 1. -/
def Launch.named : Launch :=
  { hf := { magic := 0#32, hsize := 0#32, version := 0#32, rsvd := 0#32, subsize := 0#32 },
    hck := 0#32, pck := 0#32, nameLen := 0#7, nameBuf := List.replicate Config.nameLen 0#8 }

/-- The machine right after reset. -/
def State.reset : State := State.launch Launch.named

end Sys2Proof.Machine
end

