-- ==== Sys2Proof/Machine/Flags.lean ====
section
/-! DEFINITION. Fault codes, the flag `VERIFIED` and the control bit `SINK` (60_exceptions.md R160; 10_state.md
R17 to R19). -/
namespace Sys2Proof.Machine

/-- The code of a fault (60_exceptions.md R160). -/
def Cause.code : Cause → Byte
  | .headerTruncated => 1#8
  | .checksumFieldTruncated => 2#8
  | .headerChecksumMismatch => 3#8
  | .payloadChecksumFieldTruncated => 4#8
  | .nameFieldTruncated => 5#8
  | .payloadChecksumMismatch => 6#8
  | .ioError => 7#8
  | .illegalCommand => 8#8

/-- `FLAGS.VERIFIED <- 0` (44_codec.md R137, phase D1). -/
def clearVerified (s : State) : State := { s with regs.flags := 0#1 }

/-- `FLAGS.VERIFIED <- 1` (44_codec.md R137, phase D7). -/
def setVerified (s : State) : State := { s with regs.flags := 1#1 }

/-- `MODE.SINK = 1` (10_state.md R19). -/
def sinkOn (s : State) : Bool := s.regs.mode == 1#1

/-- `MODE` after a write of `v`: `v[0]`, the rest ignored (42_fields.md R102). -/
def modeOf (v : Word) : BitVec 1 := v.extractLsb' 0 1

end Sys2Proof.Machine
end

