-- ==== Sys2Proof/Machine/Operands.lean ====
section
/-! DEFINITION. Operands: little-endian assembly of fields and code units (00_scope.md R7, 30_encoding.md R67,
R68), packing and unpacking of the header (42_fields.md R106, R107), and the register index space (30_encoding.md
R65). -/
namespace Sys2Proof.Machine

/-- `le32(v)`: the four bytes of a field, low byte first. -/
def le32 (v : Word) : List Byte :=
  [v.extractLsb' 0 8, v.extractLsb' 8 8, v.extractLsb' 16 8, v.extractLsb' 24 8]

/-- Byte `i` of a sequence (`s[i]`); the rules index inside the sequence only. -/
def byteAt (s : List Byte) (i : Nat) : Byte := s.getD i 0#8

/-- `s[a..b)`: the subsequence of indices `a` to `b - 1`. -/
def slice (s : List Byte) (a b : Nat) : List Byte := (s.drop a).take (b - a)

/-- `u32le(s)` of four bytes: `s[0] | s[1] << 8 | s[2] << 16 | s[3] << 24`. -/
def u32le (s : List Byte) : Word :=
  (byteAt s 0).setWidth 32 ||| (byteAt s 1).setWidth 32 <<< 8 ||| (byteAt s 2).setWidth 32 <<< 16
    ||| (byteAt s 3).setWidth 32 <<< 24

/-- `le16(u)`: the two bytes of a code unit, low byte first. -/
def le16 (u : CodeUnit) : List Byte := [u.extractLsb' 0 8, u.extractLsb' 8 8]

/-- `u16le([lo, hi])`: `lo | hi << 8`. -/
def u16le (lo hi : Byte) : CodeUnit := lo.setWidth 16 ||| hi.setWidth 16 <<< 8

/-- `Pack` (42_fields.md R107): the 20 bytes of the five fields. -/
def pack (f : Header) : List Byte :=
  le32 f.magic ++ le32 f.hsize ++ le32 f.version ++ le32 f.rsvd ++ le32 f.subsize

/-- `Unpack` (42_fields.md R106): field `i` is `u32le(s[4i..4i+4))`. -/
def unpack (s : List Byte) : Header :=
  { magic := u32le (slice s 0 4), hsize := u32le (slice s 4 8), version := u32le (slice s 8 12),
    rsvd := u32le (slice s 12 16), subsize := u32le (slice s 16 20) }

/-- `zext_32(REG[r])` (42_fields.md R101): the register at an index, narrower ones zero-extended (10_state.md
R28). -/
def readReg (r : Reg) (x : Regs) : Word :=
  match r with
  | .magic => x.hf.magic
  | .hsize => x.hf.hsize
  | .version => x.hf.version
  | .rsvd => x.hf.rsvd
  | .subsize => x.hf.subsize
  | .hck => x.hck
  | .pck => x.pck
  | .acc => x.acc
  | .namelen => x.nameLen.setWidth 32
  | .flags => x.flags.setWidth 32
  | .err => x.err.setWidth 32
  | .mode => x.mode.setWidth 32

/-- `REG[r] <- v`, and `MODE.SINK <- v[0]` for `MODE` (42_fields.md R102). The read-only registers (30_encoding.md
R65) do not take a write; a command that names one is illegal before it gets here. -/
def writeReg (r : Reg) (v : Word) (x : Regs) : Regs :=
  match r with
  | .magic => { x with hf.magic := v }
  | .hsize => { x with hf.hsize := v }
  | .version => { x with hf.version := v }
  | .rsvd => { x with hf.rsvd := v }
  | .subsize => { x with hf.subsize := v }
  | .hck => { x with hck := v }
  | .pck => { x with pck := v }
  | .acc => { x with acc := v }
  | .mode => { x with mode := modeOf v }
  | .namelen | .flags | .err => x

/-- The fault of a `FLD.IN` that finds fewer than four bytes (42_fields.md R103). -/
def truncation (r : Reg) : Cause :=
  match r with
  | .hck => .checksumFieldTruncated
  | .pck => .payloadChecksumFieldTruncated
  | .magic | .hsize | .version | .rsvd | .subsize => .headerTruncated
  | .acc | .namelen | .flags | .err | .mode => .illegalCommand

/-- The 40-bit response word (30_encoding.md R64): `code data`. -/
def Response.word (r : Response) : ResponseWord := r.code ++ r.data

end Sys2Proof.Machine
end

