-- ==== Sys2Proof/Machine/Ops.lean ====
section
/-! DEFINITION. The operations every meaning is built of: starting and ending a command, taking a fault
(60_exceptions.md R171) and going on after it (R173), and the stream primitives (20_memory.md R47 to R50).

A primitive that cannot go on because the host has given nothing yet answers `Flow.wait`: the command keeps its
phase and its transfer in progress, and `resume` takes it up again (log 5, 6). -/
namespace Sys2Proof.Machine

/-- What a stream primitive comes to: it goes on with a value, it waits for the host (20_memory.md R47 d), or it
raises a fault. -/
inductive Flow (α : Type) where
  | go (a : α) (s : State)
  | wait (s : State)
  | fail (c : Cause) (s : State)

/-- A command or phase begins: `PHASE` is set and no transfer is in progress (10_state.md R20). -/
def begin (p : Phase) (s : State) : State :=
  { s with seq.phase := p, seq.got := [], seq.units := [], seq.pend := [] }

/-- `respond (code, data)` (30_encoding.md R64): the response is given and the block is idle (10_state.md R25). -/
def respond (code : Byte) (data : Word) (s : State) : State :=
  { s with seq := Seq.idleAt s.seq.ipos s.seq.opos,
           ports.responses := s.ports.responses ++ [{ code := code, data := data }] }

/-- The end of a command without a fault: `ERR <- 0; respond (0, ACC)` (10_state.md R18). -/
def finish (s : State) : State := respond 0#8 s.regs.acc { s with regs.err := 0#8 }

/-- The end of a `NOP` or `REG.RD` without a fault: `ERR` keeps its value (10_state.md R18). -/
def finishQuiet (data : Word) (s : State) : State := respond 0#8 data s

/-- TAKING A FAULT, `raise c` (60_exceptions.md R171): `ERR <- code(c)`, the response is `(code(c), ACC)`, `PHASE`
is `IDLE`; every register keeps the value it has at that moment, `OUT` its bytes and `IN` its position. GOING ON AFTER
IT (R173) needs no operation: there is nothing to restore, and the idle block takes the next command. -/
def raise (c : Cause) (s : State) : State := respond c.code s.regs.acc { s with regs.err := c.code }

/-- How a command goes on after a primitive: with the value, or not at all while it waits, or by taking the
fault. -/
def Flow.andThen {α : Type} (f : Flow α) (k : α → State → State) : State :=
  match f with
  | .go a s => k a s
  | .wait s => s
  | .fail c s => raise c s

/-- The bytes of `IN` delivered and not yet consumed: `S[IPOS..)`. -/
def unread (s : State) : List Byte := s.ports.inData.drop s.seq.ipos

/-- The result of `InByte()` (20_memory.md R47). -/
inductive InResult where
  | byte (b : Byte)
  | eos
  | ioerr
  | wait
deriving DecidableEq, Repr

/-- What `IN` answers once the delivered bytes are used up: end of stream for ever once it has been returned
(20_memory.md R47 b), else what the host has put there. -/
def inTail (p : Ports) : StreamEnd := if p.inEos then .ended else p.inEnd

/-- End of stream has been returned (20_memory.md R47 b). -/
def endSeen (s : State) : State := { s with ports.inEos := true }

/-- The host has failed `IN` and no delivered byte stands before the failure (20_memory.md R47 c): the next access to
`IN` meets it (60_exceptions.md R169), a rewind as well as a read. -/
def inDown (s : State) : Bool := s.ports.inEnd == .failed && (unread s).isEmpty

/-- `InByte()` (20_memory.md R47): what the stream answers at `IPOS`. -/
def inByte (s : State) : InResult :=
  match unread s with
  | b :: _ => .byte b
  | [] =>
    match inTail s.ports with
    | .pending => .wait
    | .ended => .eos
    | .failed => .ioerr

/-- A returned byte is consumed: `IPOS <- IPOS + 1` (20_memory.md R47 a). -/
def consume (s : State) : State := { s with seq.ipos := s.seq.ipos + 1 }

/-- The loop of `ReadExact` (20_memory.md R48): `n` bytes are still wanted, `Seq.got` holds those collected. -/
def collect (c : Cause) : Nat → State → Flow (List Byte)
  | 0, s => .go s.seq.got { s with seq.got := [] }
  | n + 1, s =>
    match inByte s with
    | .byte b => collect c n { consume s with seq.got := s.seq.got ++ [b] }
    | .eos => .fail c (endSeen s)
    | .ioerr => .fail .ioError s
    | .wait => .wait s

/-- `ReadExact(k, c)` (20_memory.md R48), from its start or from where it waited. -/
def readExact (k : Nat) (c : Cause) (s : State) : Flow (List Byte) := collect c (k - s.seq.got.length) s

/-- What a loop over `IN` comes to once the delivered bytes are used up (20_memory.md R47 b, c, d). -/
def atEnd (s : State) : Flow Unit :=
  match inTail s.ports with
  | .pending => .wait s
  | .ended => .go () (endSeen s)
  | .failed => .fail .ioError s

/-- The host accepts the first `n` bytes of `Seq.pend` (20_memory.md R49). -/
def accept (n : Nat) (room : Room) (s : State) : State :=
  { s with ports.out := s.ports.out ++ s.seq.pend.take n, ports.outRoom := room,
           seq.opos := s.seq.opos + (s.seq.pend.take n).length, seq.pend := s.seq.pend.drop n }

/-- Hands `Seq.pend` to the host as far as it accepts (20_memory.md R49): all of it; or a first part, and then the
block waits or, if the host fails the stream, raises `IoError` with that part written. -/
def flush (s : State) : Flow Unit :=
  match s.ports.outRoom with
  | .all => .go () (accept s.seq.pend.length .all s)
  | .upTo n fails =>
    if s.seq.pend.length ≤ n then
      .go () (accept s.seq.pend.length (.upTo (n - s.seq.pend.length) fails) s)
    else if fails then .fail .ioError (accept n (.upTo 0 fails) s)
    else .wait (accept n (.upTo 0 fails) s)

/-- `OutWrite(bytes)` (20_memory.md R49). -/
def outWrite (bytes : List Byte) (s : State) : Flow Unit := flush { s with seq.pend := bytes }

/-- `InRewind()` (20_memory.md R50): `IPOS <- 0`, an earlier end of stream is forgotten, and the host presents the
sequence again (or, breaking its duty, another one, 44_codec.md R146); or `IoError`, if the host cannot or has failed
the stream (60_exceptions.md R169). -/
def rewindIn (s : State) : Flow Unit :=
  if inDown s then .fail .ioError s
  else
    match s.ports.inRewind with
    | .same => .go () { s with seq.ipos := 0, ports.inEos := false }
    | .other bytes => .go () { s with seq.ipos := 0, ports.inEos := false, ports.inData := bytes }
    | .unable => .fail .ioError s

/-- The loop of `NinUnit()` (20_memory.md R50; 43_name.md R124) over the items of `NIN`: `Seq.units` holds the
units taken; the end mark gives the message; a failed `NIN` raises `IoError`; an empty one waits. -/
def takeUnits : List NinItem → State → Flow (List CodeUnit)
  | [], s => if s.ports.ninFailed then .fail .ioError s else .wait s
  | .unit u :: rest, s => takeUnits rest { s with ports.nin := rest, seq.units := s.seq.units ++ [u] }
  | .done :: rest, s => .go s.seq.units { s with ports.nin := rest, seq.units := [] }

/-- A whole name message from `NIN`, from its start or from where it waited. -/
def takeName (s : State) : Flow (List CodeUnit) := takeUnits s.ports.nin s

/-- `NoutMsg(us)` (20_memory.md R50): one message, which cannot fail. -/
def noutMsg (us : List CodeUnit) (s : State) : State := { s with ports.nout := s.ports.nout ++ [us] }

/-- The 128 free bytes from counter `n` on (93_implementation_defined.md U1, U2; log 3). -/
def freeBytes (n : Nat) : List Byte := (List.range Config.nameLen).map fun i => Config.freeByte (n + i)

/-- `NAMEBUF` becomes unspecified: any value in each of the 128 bytes (93_implementation_defined.md U2; log 4). -/
def scrambleName (s : State) : State :=
  { s with regs.nameBuf := freeBytes s.fresh, fresh := s.fresh + Config.nameLen }

/-- A command whose register operand its row does not allow raises `IllegalCommand` before any effect
(30_encoding.md R70, 60_exceptions.md R167). -/
def ifLegal (legal : Bool) (k : State → State) (s : State) : State :=
  if legal then k s else raise .illegalCommand s

/-- The host presents a command word that the block will take next (log 16): the block is idle and the word is at
the command port. -/
def presentWord (w : CommandWord) (s : State) : State :=
  { s with seq := Seq.idleAt s.seq.ipos s.seq.opos, ports.cmd := some w }

end Sys2Proof.Machine
end

