-- ==== Sys2Proof/Machine/Crc.lean ====
section
/-! DEFINITION. The CRC unit (41_crc.md): the table, the byte step, the function over a sequence, and `CRC.LOAD`,
`CRC.FEED`, `CRC.FEEDS`. -/
namespace Sys2Proof.Machine

/-- One shift step of the table construction (41_crc.md R80). -/
def shiftStep (v : Word) : Word := if v.getLsbD 0 then (v >>> 1) ^^^ Config.poly else v >>> 1

/-- `n` shift steps. -/
def shiftSteps : Nat → Word → Word
  | 0, v => v
  | n + 1, v => shiftSteps n (shiftStep v)

/-- `TblEntry(i)` (41_crc.md R80). -/
def tblEntry (i : Byte) : Word := shiftSteps 8 (i.setWidth 32)

/-- `Feed(a, b)` (41_crc.md R82): `TBL[(a & 0xFF) ^ b] ^ (a >> 8)`. -/
def feed (a : Word) (b : Byte) : Word := tblEntry (a.extractLsb' 0 8 ^^^ b) ^^^ (a >>> 8)

/-- `Update(s, a)` (41_crc.md R83). -/
def update : List Byte → Word → Word
  | [], a => a
  | b :: s, a => update s (feed a b)

/-- `ACC <- Feed(ACC, b)`. -/
def feedAcc (b : Byte) (s : State) : State := { s with regs.acc := feed s.regs.acc b }

/-- The loop of `CRC.FEEDS` and of `ENCODE` phase E4 over the delivered bytes (41_crc.md R87, 44_codec.md R144). -/
def feedAll : List Byte → State → Flow Unit
  | [], s => atEnd s
  | b :: rest, s => feedAll rest (feedAcc b (consume s))

/-- The byte in hand of a copy loop goes to `OUT`, and then, if the copy is checksummed, to the CRC unit
(44_codec.md R135: `OutWrite([b]); ACC <- Feed(ACC, b)`). -/
def copyInHand (sum : Bool) (s : State) : Flow Unit :=
  match s.seq.pend with
  | [] => .go () s
  | b :: _ =>
    match flush s with
    | .go _ s' => .go () (if sum then feedAcc b s' else s')
    | .wait s' => .wait s'
    | .fail c s' => .fail c s'

/-- The copy loop of `PAY.COPY`, `DECODE` phase D7 (checksummed) and `ENCODE` phase E7 (not) over the delivered
bytes (44_codec.md R135, R137, R144). -/
def copyAll (sum : Bool) : List Byte → State → Flow Unit
  | [], s => atEnd s
  | b :: rest, s =>
    match copyInHand sum { consume s with seq.pend := [b] } with
    | .go _ s' => copyAll sum rest s'
    | .wait s' => .wait s'
    | .fail c s' => .fail c s'

/-- The copy loop from its start or from where it waited: first the byte in hand, if there is one. -/
def copyOn (sum : Bool) (s : State) : Flow Unit :=
  match copyInHand sum s with
  | .go _ s' => copyAll sum (unread s') s'
  | .wait s' => .wait s'
  | .fail c s' => .fail c s'

/-- `CRC.LOAD v` (41_crc.md R85). -/
def execCrcLoad (v : Word) (s : State) : Host.Outcome State Fault Refusal :=
  .next (finish { s with regs.acc := v })

/-- `CRC.FEED b` (41_crc.md R86). -/
def execCrcFeed (b : Byte) (s : State) : Host.Outcome State Fault Refusal :=
  .next (finish (feedAcc b s))

/-- `CRC.FEEDS` from its start or from where it waited (41_crc.md R87). -/
def goCrcFeeds (s : State) : State := (feedAll (unread s) s).andThen fun _ s => finish s

/-- `CRC.FEEDS` (41_crc.md R87). -/
def execCrcFeeds (s : State) : Host.Outcome State Fault Refusal :=
  .next (goCrcFeeds (begin (.prim .crcFeeds) s))

end Sys2Proof.Machine
end

