-- ==== Sys2Proof/Machine/Fields.lean ====
section
/-! DEFINITION. System commands, single fields and the header (42_fields.md). -/
namespace Sys2Proof.Machine

/-- `HdrCk` (42_fields.md R109): `Update` from 0 over the 20 header bytes and four zero bytes. -/
def hdrCk (h : List Byte) : Word := update (h ++ List.replicate Config.ckLen 0#8) 0#32

/-- `NOP` (42_fields.md R100). -/
def execNop (s : State) : Host.Outcome State Fault Refusal := .next (finishQuiet s.regs.acc s)

/-- `REG.RD r` (42_fields.md R101). -/
def execRegRd (r : Reg) (s : State) : Host.Outcome State Fault Refusal :=
  .next (finishQuiet (readReg r s.regs) s)

/-- `REG.WR r, v` (42_fields.md R102). -/
def execRegWr (r : Reg) (v : Word) (s : State) : Host.Outcome State Fault Refusal :=
  .next (ifLegal r.writable (fun s => finish { s with regs := writeReg r v s.regs }) s)

/-- `IN.REWIND` (42_fields.md R112). -/
def execInRewind (s : State) : Host.Outcome State Fault Refusal :=
  .next ((rewindIn s).andThen fun _ s => finish s)

/-- `FLD.IN r` from its start or from where it waited (42_fields.md R103). -/
def goFldIn (r : Reg) (s : State) : State :=
  (readExact Config.ckLen (truncation r) s).andThen fun bytes s =>
    finish { s with regs := writeReg r (u32le bytes) s.regs }

/-- `FLD.IN r` (42_fields.md R103). -/
def execFldIn (r : Reg) (s : State) : Host.Outcome State Fault Refusal :=
  .next (ifLegal r.fieldIn (fun s => goFldIn r (begin (.prim (.fldIn r)) s)) s)

/-- A command that ends when its `OutWrite` does, from where it waited (42_fields.md R104, R110; 43_name.md
R121). -/
def goWrite (s : State) : State := (flush s).andThen fun _ s => finish s

/-- A command that is one `OutWrite` (42_fields.md R104, R110; 43_name.md R121). -/
def writeOut (c : Instr) (bytes : List Byte) (s : State) : State :=
  (outWrite bytes (begin (.prim c) s)).andThen fun _ s => finish s

/-- `FLD.OUT r` (42_fields.md R104). -/
def execFldOut (r : Reg) (s : State) : Host.Outcome State Fault Refusal :=
  .next (ifLegal r.fieldOut (fun s => writeOut (.fldOut r) (le32 (readReg r s.regs)) s) s)

/-- `HDR.DFLT` (42_fields.md R105). -/
def execHdrDflt (s : State) : Host.Outcome State Fault Refusal :=
  .next (finish { s with regs.hf := Header.constants })

/-- `HDR.UNPACK` from its start or from where it waited (42_fields.md R108). -/
def goHdrUnpack (s : State) : State :=
  (readExact Config.hdrLen .headerTruncated s).andThen fun bytes s =>
    finish { s with regs.hf := unpack bytes }

/-- `HDR.UNPACK` (42_fields.md R108). -/
def execHdrUnpack (s : State) : Host.Outcome State Fault Refusal :=
  .next (goHdrUnpack (begin (.prim .hdrUnpack) s))

/-- `HDR.PACK` (42_fields.md R110). -/
def execHdrPack (s : State) : Host.Outcome State Fault Refusal :=
  .next (writeOut .hdrPack (pack s.regs.hf) s)

/-- `HDR.CRC` (42_fields.md R111). -/
def execHdrCrc (s : State) : Host.Outcome State Fault Refusal :=
  .next (finish { s with regs.acc := hdrCk (pack s.regs.hf) })

end Sys2Proof.Machine
end

