-- ==== Sys2Proof/Machine/Name.lean ====
section
/-! DEFINITION. The display-name field (43_name.md): `NamePack`, `NameUnpack` and the four commands that move
it. -/
namespace Sys2Proof.Machine

/-- `NameBytes(us)` (43_name.md R122). -/
def nameBytes : List CodeUnit → List Byte
  | [] => []
  | u :: us => le16 u ++ nameBytes us

/-- Step 5 of `NamePack` (43_name.md R123): truncate to 128 bytes, then, if 128 remain and the tested byte is that
of a high surrogate, drop the last two. -/
def nameKept (us : List CodeUnit) : List Byte :=
  let nb := (nameBytes us).take Config.nameLen
  let top := byteAt nb Config.surrByte
  if nb.length = Config.nameLen ∧ Config.surrLo ≤ top ∧ top ≤ Config.surrHi then nb.take (Config.nameLen - 2)
  else nb

/-- `NamePack` (43_name.md R123): the 128-byte field and the number of units kept. -/
def namePack (us : List CodeUnit) : List Byte × Nat :=
  let nb := nameKept us
  (nb ++ List.replicate (Config.nameLen - nb.length) 0#8, nb.length / 2)

/-- The code units of a byte sequence, the low byte at the even index (10_state.md R16). -/
def unitsOf : List Byte → List CodeUnit
  | lo :: hi :: rest => u16le lo hi :: unitsOf rest
  | [_] => []
  | [] => []

/-- `NameUnpack` (43_name.md R125): the units before the first NUL unit. -/
def nameUnpack (field : List Byte) : List CodeUnit := (unitsOf field).takeWhile (· != 0#16)

/-- `NAMELEN <- n` (10_state.md R15: 7 bits; every write is a number 0 to 64). -/
def setNameLen (n : Nat) (s : State) : State := { s with regs.nameLen := BitVec.ofNat 7 n }

/-- `(field, kept) <- NamePack(us)` into `NAMEBUF` and `NAMELEN` (43_name.md R124, 44_codec.md R144 phase E1). -/
def storeName (us : List CodeUnit) (s : State) : State :=
  setNameLen (namePack us).2 { s with regs.nameBuf := (namePack us).1 }

/-- Reads the 128 bytes of the name field into `NAMEBUF` and goes on with `k` (43_name.md R120, 44_codec.md R137
phase D5); a fault leaves `NAMEBUF` unspecified (93_implementation_defined.md U2). -/
def readName (k : State → State) (s : State) : State :=
  match readExact Config.nameLen .nameFieldTruncated s with
  | .go bytes s' => k { s' with regs.nameBuf := bytes }
  | .wait s' => s'
  | .fail c s' => raise c (scrambleName s')

/-- `NAME.IN` from its start or from where it waited (43_name.md R120). -/
def goNameIn (s : State) : State := readName finish s

/-- `NAME.IN` (43_name.md R120). -/
def execNameIn (s : State) : Host.Outcome State Fault Refusal :=
  .next (goNameIn (begin (.prim .nameIn) s))

/-- `NAME.OUT` (43_name.md R121). -/
def execNameOut (s : State) : Host.Outcome State Fault Refusal :=
  .next (writeOut .nameOut s.regs.nameBuf s)

/-- `NAME.PACK` from its start or from where it waited (43_name.md R124). -/
def goNamePack (s : State) : State := (takeName s).andThen fun us s => finish (storeName us s)

/-- `NAME.PACK` (43_name.md R124). -/
def execNamePack (s : State) : Host.Outcome State Fault Refusal :=
  .next (goNamePack (begin (.prim .namePack) s))

/-- `NAME.UNPACK` (43_name.md R126). -/
def execNameUnpack (s : State) : Host.Outcome State Fault Refusal :=
  .next (finish (noutMsg (nameUnpack s.regs.nameBuf) (setNameLen (nameUnpack s.regs.nameBuf).length s)))

end Sys2Proof.Machine
end

