-- ==== Sys2Proof/Machine/Codec.lean ====
section
/-! DEFINITION. Payload copy, `DECODE` and `ENCODE` (44_codec.md).

Each phase of a composite command is written as one or two functions: `enter<P>` does what the phase does before it
touches a stream, and `go<P>` the rest, from its start or from where it waited; a phase that never waits has
`enter<P>` only. The phases stand last first, so that each calls the next. -/
namespace Sys2Proof.Machine

/-- `PAY.COPY` from its start or from where it waited (44_codec.md R135). -/
def goPayCopy (s : State) : State := (copyOn true s).andThen fun _ s => finish s

/-- `PAY.COPY` (44_codec.md R135): `ACC <- 0`, then the copy. -/
def execPayCopy (s : State) : Host.Outcome State Fault Refusal :=
  .next (goPayCopy { begin (.prim .payCopy) s with regs.acc := 0#32 })

/-- D8: the name goes to the host and the command ends (44_codec.md R137). -/
def enterD8 (s : State) : State :=
  finish (noutMsg (nameUnpack s.regs.nameBuf) (begin .d8 s))

/-- The end of D7: the payload's checksum against `PCK` (44_codec.md R137). -/
def checkPayload (s : State) : State :=
  if s.regs.acc ≠ s.regs.pck then raise .payloadChecksumMismatch s else enterD8 (setVerified s)

/-- D7: the checksummed copy of the payload, then the comparison (44_codec.md R137). -/
def goD7 (s : State) : State := (copyOn true s).andThen fun _ s => checkPayload s

/-- D7: the copy is made only when `MODE.SINK = 1` (44_codec.md R137, R140). -/
def enterD7 (s : State) : State :=
  if sinkOn s then goD7 { begin .d7 s with regs.acc := 0#32 } else enterD8 (begin .d7 s)

/-- D6: unpack the name and set `NAMELEN` (44_codec.md R137). The name is unpacked from `NAMEBUF`, which phase D5
has just written (10_state.md R16; log 11). -/
def enterD6 (s : State) : State :=
  enterD7 (setNameLen (nameUnpack s.regs.nameBuf).length (begin .d6 s))

/-- D5: the name field into `NAMEBUF` (44_codec.md R137). -/
def goD5 (s : State) : State := readName enterD6 s

/-- D4: the stored payload checksum into `PCK` (44_codec.md R137). -/
def goD4 (s : State) : State :=
  (readExact Config.ckLen .payloadChecksumFieldTruncated s).andThen fun bytes s =>
    goD5 (begin .d5 { s with regs.pck := u32le bytes })

/-- D3: the header's checksum into `ACC`, against `HCK` (44_codec.md R137). The header bytes are those of `HF`
(42_fields.md R107; log 11). -/
def enterD3 (s : State) : State :=
  let s := { begin .d3 s with regs.acc := hdrCk (pack s.regs.hf) }
  if s.regs.acc ≠ s.regs.hck then raise .headerChecksumMismatch s else goD4 (begin .d4 s)

/-- D2: the stored header checksum into `HCK` (44_codec.md R137). -/
def goD2 (s : State) : State :=
  (readExact Config.ckLen .checksumFieldTruncated s).andThen fun bytes s =>
    enterD3 { s with regs.hck := u32le bytes }

/-- D1: the 20 header bytes into `HF` (44_codec.md R137). -/
def goD1 (s : State) : State :=
  (readExact Config.hdrLen .headerTruncated s).andThen fun bytes s =>
    goD2 (begin .d2 { s with regs.hf := unpack bytes })

/-- D1: clear `VERIFIED`, then read the header (44_codec.md R137). -/
def enterD1 (s : State) : State := goD1 (clearVerified (begin .d1 s))

/-- `DECODE` (44_codec.md R137). -/
def execDecode (s : State) : Host.Outcome State Fault Refusal := .next (enterD1 s)

/-- E7: copy the payload and end (44_codec.md R144). -/
def goE7 (s : State) : State := (copyOn false s).andThen fun _ s => finish s

/-- E6: rewind `IN` (44_codec.md R144). -/
def enterE6 (s : State) : State := (rewindIn (begin .e6 s)).andThen fun _ s => goE7 (begin .e7 s)

/-- E5: the name field to `OUT` (44_codec.md R144). -/
def goE5 (s : State) : State := (flush s).andThen fun _ s => enterE6 s

/-- E5: the 128 bytes of `NAMEBUF` (44_codec.md R144). -/
def enterE5 (s : State) : State := goE5 { begin .e5 s with seq.pend := s.regs.nameBuf }

/-- The end of E4: the payload checksum to `OUT` (44_codec.md R144). -/
def writePck (s : State) : State := (flush s).andThen fun _ s => enterE5 s

/-- E4: feed all of `IN`, then `PCK <- ACC` and its bytes to `OUT` (44_codec.md R144). -/
def feedE4 (s : State) : State :=
  (feedAll (unread s) s).andThen fun _ s =>
    writePck { s with regs.pck := s.regs.acc, seq.pend := le32 s.regs.acc }

/-- E4 from where it waited: in the feed, or, with bytes in hand, in the write after it (44_codec.md R144). -/
def goE4 (s : State) : State := if s.seq.pend = [] then feedE4 s else writePck s

/-- E4: `ACC <- 0`, then the feed (44_codec.md R144). -/
def enterE4 (s : State) : State := feedE4 { begin .e4 s with regs.acc := 0#32 }

/-- E3: the header checksum to `OUT` (44_codec.md R144). -/
def goE3 (s : State) : State := (flush s).andThen fun _ s => enterE4 s

/-- E3: the header checksum into `ACC` and `HCK` (44_codec.md R144). -/
def enterE3 (s : State) : State :=
  let ck := hdrCk (pack s.regs.hf)
  goE3 { begin .e3 s with regs.acc := ck, regs.hck := ck, seq.pend := le32 ck }

/-- E2: the header to `OUT` (44_codec.md R144). -/
def goE2 (s : State) : State := (flush s).andThen fun _ s => enterE3 s

/-- E2: the five constants into `HF` (44_codec.md R144). -/
def enterE2 (s : State) : State :=
  goE2 { begin .e2 s with regs.hf := Header.constants, seq.pend := pack Header.constants }

/-- E1: the name message into `NAMEBUF` and `NAMELEN` (44_codec.md R144). -/
def goE1 (s : State) : State := (takeName s).andThen fun us s => enterE2 (storeName us s)

/-- `ENCODE` (44_codec.md R144). -/
def execEncode (s : State) : Host.Outcome State Fault Refusal := .next (goE1 (begin .e1 s))

end Sys2Proof.Machine
end

