-- ==== Sys2Proof/Machine/Dispatch.lean ====
section
/-! DEFINITION. One arm per command: the whole of what a step of the block runs. -/
namespace Sys2Proof.Machine

/-- The meaning of a command, from the state in which the block takes it. -/
def exec (i : Instr) (s : State) : Host.Outcome State Fault Refusal :=
  match i with
  | .nop => Sys2Proof.Machine.execNop s
  | .crcLoad v => Sys2Proof.Machine.execCrcLoad v s
  | .crcFeed b => Sys2Proof.Machine.execCrcFeed b s
  | .crcFeeds => Sys2Proof.Machine.execCrcFeeds s
  | .regRd r => Sys2Proof.Machine.execRegRd r s
  | .regWr r v => Sys2Proof.Machine.execRegWr r v s
  | .fldIn r => Sys2Proof.Machine.execFldIn r s
  | .fldOut r => Sys2Proof.Machine.execFldOut r s
  | .hdrDflt => Sys2Proof.Machine.execHdrDflt s
  | .hdrUnpack => Sys2Proof.Machine.execHdrUnpack s
  | .hdrPack => Sys2Proof.Machine.execHdrPack s
  | .hdrCrc => Sys2Proof.Machine.execHdrCrc s
  | .nameIn => Sys2Proof.Machine.execNameIn s
  | .nameOut => Sys2Proof.Machine.execNameOut s
  | .namePack => Sys2Proof.Machine.execNamePack s
  | .nameUnpack => Sys2Proof.Machine.execNameUnpack s
  | .payCopy => Sys2Proof.Machine.execPayCopy s
  | .decode => Sys2Proof.Machine.execDecode s
  | .encode => Sys2Proof.Machine.execEncode s
  | .inRewind => Sys2Proof.Machine.execInRewind s

end Sys2Proof.Machine
end

