-- ==== Sys2Proof/Machine/Resume.lean ====
section
/-! DEFINITION. A waiting command taken up again (20_memory.md R47 d, R49): from the phase it waits in. -/
namespace Sys2Proof.Machine

/-- A primitive command taken up again. A command that touches no stream, or only rewinds, never waits. -/
def resumePrim (c : Instr) (s : State) : Host.Outcome State Fault Refusal :=
  match c with
  | .crcFeeds => .next (goCrcFeeds s)
  | .fldIn r => .next (goFldIn r s)
  | .fldOut _ => .next (goWrite s)
  | .hdrUnpack => .next (goHdrUnpack s)
  | .hdrPack => .next (goWrite s)
  | .nameIn => .next (goNameIn s)
  | .nameOut => .next (goWrite s)
  | .namePack => .next (goNamePack s)
  | .payCopy => .next (goPayCopy s)
  | .nop | .crcLoad _ | .crcFeed _ | .regRd _ | .regWr _ _ | .hdrDflt | .hdrCrc | .nameUnpack | .inRewind
  | .decode | .encode => .fault .strayPhase

/-- The running command taken up again, by `PHASE`. -/
def resume (s : State) : Host.Outcome State Fault Refusal :=
  match s.seq.phase with
  | .idle => .next s
  | .prim c => resumePrim c s
  | .d1 => .next (goD1 s)
  | .d2 => .next (goD2 s)
  | .d4 => .next (goD4 s)
  | .d5 => .next (goD5 s)
  | .d7 => .next (goD7 s)
  | .e1 => .next (goE1 s)
  | .e2 => .next (goE2 s)
  | .e3 => .next (goE3 s)
  | .e4 => .next (goE4 s)
  | .e5 => .next (goE5 s)
  | .e7 => .next (goE7 s)
  | .d3 | .d6 | .d8 | .e6 => .fault .strayPhase

end Sys2Proof.Machine
end

