-- ==== Sys2Proof/Machine/HostPort.lean ====
section
/-! DEFINITION. The host's side (10_state.md R31): one move of the host, and what a waiting block does next. -/
namespace Sys2Proof.Machine

/-- The registers after a reset in the middle of a run (10_state.md R30, 70_reset_and_hazards.md R186): the
unspecified ones are free values (log 3, 13). -/
def freeLaunch (n : Nat) : Launch :=
  { hf := { magic := Config.freeWord n, hsize := Config.freeWord (n + 1), version := Config.freeWord (n + 2),
            rsvd := Config.freeWord (n + 3), subsize := Config.freeWord (n + 4) },
    hck := Config.freeWord (n + 5), pck := Config.freeWord (n + 6), nameLen := Config.freeLen n,
    nameBuf := freeBytes n }

/-- Reset at any time (70_reset_and_hazards.md R185, R186): a running command ends without a response; what was
written stays written and what was handed over stays handed over; the host must open the streams again (log 13). -/
def applyReset (s : State) : State :=
  { regs := (freeLaunch s.fresh).regs, seq := Seq.idleAt 0 0,
    ports := { Ports.closed with responses := s.ports.responses, out := s.ports.out, nout := s.ports.nout },
    host := s.host, fresh := s.fresh + Config.nameLen }

/-- A move that only a host outside its duties makes, unless `ok` holds (93_implementation_defined.md U15, U16;
20_memory.md R47; log 12). -/
def unlessDuty (ok : Bool) (s : State) : Host.Outcome State Fault Refusal :=
  if ok then .next s else .refused .hostDuty

/-- One move of the host. A word is presented, and a stream replaced, only while no command runs (U15, U16); nothing
follows the end or the failure of `IN` or `NIN` but a new stream or a rewind (10_state.md R21). A host that fails a
stream takes back what it had not yet handed over: the next access fails (60_exceptions.md R169; log 8), but reads that
follow a returned end of stream go on returning it (20_memory.md R47 b). Where the spec is silent the model lets the
host change its answer to a rewind at any move (log 9), accept bytes again on an `OUT` that it has failed
(log 28), and supply or accept on a stream that it has not opened since reset as if it had (log 29). -/
def hostMove (m : HostMove) (s : State) : Host.Outcome State Fault Refusal :=
  match m with
  | .issue w =>
    unlessDuty (s.seq.phase = .idle ∧ s.ports.cmd = none) { s with ports.cmd := some w }
  | .openIn bytes ending rewind =>
    unlessDuty (s.seq.phase = .idle)
      { s with ports.inData := bytes, ports.inEnd := ending, ports.inEos := false, ports.inRewind := rewind,
               seq.ipos := 0 }
  | .deliver bytes =>
    unlessDuty (s.ports.inEnd = .pending) { s with ports.inData := s.ports.inData ++ bytes }
  | .endIn => unlessDuty (s.ports.inEnd = .pending) { s with ports.inEnd := .ended }
  | .failIn =>
    .next { s with ports.inData := s.ports.inData.take s.seq.ipos, ports.inEnd := .failed }
  | .setRewind rewind => .next { s with ports.inRewind := rewind }
  | .openOut room =>
    unlessDuty (s.seq.phase = .idle) { s with ports.out := [], ports.outRoom := room, seq.opos := 0 }
  | .setRoom room => .next { s with ports.outRoom := room }
  | .openNin items =>
    unlessDuty (s.seq.phase = .idle) { s with ports.nin := items, ports.ninFailed := false }
  | .sendNin items =>
    unlessDuty (!s.ports.ninFailed) { s with ports.nin := s.ports.nin ++ items }
  | .failNin => .next { s with ports.nin := [], ports.ninFailed := true }
  | .reset => .next (applyReset s)

/-- The block has nothing to do until the host moves (20_memory.md R47 d): the host makes its next move and a
running command goes on as far as it can. With no move left the block goes on waiting, in the same state if it can
do nothing (log 6). -/
def hostTurn (s : State) : Host.Outcome State Fault Refusal :=
  match s.host with
  | [] => resume s
  | m :: rest =>
    match hostMove m { s with host := rest } with
    | .next s' => resume s'
    | .fault f => .fault f
    | .refused r => .refused r

end Sys2Proof.Machine
end

