-- ==== Sys2Proof/Machine/Step.lean ====
section
/-! DEFINITION. One step of the machine (10_state.md R25, R31). -/
namespace Sys2Proof.Machine

/-- An idle block takes the word at its command port and runs it, or, if the word is illegal, raises
`IllegalCommand` before any effect (60_exceptions.md R167); with no word there, and inside a command that waits, it
is the host's turn. -/
def step (s : State) : Host.Outcome State Fault Refusal :=
  match s.seq.phase, s.ports.cmd with
  | .idle, some w =>
    match decode w with
    | .ok i => exec i { s with ports.cmd := none }
    | .error _ => .next (raise .illegalCommand { s with ports.cmd := none })
  | _, _ => hostTurn s

/-- The host's question: the state in which the next step fetches and runs the word that opcode_table.json numbers
from bit 0 (bits from `nbits` up are 0). It stands for the host presenting that word (log 16). -/
def State.withFetchWord (s : State) (nbits w : Nat) : State :=
  presentWord (BitVec.ofNat 48 (w % 2 ^ nbits)) s

end Sys2Proof.Machine
end

