-- ==== Sys2Proof/Machine/Assembly.lean ====
section
/-! DEFINITION. Assembler text (30_encoding.md R74) and the pseudo-commands with their expansions (R75). -/
namespace Sys2Proof

/-- A register's name (30_encoding.md R65). -/
def Reg.name : Reg → String
  | .magic => "MAGIC"
  | .hsize => "HSIZE"
  | .version => "VERSION"
  | .rsvd => "RSVD"
  | .subsize => "SUBSIZE"
  | .hck => "HCK"
  | .pck => "PCK"
  | .acc => "ACC"
  | .namelen => "NAMELEN"
  | .flags => "FLAGS"
  | .err => "ERR"
  | .mode => "MODE"

/-- A command's mnemonic (30_encoding.md R63). -/
def Instr.mnemonic : Instr → String
  | .nop => "NOP"
  | .crcLoad _ => "CRC.LOAD"
  | .crcFeed _ => "CRC.FEED"
  | .crcFeeds => "CRC.FEEDS"
  | .regRd _ => "REG.RD"
  | .regWr _ _ => "REG.WR"
  | .fldIn _ => "FLD.IN"
  | .fldOut _ => "FLD.OUT"
  | .hdrDflt => "HDR.DFLT"
  | .hdrUnpack => "HDR.UNPACK"
  | .hdrPack => "HDR.PACK"
  | .hdrCrc => "HDR.CRC"
  | .nameIn => "NAME.IN"
  | .nameOut => "NAME.OUT"
  | .namePack => "NAME.PACK"
  | .nameUnpack => "NAME.UNPACK"
  | .payCopy => "PAY.COPY"
  | .decode => "DECODE"
  | .encode => "ENCODE"
  | .inRewind => "IN.REWIND"

/-- A command as a line of assembler text (30_encoding.md R74): the mnemonic, then the operands separated by commas, a
register by its name and an immediate as a decimal number (log 20). -/
def Instr.asm (i : Instr) : String :=
  match i with
  | .crcLoad v => i.mnemonic ++ " " ++ toString v.toNat
  | .crcFeed b => i.mnemonic ++ " " ++ toString b.toNat
  | .regRd r | .fldIn r | .fldOut r => i.mnemonic ++ " " ++ r.name
  | .regWr r v => i.mnemonic ++ " " ++ r.name ++ ", " ++ toString v.toNat
  | .nop | .crcFeeds | .hdrDflt | .hdrUnpack | .hdrPack | .hdrCrc | .nameIn | .nameOut | .namePack | .nameUnpack
  | .payCopy | .decode | .encode | .inRewind => i.mnemonic

/-- The expansion of a pseudo-command (30_encoding.md R75). -/
def Pseudo.expand : Pseudo → List Instr
  | .crcClr => [.crcLoad 0#32]
  | .crcRead => [.regRd .acc]
  | .crcUpdate b rest => (b :: rest).map .crcFeed
  | .crcEmit => [.fldOut .acc]
  | .sinkOn => [.regWr .mode 1#32]
  | .sinkOff => [.regWr .mode 0#32]

/-- Commands run one after another, each from the state the one before it leaves (20_memory.md R52). -/
def Machine.execAll : List Instr → Machine.State → Host.Outcome Machine.State Machine.Fault Machine.Refusal
  | [], s => .next s
  | i :: rest, s =>
    match Machine.exec i s with
    | .next s' => Machine.execAll rest s'
    | .fault f => .fault f
    | .refused r => .refused r

end Sys2Proof
end

