-- ==== Sys2Proof/Machine/BigStep.lean ====
section
/-! DEFINITION. The big-step forms of the composite commands (44_codec.md R142, R147) and the multiplexer's selection
function (30_encoding.md R76): pure functions that the statements compare the meanings with. -/
namespace Sys2Proof.Machine

/-- A result of `DecodeFn` (44_codec.md R142): a fault, a name alone, or a name and a payload. -/
inductive DecodeResult where
  | fault (c : Cause)
  | name (us : List CodeUnit)
  | full (us : List CodeUnit) (payload : List Byte)
deriving DecidableEq, Repr

/-- `DecodeFn(S, sink)` (44_codec.md R142). -/
def decodeFn (S : List Byte) (sink : Bool) : DecodeResult :=
  if S.length < 20 then .fault .headerTruncated
  else if S.length < 24 then .fault .checksumFieldTruncated
  else if hdrCk (slice S 0 20) ≠ u32le (slice S 20 24) then .fault .headerChecksumMismatch
  else if S.length < 28 then .fault .payloadChecksumFieldTruncated
  else if S.length < 156 then .fault .nameFieldTruncated
  else if sink = false then .name (nameUnpack (slice S 28 156))
  else if update (S.drop 156) 0#32 ≠ u32le (slice S 24 28) then .fault .payloadChecksumMismatch
  else .full (nameUnpack (slice S 28 156)) (S.drop 156)

/-- `EncodeFn(P, us)` (44_codec.md R147). -/
def encodeFn (P : List Byte) (us : List CodeUnit) : List Byte :=
  pack Header.constants ++ le32 (hdrCk (pack Header.constants)) ++ le32 (update P 0#32) ++ (namePack us).1 ++ P

/-- Where `Sel` sends a byte (30_encoding.md R76). -/
inductive Dest where
  | hf (i : Nat)
  | hck
  | pck
  | nameBuf (i : Nat)
  | payload (i : Nat)
deriving DecidableEq, Repr

/-- `Sel(o)` (30_encoding.md R76): the destination of the byte at container offset `o`, and its lane. -/
def sel (o : Nat) : Dest × Nat :=
  if o < 0x14 then (.hf (o / 4), o % 4)
  else if o < 0x18 then (.hck, o - 0x14)
  else if o < 0x1C then (.pck, o - 0x18)
  else if o < 0x9C then (.nameBuf (o - 0x1C), 0)
  else (.payload (o - 0x9C), 0)

/-- Lane `k` of a 32-bit register: its bits `8k+7` to `8k` (30_encoding.md R76). -/
def lane (v : Word) (k : Nat) : Byte := v.extractLsb' (8 * k) 8

/-- `HF[i]` (10_state.md R12). -/
def Header.field (f : Header) (i : Nat) : Word :=
  match i with
  | 0 => f.magic
  | 1 => f.hsize
  | 2 => f.version
  | 3 => f.rsvd
  | _ => f.subsize

/-- The byte that the place `Sel` names holds, in given registers and payload (30_encoding.md R76). -/
def destByte (x : Regs) (payload : List Byte) (d : Dest × Nat) : Byte :=
  match d.1 with
  | .hf i => lane (x.hf.field i) d.2
  | .hck => lane x.hck d.2
  | .pck => lane x.pck d.2
  | .nameBuf i => byteAt x.nameBuf i
  | .payload i => byteAt payload i

end Sys2Proof.Machine
end

