-- ==== Sys2Proof/Safety.lean ====
section
/-! DEFINITION. What the statements call a sound state, which command may write what (10_state.md R32), and the terms
in which they say what the host has put on the ports. -/
namespace Sys2Proof.Machine

/-- The commands that can wait at a stream in phase `PRIM`, their operand being one their row allows. -/
def waits (c : Instr) : Bool :=
  match c with
  | .crcFeeds | .hdrUnpack | .hdrPack | .nameIn | .nameOut | .namePack | .payCopy => true
  | .fldIn r => r.fieldIn
  | .fldOut r => r.fieldOut
  | .nop | .crcLoad _ | .crcFeed _ | .regRd _ | .regWr _ _ | .hdrDflt | .hdrCrc | .nameUnpack | .inRewind
  | .decode | .encode => false

/-- The phases a step can end in: between commands, or waiting at a stream (10_state.md R20). -/
def Phase.restful (p : Phase) : Bool :=
  match p with
  | .idle | .d1 | .d2 | .d4 | .d5 | .d7 | .e1 | .e2 | .e3 | .e4 | .e5 | .e7 => true
  | .prim c => waits c
  | .d3 | .d6 | .d8 | .e6 => false

/-- How many bytes the `ReadExact` of a phase collects (44_codec.md R136; 42_fields.md R103, R108; 43_name.md R120);
0 in a phase that has none. -/
def Phase.reads (p : Phase) : Nat :=
  match p with
  | .d1 | .prim .hdrUnpack => 20
  | .d2 | .d4 | .prim (.fldIn _) => 4
  | .d5 | .prim .nameIn => 128
  | _ => 0

/-- How many bytes a phase hands to `OUT` in one `OutWrite` (44_codec.md R143; 42_fields.md R104, R110; 43_name.md
R121); 0 in a phase that writes none. -/
def Phase.hands (p : Phase) : Nat :=
  match p with
  | .e2 | .prim .hdrPack => 20
  | .e3 | .e4 | .prim (.fldOut _) => 4
  | .e5 | .prim .nameOut => 128
  | .d7 | .e7 | .prim .payCopy => 1
  | _ => 0

/-- The phases that take a name message from `NIN`. -/
def Phase.takesName (p : Phase) : Bool :=
  match p with
  | .e1 | .prim .namePack => true
  | _ => false

/-- The phases of `DECODE` (44_codec.md R136). -/
def Phase.ofDecode (p : Phase) : Bool :=
  match p with
  | .d1 | .d2 | .d3 | .d4 | .d5 | .d6 | .d7 | .d8 => true
  | .idle | .prim _ | .e1 | .e2 | .e3 | .e4 | .e5 | .e6 | .e7 => false

/-- THE INVARIANT: what every state that the machine can come to has. -/
structure State.Inv (s : State) : Prop where
  /-- `NAMEBUF` is 128 bytes (10_state.md R16). -/
  nameBuf : s.regs.nameBuf.length = 128
  /-- Codes 9 to 255 are never produced (60_exceptions.md R160). -/
  err : s.regs.err ≤ 8#8
  /-- The same of every response given (10_state.md R18). -/
  codes : ∀ r ∈ s.ports.responses, r.code ≤ 8#8
  /-- `IPOS` counts bytes of the stream (10_state.md R20). -/
  ipos : s.seq.ipos ≤ s.ports.inData.length
  /-- A step ends between commands or waiting at a stream (10_state.md R31). -/
  phase : s.seq.phase.restful = true
  /-- The command port is empty while a command runs (10_state.md R25; 93_implementation_defined.md U15). -/
  port : s.seq.phase ≠ .idle → s.ports.cmd = none
  /-- End of stream has been returned only where the stream has ended (20_memory.md R47 b). -/
  eos : s.ports.inEos = true → unread s = [] ∧ s.ports.inEnd ≠ .pending
  /-- `VERIFIED` is 0 while a `DECODE` runs (10_state.md R17). -/
  verified : s.seq.phase.ofDecode = true → s.regs.flags = 0#1
  /-- A `DECODE` waits in phase D7 only to copy the payload (44_codec.md R140). -/
  sink : s.seq.phase = .d7 → s.regs.mode = 1#1
  /-- A `ReadExact` has collected no more than it wants; in a phase without one nothing is collected. -/
  got : s.seq.got.length ≤ s.seq.phase.reads
  /-- An `OutWrite` has no more to hand over than it had; in a phase without one nothing. -/
  pend : s.seq.pend.length ≤ s.seq.phase.hands
  /-- Units are held only while a name message is taken. -/
  units : s.seq.phase.takesName = false → s.seq.units = []
  /-- A message on `NOUT` has 0 to 64 units, none of them NUL (10_state.md R24). -/
  names : ∀ us ∈ s.ports.nout, us.length ≤ 64 ∧ 0#16 ∉ us

/-- The pieces of state in the write column of 10_state.md R32. -/
inductive Part where
  | acc | magic | hsize | version | rsvd | subsize | hck | pck | nameLen | nameBuf | flags | err | mode
  | ipos | opos | out | nout
deriving DecidableEq, Repr

/-- A piece of state is the same in two states. -/
def Part.same (p : Part) (s t : State) : Prop :=
  match p with
  | .acc => t.regs.acc = s.regs.acc
  | .magic => t.regs.hf.magic = s.regs.hf.magic
  | .hsize => t.regs.hf.hsize = s.regs.hf.hsize
  | .version => t.regs.hf.version = s.regs.hf.version
  | .rsvd => t.regs.hf.rsvd = s.regs.hf.rsvd
  | .subsize => t.regs.hf.subsize = s.regs.hf.subsize
  | .hck => t.regs.hck = s.regs.hck
  | .pck => t.regs.pck = s.regs.pck
  | .nameLen => t.regs.nameLen = s.regs.nameLen
  | .nameBuf => t.regs.nameBuf = s.regs.nameBuf
  | .flags => t.regs.flags = s.regs.flags
  | .err => t.regs.err = s.regs.err
  | .mode => t.regs.mode = s.regs.mode
  | .ipos => t.seq.ipos = s.seq.ipos
  | .opos => t.seq.opos = s.seq.opos
  | .out => t.ports.out = s.ports.out
  | .nout => t.ports.nout = s.ports.nout

/-- The piece of state at a register index. -/
def Reg.part (r : Reg) : Part :=
  match r with
  | .magic => .magic
  | .hsize => .hsize
  | .version => .version
  | .rsvd => .rsvd
  | .subsize => .subsize
  | .hck => .hck
  | .pck => .pck
  | .acc => .acc
  | .namelen => .nameLen
  | .flags => .flags
  | .err => .err
  | .mode => .mode

/-- `HF[0..4]`. -/
def Part.header : List Part := [.magic, .hsize, .version, .rsvd, .subsize]

/-- The write column of 10_state.md R32. -/
def writes (c : Instr) : List Part :=
  match c with
  | .nop => []
  | .crcLoad _ => [.acc, .err]
  | .crcFeed _ => [.acc, .err]
  | .crcFeeds => [.acc, .ipos, .err]
  | .regRd _ => []
  | .regWr r _ => [Reg.part r, .err]
  | .fldIn r => [Reg.part r, .ipos, .err]
  | .fldOut _ => [.out, .opos, .err]
  | .hdrDflt => Part.header ++ [.err]
  | .hdrUnpack => Part.header ++ [.ipos, .err]
  | .hdrPack => [.out, .opos, .err]
  | .hdrCrc => [.acc, .err]
  | .inRewind => [.ipos, .err]
  | .nameIn => [.nameBuf, .ipos, .err]
  | .nameOut => [.out, .opos, .err]
  | .namePack => [.nameBuf, .nameLen, .err]
  | .nameUnpack => [.nameLen, .nout, .err]
  | .payCopy => [.acc, .out, .ipos, .opos, .err]
  | .decode => Part.header ++ [.hck, .pck, .nameBuf, .nameLen, .acc, .flags, .out, .nout, .ipos, .opos, .err]
  | .encode => Part.header ++ [.hck, .pck, .nameBuf, .nameLen, .acc, .out, .ipos, .opos, .err]

/-- A row of opcode_table.json: what a decoder must test (30_encoding.md R66). -/
structure OpcodeRow where
  mnemonic : String
  pattern : CommandWord
  mask : CommandWord
  legal : List Nat
deriving DecidableEq, Repr

/-- The word is one of the row's: the masked bits are the row's pattern and, for a row with a register index, the
index is one the row allows. -/
def OpcodeRow.holds (row : OpcodeRow) (w : CommandWord) : Prop :=
  w &&& row.mask = row.pattern ∧ (row.legal = [] ∨ (idxField w).toNat ∈ row.legal)

/-- The twenty rows of opcode_table.json. -/
def opcodeRows : List OpcodeRow :=
  [ { mnemonic := "NOP", pattern := 0x000000000000#48, mask := 0xFFFFFFFFFFFF#48, legal := [] },
     { mnemonic := "CRC.LOAD", pattern := 0x010000000000#48, mask := 0xFFFF00000000#48, legal := [] },
     { mnemonic := "CRC.FEED", pattern := 0x020000000000#48, mask := 0xFFFFFFFFFF00#48, legal := [] },
     { mnemonic := "CRC.FEEDS", pattern := 0x030000000000#48, mask := 0xFFFFFFFFFFFF#48, legal := [] },
     { mnemonic := "REG.RD", pattern := 0x040000000000#48, mask := 0xFF00FFFFFFFF#48, legal := [0, 1, 2, 3, 4, 5, 6, 7, 8, 9, 10, 11] } ]
  ++ [ { mnemonic := "REG.WR", pattern := 0x050000000000#48, mask := 0xFF0000000000#48, legal := [0, 1, 2, 3, 4, 5, 6, 7, 11] },
     { mnemonic := "FLD.IN", pattern := 0x060000000000#48, mask := 0xFF00FFFFFFFF#48, legal := [0, 1, 2, 3, 4, 5, 6] },
     { mnemonic := "FLD.OUT", pattern := 0x070000000000#48, mask := 0xFF00FFFFFFFF#48, legal := [0, 1, 2, 3, 4, 5, 6, 7] },
     { mnemonic := "HDR.DFLT", pattern := 0x080000000000#48, mask := 0xFFFFFFFFFFFF#48, legal := [] },
     { mnemonic := "HDR.UNPACK", pattern := 0x090000000000#48, mask := 0xFFFFFFFFFFFF#48, legal := [] } ]
  ++ [ { mnemonic := "HDR.PACK", pattern := 0x0A0000000000#48, mask := 0xFFFFFFFFFFFF#48, legal := [] },
     { mnemonic := "HDR.CRC", pattern := 0x0B0000000000#48, mask := 0xFFFFFFFFFFFF#48, legal := [] },
     { mnemonic := "NAME.IN", pattern := 0x0C0000000000#48, mask := 0xFFFFFFFFFFFF#48, legal := [] },
     { mnemonic := "NAME.OUT", pattern := 0x0D0000000000#48, mask := 0xFFFFFFFFFFFF#48, legal := [] },
     { mnemonic := "NAME.PACK", pattern := 0x0E0000000000#48, mask := 0xFFFFFFFFFFFF#48, legal := [] } ]
  ++ [ { mnemonic := "NAME.UNPACK", pattern := 0x0F0000000000#48, mask := 0xFFFFFFFFFFFF#48, legal := [] },
     { mnemonic := "PAY.COPY", pattern := 0x100000000000#48, mask := 0xFFFFFFFFFFFF#48, legal := [] },
     { mnemonic := "DECODE", pattern := 0x110000000000#48, mask := 0xFFFFFFFFFFFF#48, legal := [] },
     { mnemonic := "ENCODE", pattern := 0x120000000000#48, mask := 0xFFFFFFFFFFFF#48, legal := [] },
     { mnemonic := "IN.REWIND", pattern := 0x130000000000#48, mask := 0xFFFFFFFFFFFF#48, legal := [] } ]

/-- The registers of the register index space in index order (30_encoding.md R65). -/
def registers : List Reg :=
  [.magic, .hsize, .version, .rsvd, .subsize, .hck, .pck, .acc, .namelen, .flags, .err, .mode]

/-- The register that an index of a row's index set names (30_encoding.md R65). -/
def registerIn (legal : List Nat) (idx : Byte) : Option Reg :=
  if idx.toNat ∈ legal then registers[idx.toNat]? else none

/-- The operand fields of a command without operands (30_encoding.md R66): `idx` and `data` zero. -/
def noOperand (i : Instr) (idx : Byte) (data : Word) : Option Instr :=
  if idx = 0#8 ∧ data = 0#32 then some i else none

/-- What the words `op idx data` of one opcode stand for: the command that `meaning` gives the fields, or, where it gives
none, a word that an idle block answers with `IllegalCommand` (60_exceptions.md R167). -/
def wordsOf (op : Byte) (meaning : Byte → Word → Option Instr) : Prop :=
  ∀ (idx : Byte) (data : Word),
    match meaning idx data with
    | some i => decode (op ++ idx ++ data) = .ok i
    | none =>
      ∀ s : State, s.seq.phase = .idle → s.ports.cmd = some (op ++ idx ++ data) →
        step s = .next (raise .illegalCommand { s with ports.cmd := none })

/-- Ports on which one more response has been given (30_encoding.md R64). -/
def Ports.answered (p : Ports) (code : Byte) (data : Word) : Ports :=
  { p with responses := p.responses ++ [{ code := code, data := data }] }

/-- The state in which a command of `s` has ended with the code `code`: idle at the given positions, the given
registers with `ERR` holding the code, and on the given ports one more response, `(code, ACC)`; nothing else differs
from `s`. -/
def State.ended (s : State) (code : Byte) (regs : Regs) (ipos opos : Nat) (ports : Ports) : State :=
  { s with regs := { regs with err := code }, seq := Seq.idleAt ipos opos, ports := ports.answered code regs.acc }

/-- The state in which a command of `s` waits in phase `p`: the given registers, positions, transfer in progress and
ports; nothing else differs from `s`. -/
def State.held (s : State) (p : Phase) (regs : Regs) (ipos opos : Nat) (got : List Byte) (units : List CodeUnit)
    (pend : List Byte) (ports : Ports) : State :=
  { s with regs := regs,
           seq := { phase := p, ipos := ipos, opos := opos, got := got, units := units, pend := pend },
           ports := ports }

/-- The host delivers further `bytes` on `IN` and leaves it open, ends it or fails it after them (20_memory.md R47). -/
def State.fill (bytes : List Byte) (ending : StreamEnd) (s : State) : State :=
  { s with ports.inData := s.ports.inData ++ bytes, ports.inEnd := ending }

/-- The host supplies further items on `NIN` and then leaves it open or fails it (10_state.md R23). -/
def State.supply (items : List NinItem) (failed : Bool) (s : State) : State :=
  { s with ports.nin := s.ports.nin ++ items, ports.ninFailed := failed }

/-- The host's acceptance on `OUT` when, behind what it accepts already, it accepts as `more` says (20_memory.md R49). -/
def Room.then (room more : Room) : Room :=
  match room, more with
  | .all, _ => .all
  | .upTo _ _, .all => .all
  | .upTo n _, .upTo m fails => .upTo (n + m) fails

/-- The host accepts `n` bytes on `OUT`. -/
def Room.takes (room : Room) (n : Nat) : Bool :=
  match room with
  | .all => true
  | .upTo m _ => n ≤ m

/-- The host's acceptance on `OUT` after `n` bytes. -/
def Room.less (room : Room) (n : Nat) : Room :=
  match room with
  | .all => .all
  | .upTo m fails => .upTo (m - n) fails

/-- The host accepts on `OUT`, behind what it accepts already, as `more` says. -/
def State.widen (more : Room) (s : State) : State := { s with ports.outRoom := s.ports.outRoom.then more }

/-- The command that runs in a phase (10_state.md R20). -/
def Phase.command (p : Phase) : Option Instr :=
  match p with
  | .idle => none
  | .prim c => some c
  | .d1 | .d2 | .d3 | .d4 | .d5 | .d6 | .d7 | .d8 => some .decode
  | .e1 | .e2 | .e3 | .e4 | .e5 | .e6 | .e7 => some .encode

/-- A high surrogate (00_scope.md R5). -/
def highSurrogate (u : CodeUnit) : Prop := 0xD800#16 ≤ u ∧ u ≤ 0xDBFF#16

/-- The place of a phase in its composite command (10_state.md R20: ascending order, never backwards). -/
def Phase.rank (p : Phase) : Nat :=
  match p with
  | .idle | .prim _ => 0
  | .d1 | .e1 => 1
  | .d2 | .e2 => 2
  | .d3 | .e3 => 3
  | .d4 | .e4 => 4
  | .d5 | .e5 => 5
  | .d6 | .e6 => 6
  | .d7 | .e7 => 7
  | .d8 => 8

/-- The phases of `ENCODE` (44_codec.md R143). -/
def Phase.ofEncode (p : Phase) : Bool :=
  match p with
  | .e1 | .e2 | .e3 | .e4 | .e5 | .e6 | .e7 => true
  | .idle | .prim _ | .d1 | .d2 | .d3 | .d4 | .d5 | .d6 | .d7 | .d8 => false

/-- `u` with bit `k` of byte `m` flipped. -/
def flipBit (u : List Byte) (m k : Nat) : List Byte := u.modify m fun b => b ^^^ (1#8 <<< k)

/-- `NIN` holds the message `us` first: its units and the end mark, then `rest` (10_state.md R23). -/
def messageFirst (us : List CodeUnit) (rest : List NinItem) : List NinItem := us.map .unit ++ .done :: rest

end Sys2Proof.Machine
end

