-- ==== Sys2Proof/Certificates/Slice0/Obligations.lean ====
section
/-! DEFINITION. The statements about the model, from the spec's numbered rules. -/

open Sys2Proof
open Sys2Proof.Machine

/-! ## Reset and the step -/

/-- R185, R187: what reset leaves. The unspecified registers take any value (`u`); `State.reset` is one of these
states; the table is valid at once, and with `ACC = 0` the first `CRC.FEED b` gives `TBL[b]`. -/
def Obligations.ResetLeavesSpecValues : Prop :=
  (∃ u : Launch, State.reset = State.launch u ∧ u.nameBuf.length = 128) ∧
  ∀ u : Launch,
    (State.launch u).regs =
      { acc := 0#32, hf := u.hf, hck := u.hck, pck := u.pck, nameLen := u.nameLen, nameBuf := u.nameBuf,
        flags := 0#1, err := 0#8, mode := 0#1 } ∧
    (State.launch u).seq.phase = .idle ∧ (State.launch u).seq.ipos = 0 ∧ (State.launch u).seq.opos = 0 ∧
    ∀ b : Byte, ∃ t, exec (.crcFeed b) (State.launch u) = .next t ∧ t.regs.acc = tblEntry b

/-- R186: a reset while a command waits (or while the block is idle with no word to take) ends it without a response; what
was written stays written; the state is that of R185, the unspecified registers any value. When a reset can land, and what
the host's side keeps, is the model's (log 5, 7, 13). -/
def Obligations.ResetDropsTheRunningCommand : Prop :=
  ∀ (s : State) (rest : List HostMove),
    s.seq.phase ≠ .idle ∨ s.ports.cmd = none →
    s.host = .reset :: rest →
    ∃ t, step s = .next t ∧
      t.regs.acc = 0#32 ∧ t.regs.flags = 0#1 ∧ t.regs.err = 0#8 ∧ t.regs.mode = 0#1 ∧
      t.regs.nameBuf.length = 128 ∧ t.seq = Seq.idleAt 0 0 ∧
      t.ports.responses = s.ports.responses ∧ t.ports.out = s.ports.out ∧ t.ports.nout = s.ports.nout ∧
      t.host = rest

/-- R25, R31: an idle block takes the word at its command port and runs the command it decodes to. -/
def Obligations.StepRunsDecodedCommand : Prop :=
  ∀ (s : State) (w : CommandWord) (i : Instr),
    s.seq.phase = .idle → s.ports.cmd = some w → decode w = .ok i → step s = exec i { s with ports.cmd := none }

/-- R167, R69, R70, R71: a word that no row of the opcode table holds raises `IllegalCommand` before any effect:
`ERR` gets 8, the response is `(8, ACC)`, and no other register, no stream and no position changes. -/
def Obligations.IllegalWordChangesOnlyErr : Prop :=
  ∀ (s : State) (w : CommandWord),
    s.seq.phase = .idle → s.ports.cmd = some w → (∀ row ∈ opcodeRows, ¬ row.holds w) →
    step s = .next (s.ended 8#8 s.regs s.seq.ipos s.seq.opos { s.ports with cmd := none })

/-- R25, U15: a block whose command still runs takes no word: its port is as before, reset apart; and a host that presents
a word to it is refused (that a refusal is the answer is U15's ruling). -/
def Obligations.BusyBlockTakesNoWord : Prop :=
  (∀ s t : State, s.seq.phase ≠ .idle → s.host.head? ≠ some .reset → step s = .next t →
    t.ports.cmd = s.ports.cmd) ∧
  (∀ (s : State) (w : CommandWord) (rest : List HostMove), s.seq.phase ≠ .idle → s.host = .issue w :: rest →
    step s = .refused .hostDuty)

/-- R31, R171: every command, in every state and with every operand, is answered with a next state: a fault and a wait are
next states too (log 6). -/
def Obligations.EveryCommandGoesOn : Prop :=
  ∀ (i : Instr) (s : State), ∃ t, exec i s = .next t

/-- R64, R18: a command that ends gives exactly one response, `code` being `ERR` (0 for a `NOP` or `REG.RD`, which
leave `ERR` alone) and `data` the register read for `REG.RD` and `ACC` for every other; a command that waits gives
none. The response word holds `code` in bits 39 to 32 and `data` in bits 31 to 0. -/
def Obligations.OneResponsePerCommand : Prop :=
  (∀ (i : Instr) (s t : State), exec i s = .next t →
    if t.seq.phase = .idle then
      t.ports.responses = s.ports.responses ++
        [match i with
         | .nop => { code := 0#8, data := t.regs.acc }
         | .regRd r => { code := 0#8, data := readReg r t.regs }
         | _ => { code := t.regs.err, data := t.regs.acc }]
    else t.ports.responses = s.ports.responses) ∧
  (∀ s t : State, s.seq.phase ≠ .idle → resume s = .next t →
    if t.seq.phase = .idle then
      t.ports.responses = s.ports.responses ++ [{ code := t.regs.err, data := t.regs.acc }]
    else t.ports.responses = s.ports.responses) ∧
  (∀ r : Response, r.word.extractLsb' 32 8 = r.code ∧ r.word.extractLsb' 0 32 = r.data)

/-- R171, R24: a command that ends with a fault hands no name to the host, whether it ends at once or after waits; and any
command hands over at most one, when it ends. -/
def Obligations.FaultGivesNoName : Prop :=
  (∀ (i : Instr) (s t : State), exec i s = .next t →
    (t.ports.nout = s.ports.nout ∨
      ∃ us, t.ports.nout = s.ports.nout ++ [us] ∧ (i = .nameUnpack ∨ i = .decode) ∧ t.seq.phase = .idle ∧
        t.regs.err = 0#8)) ∧
  (∀ s t : State, resume s = .next t →
    (t.ports.nout = s.ports.nout ∨
      ∃ us, t.ports.nout = s.ports.nout ++ [us] ∧ s.seq.phase.ofDecode = true ∧ t.seq.phase = .idle ∧
        t.regs.err = 0#8))

/-! ## Encoding -/

/-- Decoding an encoded command gives it back, for every well-formed command with every operand. -/
def Obligations.DecodeEncodeRoundTrip : Prop :=
  ∀ i : Instr, i.wf = true → decode (encode i) = .ok i

/-- Every word has one meaning: a word that decodes is the encoding of the command it decodes to, which is
well-formed. -/
def Obligations.DecodedWordIsTheEncoding : Prop :=
  ∀ (w : CommandWord) (i : Instr), decode w = .ok i → i.wf = true ∧ encode i = w

/-- R66, R63: a word decodes to a command of a row exactly when the row's mask, pattern and index set hold of it, and
every word that decodes has such a row. -/
def Obligations.DecoderTestsTheTable : Prop :=
  (∀ (w : CommandWord) (row : OpcodeRow), row ∈ opcodeRows →
    (row.holds w ↔ ∃ i, decode w = .ok i ∧ i.mnemonic = row.mnemonic)) ∧
  (∀ (w : CommandWord) (i : Instr), decode w = .ok i → ∃ row ∈ opcodeRows, row.holds w)

/-- Words written out from R77 decode to the commands they stand for; a few of the words of 95_test_vectors.md section
2.5 are illegal. -/
def Obligations.WrittenWordsDecode : Prop :=
  decode 0x0100FFFFFFFF#48 = .ok (.crcLoad 0xFFFFFFFF#32) ∧
  decode 0x020000000031#48 = .ok (.crcFeed 0x31#8) ∧
  decode 0x040700000000#48 = .ok (.regRd .acc) ∧
  decode 0x050B00000001#48 = .ok (.regWr .mode 1#32) ∧
  decode 0x060500000000#48 = .ok (.fldIn .hck) ∧
  decode 0x0E0000000000#48 = .ok .namePack ∧
  decode 0x110000000000#48 = .ok .decode ∧
  decode 0x140000000000#48 = .error .reservedOpcode ∧
  decode 0x050800000000#48 = .error .badIndex ∧
  decode 0x110000000001#48 = .error .strayBits

/-- R63, R69, R77: the twenty opcodes, each with the operands it takes; the other 236 opcodes are illegal with any
operands. -/
def Obligations.CommandEncodings : Prop :=
  wordsOf 0x00#8 (noOperand .nop) ∧
  wordsOf 0x01#8 (fun idx data => if idx = 0#8 then some (.crcLoad data) else none) ∧
  wordsOf 0x02#8 (fun idx data =>
    if idx = 0#8 ∧ data.extractLsb' 8 24 = 0#24 then some (.crcFeed (data.extractLsb' 0 8)) else none) ∧
  wordsOf 0x03#8 (noOperand .crcFeeds) ∧
  wordsOf 0x04#8 (fun idx data =>
    if data = 0#32 then (registerIn [0, 1, 2, 3, 4, 5, 6, 7, 8, 9, 10, 11] idx).map .regRd else none) ∧
  wordsOf 0x05#8 (fun idx data => (registerIn [0, 1, 2, 3, 4, 5, 6, 7, 11] idx).map fun r => .regWr r data) ∧
  wordsOf 0x06#8 (fun idx data =>
    if data = 0#32 then (registerIn [0, 1, 2, 3, 4, 5, 6] idx).map .fldIn else none) ∧
  wordsOf 0x07#8 (fun idx data =>
    if data = 0#32 then (registerIn [0, 1, 2, 3, 4, 5, 6, 7] idx).map .fldOut else none) ∧
  wordsOf 0x08#8 (noOperand .hdrDflt) ∧ wordsOf 0x09#8 (noOperand .hdrUnpack) ∧
  wordsOf 0x0A#8 (noOperand .hdrPack) ∧ wordsOf 0x0B#8 (noOperand .hdrCrc) ∧
  wordsOf 0x0C#8 (noOperand .nameIn) ∧ wordsOf 0x0D#8 (noOperand .nameOut) ∧
  wordsOf 0x0E#8 (noOperand .namePack) ∧ wordsOf 0x0F#8 (noOperand .nameUnpack) ∧
  wordsOf 0x10#8 (noOperand .payCopy) ∧ wordsOf 0x11#8 (noOperand .decode) ∧
  wordsOf 0x12#8 (noOperand .encode) ∧ wordsOf 0x13#8 (noOperand .inRewind) ∧
  ∀ op : Byte, 0x14#8 ≤ op → wordsOf op (fun _ _ => none)

/-! ## The CRC unit -/

/-- R90: `FeedSerial(a, b) = Feed(a, b)`. -/
def Obligations.FeedIsBitSerial : Prop :=
  ∀ (a : Word) (b : Byte), feed a b = shiftSteps 8 (a ^^^ b.setWidth 32)

/-- R89: the chaining law for any start value, and so for any cut of the bytes into chunks of any sizes (the bytes of
`CHUNK_MAX`-sized chunks among them). -/
def Obligations.UpdateChains : Prop :=
  (∀ (s t : List Byte) (a : Word), update t (update s a) = update (s ++ t) a) ∧
  (∀ (chunks : List (List Byte)) (a : Word), chunks.foldl (fun x c => update c x) a = update chunks.flatten a)

/-- R91: the table and `Update` are linear over exclusive or; zero bytes leave a zero accumulator zero, those of an
all-zero header among them; a trailing zero byte can change the value. -/
def Obligations.UpdateIsLinear : Prop :=
  (∀ i j : Byte, tblEntry (i ^^^ j) = tblEntry i ^^^ tblEntry j) ∧ tblEntry 0#8 = 0#32 ∧
  (∀ (s t : List Byte) (a c : Word), s.length = t.length →
    update (List.zipWith (· ^^^ ·) s t) (a ^^^ c) = update s a ^^^ update t c) ∧
  (∀ (n : Nat) (s : List Byte),
    update (List.replicate n 0#8) 0#32 = 0#32 ∧ update (List.replicate n 0#8 ++ s) 0#32 = update s 0#32) ∧
  hdrCk (List.replicate 20 0#8) = 0#32 ∧ ∃ s : List Byte, update (s ++ [0#8]) 0#32 ≠ update s 0#32

/-- R92: the checksum, from any start value, changes when any single bit of its input is flipped. -/
def Obligations.ChecksumSeesEveryFlippedBit : Prop :=
  ∀ (s : List Byte) (a : Word) (m k : Nat), m < s.length → k < 8 → update (flipBit s m k) a ≠ update s a

/-- R85, R86: the words and the results of `CRC.LOAD v` and `CRC.FEED b`; nothing else changes. -/
def Obligations.CrcLoadAndFeedResults : Prop :=
  wordsOf 0x01#8 (fun idx data => if idx = 0#8 then some (.crcLoad data) else none) ∧
  wordsOf 0x02#8 (fun idx data =>
    if idx = 0#8 ∧ data.extractLsb' 8 24 = 0#24 then some (.crcFeed (data.extractLsb' 0 8)) else none) ∧
  ∀ s : State,
    (∀ v : Word, exec (.crcLoad v) s =
      .next (s.ended 0#8 { s.regs with acc := v } s.seq.ipos s.seq.opos s.ports)) ∧
    (∀ b : Byte, exec (.crcFeed b) s =
      .next (s.ended 0#8
        { s.regs with acc := tblEntry ((s.regs.acc &&& 0xFF#32).setWidth 8 ^^^ b) ^^^ (s.regs.acc >>> 8) }
        s.seq.ipos s.seq.opos s.ports))

/-- R87: `CRC.FEEDS` feeds every byte that is left: with the end of the stream after them it ends; with a failure it
ends in `IoError` with `ACC` as fed so far; with neither it waits, without a response. Nothing else changes. That a wait
is a next state, and that a failure comes after the bytes already there, are the model's choices (log 6, 8). -/
def Obligations.CrcFeedsFeedsTheRest : Prop :=
  ∀ s : State,
    let regs := { s.regs with acc := update (unread s) s.regs.acc }
    let ipos := s.seq.ipos + (unread s).length
    match inTail s.ports with
    | .ended =>
      exec .crcFeeds s = .next (s.ended 0#8 regs ipos s.seq.opos { s.ports with inEos := true })
    | .failed => exec .crcFeeds s = .next (s.ended 7#8 regs ipos s.seq.opos s.ports)
    | .pending =>
      exec .crcFeeds s = .next (s.held (.prim .crcFeeds) regs ipos s.seq.opos [] [] [] s.ports)

/-! ## Registers, fields and the header -/

/-- R28, R65: no two registers of the index space alias: a write to one is read back from it (`MODE` keeps bit 0 only)
and leaves every other register, and the name buffer, as it was. -/
def Obligations.NoTwoRegistersAlias : Prop :=
  ∀ (r : Reg) (v : Word) (x : Regs), r.writable = true →
    readReg r (writeReg r v x) = (if r = .mode then v &&& 1#32 else v) ∧
    (∀ r' : Reg, r' ≠ r → readReg r' (writeReg r v x) = readReg r' x) ∧
    (writeReg r v x).nameBuf = x.nameBuf

/-- R100, R101: `NOP` and `REG.RD` change no register, `ERR` included, and no stream; the response is `(0, ACC)`, or the
register read, zero-extended. Their words. -/
def Obligations.NopAndRegRdChangeNothing : Prop :=
  wordsOf 0x00#8 (noOperand .nop) ∧
  wordsOf 0x04#8 (fun idx data =>
    if data = 0#32 then (registerIn [0, 1, 2, 3, 4, 5, 6, 7, 8, 9, 10, 11] idx).map .regRd else none) ∧
  ∀ s : State,
    exec .nop s = .next { s with seq := Seq.idleAt s.seq.ipos s.seq.opos,
                                 ports := s.ports.answered 0#8 s.regs.acc } ∧
    ∀ r : Reg,
      exec (.regRd r) s = .next { s with seq := Seq.idleAt s.seq.ipos s.seq.opos,
                                         ports := s.ports.answered 0#8
                                           (match r with
                                            | .magic => s.regs.hf.magic
                                            | .hsize => s.regs.hf.hsize
                                            | .version => s.regs.hf.version
                                            | .rsvd => s.regs.hf.rsvd
                                            | .subsize => s.regs.hf.subsize
                                            | .hck => s.regs.hck
                                            | .pck => s.regs.pck
                                            | .acc => s.regs.acc
                                            | .namelen => s.regs.nameLen.setWidth 32
                                            | .flags => s.regs.flags.setWidth 32
                                            | .err => s.regs.err.setWidth 32
                                            | .mode => s.regs.mode.setWidth 32) }

/-- R102: `REG.WR r, v` writes the register (`MODE.SINK` gets `v[0]`), and the response shows `ACC` after the write; a
read-only register is not written and the command raises `IllegalCommand`. Its words. -/
def Obligations.RegWrResults : Prop :=
  wordsOf 0x05#8 (fun idx data => (registerIn [0, 1, 2, 3, 4, 5, 6, 7, 11] idx).map fun r => .regWr r data) ∧
  ∀ (r : Reg) (v : Word) (s : State),
    exec (.regWr r v) s =
      .next (match r with
        | .magic => s.ended 0#8 { s.regs with hf.magic := v } s.seq.ipos s.seq.opos s.ports
        | .hsize => s.ended 0#8 { s.regs with hf.hsize := v } s.seq.ipos s.seq.opos s.ports
        | .version => s.ended 0#8 { s.regs with hf.version := v } s.seq.ipos s.seq.opos s.ports
        | .rsvd => s.ended 0#8 { s.regs with hf.rsvd := v } s.seq.ipos s.seq.opos s.ports
        | .subsize => s.ended 0#8 { s.regs with hf.subsize := v } s.seq.ipos s.seq.opos s.ports
        | .hck => s.ended 0#8 { s.regs with hck := v } s.seq.ipos s.seq.opos s.ports
        | .pck => s.ended 0#8 { s.regs with pck := v } s.seq.ipos s.seq.opos s.ports
        | .acc => s.ended 0#8 { s.regs with acc := v } s.seq.ipos s.seq.opos s.ports
        | .mode => s.ended 0#8 { s.regs with mode := v.setWidth 1 } s.seq.ipos s.seq.opos s.ports
        | .namelen | .flags | .err => s.ended 8#8 s.regs s.seq.ipos s.seq.opos s.ports)

/-- R105, R111: `HDR.DFLT` loads the five constants; `HDR.CRC` puts into `ACC` the checksum of the packed header
registers and four zero bytes, from 0. Nothing else changes. Their words. -/
def Obligations.HdrDfltAndHdrCrcResults : Prop :=
  wordsOf 0x08#8 (noOperand .hdrDflt) ∧ wordsOf 0x0B#8 (noOperand .hdrCrc) ∧
  ∀ s : State,
    exec .hdrDflt s =
      .next (s.ended 0#8
        { s.regs with hf := { magic := 0x64B354D3#32, hsize := 0x9C#32, version := 0x3E8#32, rsvd := 0#32,
                              subsize := 0x18#32 } } s.seq.ipos s.seq.opos s.ports) ∧
    exec .hdrCrc s =
      .next (s.ended 0#8
        { s.regs with acc := update (pack s.regs.hf ++ [0#8, 0#8, 0#8, 0#8]) 0#32 }
        s.seq.ipos s.seq.opos s.ports)

/-- R112, R50, R168: `IN.REWIND` sets `IPOS` to 0, forgets an earlier end of stream, and the bytes that follow are the same
sequence; a host that cannot, or that has failed `IN`, gives `IoError` and nothing moves. A host that presents other bytes,
and that a failed stream is not rewound, are the model's (log 9). -/
def Obligations.InRewindResults : Prop :=
  ∀ s : State,
    if s.ports.inEnd = .failed ∧ unread s = [] then
      exec .inRewind s = .next (s.ended 7#8 s.regs s.seq.ipos s.seq.opos s.ports)
    else
      match s.ports.inRewind with
      | .same => exec .inRewind s = .next (s.ended 0#8 s.regs 0 s.seq.opos { s.ports with inEos := false })
      | .unable => exec .inRewind s = .next (s.ended 7#8 s.regs s.seq.ipos s.seq.opos s.ports)
      | .other bytes =>
        exec .inRewind s = .next (s.ended 0#8 s.regs 0 s.seq.opos { s.ports with inEos := false, inData := bytes })

/-- R107, R67: `Pack` and `Unpack`, `le32` and `u32le` are inverse to each other; a packed header is 20 bytes, the five
fields in order; the packed constants. -/
def Obligations.PackAndUnpackAreInverse : Prop :=
  (∀ v : Word, u32le (le32 v) = v) ∧
  (∀ s : List Byte, s.length = 4 → le32 (u32le s) = s) ∧
  (∀ f : Header, unpack (pack f) = f ∧ (pack f).length = 20 ∧
    pack f = le32 f.magic ++ le32 f.hsize ++ le32 f.version ++ le32 f.rsvd ++ le32 f.subsize) ∧
  pack { magic := 0x64B354D3#32, hsize := 0x9C#32, version := 0x3E8#32, rsvd := 0#32, subsize := 0x18#32 } =
    [0xD3#8, 0x54#8, 0xB3#8, 0x64#8, 0x9C#8, 0x00#8, 0x00#8, 0x00#8, 0xE8#8, 0x03#8] ++
    [0x00#8, 0x00#8, 0x00#8, 0x00#8, 0x00#8, 0x00#8, 0x18#8, 0x00#8, 0x00#8, 0x00#8] ∧
  (∀ s : List Byte, s.length = 20 → pack (unpack s) = s)

/-- R103: `FLD.IN r`, by what `IN` has left. With four bytes the register gets them, low byte first; with fewer, and
then the end, the fault of that field, the register unwritten and `IN` at its end; a failure of `IN` gives `IoError`; a
register the command does not allow gives `IllegalCommand` with nothing read. The wait, and that a wait and a failure
come after the bytes already there, are the model's (log 6, 8). -/
def Obligations.FldInResults : Prop :=
  ∀ (r : Reg) (s : State),
    let left := unread s
    if r.fieldIn = false then
      exec (.fldIn r) s = .next (s.ended 8#8 s.regs s.seq.ipos s.seq.opos s.ports)
    else if 4 ≤ left.length then
      exec (.fldIn r) s =
        .next (s.ended 0#8 (writeReg r (byteAt left 3 ++ byteAt left 2 ++ byteAt left 1 ++ byteAt left 0) s.regs)
          (s.seq.ipos + 4) s.seq.opos s.ports)
    else
      match inTail s.ports with
      | .ended =>
        exec (.fldIn r) s =
          .next (s.ended (if r = .hck then 2#8 else if r = .pck then 4#8 else 1#8) s.regs
            (s.seq.ipos + left.length) s.seq.opos { s.ports with inEos := true })
      | .failed => exec (.fldIn r) s = .next (s.ended 7#8 s.regs (s.seq.ipos + left.length) s.seq.opos s.ports)
      | .pending =>
        exec (.fldIn r) s =
          .next (s.held (.prim (.fldIn r)) s.regs (s.seq.ipos + left.length) s.seq.opos left [] [] s.ports)

/-- R108: `HDR.UNPACK`, by what `IN` has left: with 20 bytes all five registers are written, none checked; with fewer
none of them is. The wait is the model's (log 6, 8). -/
def Obligations.HdrUnpackResults : Prop :=
  ∀ s : State,
    let left := unread s
    if 20 ≤ left.length then
      exec .hdrUnpack s =
        .next (s.ended 0#8 { s.regs with hf := unpack (left.take 20) } (s.seq.ipos + 20) s.seq.opos s.ports)
    else
      match inTail s.ports with
      | .ended =>
        exec .hdrUnpack s =
          .next (s.ended 1#8 s.regs (s.seq.ipos + left.length) s.seq.opos { s.ports with inEos := true })
      | .failed => exec .hdrUnpack s = .next (s.ended 7#8 s.regs (s.seq.ipos + left.length) s.seq.opos s.ports)
      | .pending =>
        exec .hdrUnpack s =
          .next (s.held (.prim .hdrUnpack) s.regs (s.seq.ipos + left.length) s.seq.opos left [] [] s.ports)

/-- R104, R110, R121, R49: the commands that are one `OutWrite`, by how much the host accepts: all of it, and the
command ends with every byte appended in order; or a first part, which stays written, and then `IoError` or a wait. How
the host's acceptance is written, and the wait, are the model's (log 6, 10). -/
def Obligations.WriteCommandsResults : Prop :=
  ∀ (s : State) (i : Instr) (bytes : List Byte),
    (∃ r : Reg, r.fieldOut = true ∧ i = .fldOut r ∧ bytes = le32 (readReg r s.regs)) ∨
      (i = .hdrPack ∧ bytes = pack s.regs.hf) ∨ (i = .nameOut ∧ bytes = s.regs.nameBuf) →
    match s.ports.outRoom with
    | .all =>
      exec i s = .next (s.ended 0#8 s.regs s.seq.ipos (s.seq.opos + bytes.length)
        { s.ports with out := s.ports.out ++ bytes })
    | .upTo n fails =>
      if bytes.length ≤ n then
        exec i s = .next (s.ended 0#8 s.regs s.seq.ipos (s.seq.opos + bytes.length)
          { s.ports with out := s.ports.out ++ bytes, outRoom := .upTo (n - bytes.length) fails })
      else if fails = true then
        exec i s = .next (s.ended 7#8 s.regs s.seq.ipos (s.seq.opos + n)
          { s.ports with out := s.ports.out ++ bytes.take n, outRoom := .upTo 0 true })
      else
        exec i s = .next (s.held (.prim i) s.regs s.seq.ipos (s.seq.opos + n) [] [] (bytes.drop n)
          { s.ports with out := s.ports.out ++ bytes.take n, outRoom := .upTo 0 false })

/-- R104, R70: `FLD.OUT` of a register it does not allow raises `IllegalCommand` and writes no byte. -/
def Obligations.FldOutOfOtherRegistersIsIllegal : Prop :=
  ∀ (r : Reg) (s : State), r.fieldOut = false →
    exec (.fldOut r) s = .next (s.ended 8#8 s.regs s.seq.ipos s.seq.opos s.ports)

/-! ## The display-name field -/

/-- R123 in its own words: keep at most the first 64 units; if 64 are kept and the 64th is a high surrogate, keep 63;
fill the rest with zero bytes. -/
def Obligations.NamePackKeepsTrimsAndPads : Prop :=
  ∀ us : List CodeUnit,
    let first := us.take 64
    let kept := if first.length = 64 ∧ (0xD800#16 ≤ first.getD 63 0#16 ∧ first.getD 63 0#16 ≤ 0xDBFF#16)
      then us.take 63 else first
    namePack us = (nameBytes kept ++ List.replicate (128 - 2 * kept.length) 0#8, kept.length)

/-- R127: a packed field is 128 bytes, zero after the kept units, and its last unit is never a high surrogate; a field
read from a container may be any 128 bytes. -/
def Obligations.PackedNameField : Prop :=
  ∀ us : List CodeUnit,
    (namePack us).1.length = 128 ∧ (namePack us).2 ≤ 64 ∧
    (∀ i, 2 * (namePack us).2 ≤ i → i < 128 → byteAt (namePack us).1 i = 0#8) ∧
    ¬ highSurrogate (u16le (byteAt (namePack us).1 126) (byteAt (namePack us).1 127)) ∧
    ∀ field : List Byte, field.length = 128 →
      ∃ S : List Byte, slice S 28 156 = field ∧ decodeFn S false = .name (nameUnpack field)

/-- R128: unpacking a packed name gives the name back if and only if it has at most 64 units, none NUL, and not 64 units
ending in a high surrogate; in every case it gives the longest NUL-free beginning of the kept units. -/
def Obligations.NameRoundTrip : Prop :=
  ∀ us : List CodeUnit,
    (nameUnpack (namePack us).1 = us ↔
      us.length ≤ 64 ∧ 0#16 ∉ us ∧ ¬ (us.length = 64 ∧ highSurrogate (us.getD 63 0#16))) ∧
    nameUnpack (namePack us).1 = (us.take (namePack us).2).takeWhile (· != 0#16)

/-- R120: `NAME.IN`, by what `IN` has left. On a fault `NAMEBUF` holds 128 bytes of which nothing is said (log 4). The
wait is the model's (log 6, 8). -/
def Obligations.NameInResults : Prop :=
  ∀ s : State,
    let left := unread s
    if 128 ≤ left.length then
      exec .nameIn s =
        .next (s.ended 0#8 { s.regs with nameBuf := left.take 128 } (s.seq.ipos + 128) s.seq.opos s.ports)
    else
      match inTail s.ports with
      | .ended =>
        ∃ (junk : List Byte) (n : Nat), junk.length = 128 ∧
          exec .nameIn s = .next { s.ended 5#8 { s.regs with nameBuf := junk } (s.seq.ipos + left.length)
            s.seq.opos { s.ports with inEos := true } with fresh := n }
      | .failed =>
        ∃ (junk : List Byte) (n : Nat), junk.length = 128 ∧
          exec .nameIn s = .next { s.ended 7#8 { s.regs with nameBuf := junk } (s.seq.ipos + left.length)
            s.seq.opos s.ports with fresh := n }
      | .pending =>
        exec .nameIn s =
          .next (s.held (.prim .nameIn) s.regs (s.seq.ipos + left.length) s.seq.opos left [] [] s.ports)

/-- R124: `NAME.PACK` takes one whole message and packs it; while the end mark has not come it waits; if `NIN` fails
first, `IoError`, with `NAMEBUF` and `NAMELEN` unchanged. The wait, and that a failure comes after the units already
there, are the model's (log 6, 8, 19). -/
def Obligations.NamePackResults : Prop :=
  ∀ (s : State) (us : List CodeUnit),
    (∀ rest, s.ports.nin = messageFirst us rest →
      exec .namePack s =
        .next (s.ended 0#8
          { s.regs with nameBuf := (namePack us).1, nameLen := BitVec.ofNat 7 (namePack us).2 }
          s.seq.ipos s.seq.opos { s.ports with nin := rest })) ∧
    (s.ports.nin = us.map .unit → s.ports.ninFailed = true →
      exec .namePack s = .next (s.ended 7#8 s.regs s.seq.ipos s.seq.opos { s.ports with nin := [] })) ∧
    (s.ports.nin = us.map .unit → s.ports.ninFailed = false →
      exec .namePack s =
        .next (s.held (.prim .namePack) s.regs s.seq.ipos s.seq.opos [] us [] { s.ports with nin := [] }))

/-- R126, R125: `NAME.UNPACK` hands over the units of `NAMEBUF` before the first NUL unit, or all of them, and `NAMELEN`
gets their number; `NAMEBUF` is unchanged. Its words. -/
def Obligations.NameUnpackResults : Prop :=
  wordsOf 0x0F#8 (noOperand .nameUnpack) ∧
  ∀ s : State, s.regs.nameBuf.length = 128 →
    ∃ n ≤ 64, ∃ us : List CodeUnit,
      us.length = n ∧
      (∀ i < n, us.getD i 0#16 = u16le (byteAt s.regs.nameBuf (2 * i)) (byteAt s.regs.nameBuf (2 * i + 1)) ∧
        us.getD i 0#16 ≠ 0#16) ∧
      (n < 64 → u16le (byteAt s.regs.nameBuf (2 * n)) (byteAt s.regs.nameBuf (2 * n + 1)) = 0#16) ∧
      exec .nameUnpack s =
        .next (s.ended 0#8 { s.regs with nameLen := BitVec.ofNat 7 n } s.seq.ipos s.seq.opos
          { s.ports with nout := s.ports.nout ++ [us] })

/-! ## Payload copy, DECODE and ENCODE -/

/-- R135: `PAY.COPY`. With a host that accepts every byte that is left: each goes to `OUT` in order and `ACC` is their
checksum from 0, and then the end of `IN` ends the command, its failure gives `IoError`, and neither lets it wait. With a
host that stops after `n` of them, fewer than are left: `OUT` has gained exactly those, `ACC` is their checksum, and the
command ends in `IoError` or waits. The waits, and that the byte in hand of a stopped copy counts as read, are the model's
(log 6, 8, 10, 21). -/
def Obligations.PayCopyResults : Prop :=
  ∀ s : State,
    let left := unread s
    (s.ports.outRoom.takes left.length = true →
      let regs := { s.regs with acc := update left 0#32 }
      let ports := { s.ports with out := s.ports.out ++ left, outRoom := s.ports.outRoom.less left.length }
      match inTail s.ports with
      | .ended =>
        exec .payCopy s = .next (s.ended 0#8 regs (s.seq.ipos + left.length) (s.seq.opos + left.length)
          { ports with inEos := true })
      | .failed =>
        exec .payCopy s = .next (s.ended 7#8 regs (s.seq.ipos + left.length) (s.seq.opos + left.length) ports)
      | .pending =>
        exec .payCopy s = .next (s.held (.prim .payCopy) regs (s.seq.ipos + left.length)
          (s.seq.opos + left.length) [] [] [] ports)) ∧
    (∀ (n : Nat) (fails : Bool), s.ports.outRoom = .upTo n fails → n < left.length →
      let regs := { s.regs with acc := update (left.take n) 0#32 }
      let ports := { s.ports with out := s.ports.out ++ left.take n, outRoom := .upTo 0 fails }
      if fails = true then
        exec .payCopy s = .next (s.ended 7#8 regs (s.seq.ipos + n + 1) (s.seq.opos + n) ports)
      else
        exec .payCopy s = .next (s.held (.prim .payCopy) regs (s.seq.ipos + n + 1) (s.seq.opos + n) [] []
          [byteAt left n] ports))

/-- R142, R138: on a whole input that the host neither withholds nor fails, with a host that accepts the payload where it is
asked for, `DECODE` comes to what `DecodeFn` says, and leaves the registers, the streams and the positions as the table of
R138 says for that outcome. -/
def Obligations.DecodeComputesDecodeFn : Prop :=
  ∀ s : State, inTail s.ports = .ended →
    (s.regs.mode = 1#1 → s.ports.outRoom.takes ((unread s).length - 156) = true) →
    let S := unread s
    let at_ := s.seq.ipos
    let to_ := s.seq.opos
    let r0 := { s.regs with flags := 0#1 }
    let r1 := { r0 with hf := unpack (slice S 0 20) }
    let r2 := { r1 with hck := u32le (slice S 20 24), acc := hdrCk (slice S 0 20) }
    let r3 := { r2 with pck := u32le (slice S 24 28) }
    let us := nameUnpack (slice S 28 156)
    let r4 := { r3 with nameBuf := slice S 28 156, nameLen := BitVec.ofNat 7 us.length }
    let P := S.drop 156
    let r5 := { r4 with acc := update P 0#32 }
    let eos := { s.ports with inEos := true }
    let copied := { eos with out := s.ports.out ++ P, outRoom := s.ports.outRoom.less P.length }
    match decodeFn S (s.regs.mode = 1#1) with
    | .fault .headerTruncated => exec .decode s = .next (s.ended 1#8 r0 (at_ + S.length) to_ eos)
    | .fault .checksumFieldTruncated => exec .decode s = .next (s.ended 2#8 r1 (at_ + S.length) to_ eos)
    | .fault .headerChecksumMismatch => exec .decode s = .next (s.ended 3#8 r2 (at_ + 24) to_ s.ports)
    | .fault .payloadChecksumFieldTruncated => exec .decode s = .next (s.ended 4#8 r2 (at_ + S.length) to_ eos)
    | .fault .nameFieldTruncated =>
      ∃ (junk : List Byte) (n : Nat), junk.length = 128 ∧
        exec .decode s =
          .next { s.ended 5#8 { r3 with nameBuf := junk } (at_ + S.length) to_ eos with fresh := n }
    | .fault .payloadChecksumMismatch =>
      exec .decode s = .next (s.ended 6#8 r5 (at_ + S.length) (to_ + P.length) copied)
    | .fault .ioError => False
    | .fault .illegalCommand => False
    | .name name =>
      exec .decode s = .next (s.ended 0#8 r4 (at_ + 156) to_ { s.ports with nout := s.ports.nout ++ [name] })
    | .full name payload =>
      P = payload ∧
      exec .decode s = .next (s.ended 0#8 { r5 with flags := 1#1 } (at_ + S.length) (to_ + P.length)
        { copied with nout := s.ports.nout ++ [name] })

/-- R168, R170: when the host fails `IN`, `DECODE` reports `IoError` at the point where the bytes run out, unless the
header's checksum has failed before; `VERIFIED` is 0, and it hands over no name, unless it has read all that a name-only
decode reads. That a failure comes after the bytes already there is the model's (log 8). -/
def Obligations.DecodeOnFailedInput : Prop :=
  ∀ s : State, inTail s.ports = .failed →
    (s.regs.mode = 1#1 → s.ports.outRoom.takes ((unread s).length - 156) = true) →
    let S := unread s
    ∃ t, exec .decode s = .next t ∧ t.regs.flags = 0#1 ∧ t.seq.phase = .idle ∧
      if S.length < 24 then t.regs.err = 7#8 ∧ t.ports.nout = s.ports.nout ∧ t.ports.out = s.ports.out
      else if hdrCk (slice S 0 20) ≠ u32le (slice S 20 24) then
        t.regs.err = 3#8 ∧ t.ports.nout = s.ports.nout ∧ t.ports.out = s.ports.out
      else if S.length < 156 then t.regs.err = 7#8 ∧ t.ports.nout = s.ports.nout ∧ t.ports.out = s.ports.out
      else if s.regs.mode = 1#1 then
        t.regs.err = 7#8 ∧ t.ports.nout = s.ports.nout ∧ t.ports.out = s.ports.out ++ S.drop 156
      else t.regs.err = 0#8 ∧ t.ports.nout = s.ports.nout ++ [nameUnpack (slice S 28 156)] ∧
        t.ports.out = s.ports.out

/-- R139: `DECODE` checks no header field: any 20 bytes followed by their own checksum pass; 156 zero bytes decode to the
empty name, and with verification to the empty payload. -/
def Obligations.DecodeAcceptsAnyHeader : Prop :=
  (decodeFn (List.replicate 156 0#8) false = .name [] ∧ decodeFn (List.replicate 156 0#8) true = .full [] []) ∧
  ∀ (header stored field payload : List Byte),
    header.length = 20 → stored.length = 4 → field.length = 128 →
    decodeFn (header ++ le32 (hdrCk header) ++ stored ++ field ++ payload) false = .name (nameUnpack field) ∧
    decodeFn (header ++ le32 (hdrCk header) ++ le32 (update payload 0#32) ++ field ++ payload) true =
      .full (nameUnpack field) payload

/-- R147, R145: on a payload that stands whole on `IN` from position 0, the host failing nothing and presenting it again
on the rewind, `ENCODE` appends exactly `EncodeFn`, 156 + N bytes, and leaves the registers as R145 says. -/
def Obligations.EncodeComputesEncodeFn : Prop :=
  ∀ (s : State) (us : List CodeUnit) (rest : List NinItem),
    s.ports.nin = messageFirst us rest → s.ports.inEnd = .ended → s.ports.inRewind = .same →
    s.ports.outRoom.takes (156 + s.ports.inData.length) = true → s.seq.ipos = 0 →
    let P := s.ports.inData
    exec .encode s =
      .next (s.ended 0#8
        { s.regs with
            acc := update P 0#32, pck := update P 0#32, hck := 0x9E54D683#32,
            hf := { magic := 0x64B354D3#32, hsize := 0x9C#32, version := 1000#32, rsvd := 0#32,
                    subsize := 0x18#32 },
            nameBuf := (namePack us).1, nameLen := BitVec.ofNat 7 (namePack us).2 }
        P.length (s.seq.opos + (156 + P.length))
        { s.ports with out := s.ports.out ++ encodeFn P us, outRoom := s.ports.outRoom.less (156 + P.length),
                       nin := rest, inEos := true })

/-- R146: `ENCODE` does not compare the two passes: from any position, and with other bytes on the second pass, it
writes the checksum of the first pass and the bytes of the second, and ends without a fault (log 9). -/
def Obligations.EncodeDoesNotComparePasses : Prop :=
  ∀ (s : State) (us : List CodeUnit) (rest : List NinItem) (second : List Byte),
    s.ports.nin = messageFirst us rest → s.ports.inEnd = .ended →
    (s.ports.inRewind = .other second ∨ (s.ports.inRewind = .same ∧ second = s.ports.inData)) →
    s.ports.outRoom.takes (156 + second.length) = true →
    ∃ t, exec .encode s = .next t ∧ t.seq.phase = .idle ∧ t.regs.err = 0#8 ∧
      t.ports.out = s.ports.out ++ pack Header.constants ++ le32 (hdrCk (pack Header.constants)) ++
        le32 (update (unread s) 0#32) ++ (namePack us).1 ++ second

/-- R50, R144, R145: a host that cannot rewind ends `ENCODE` in phase E6 with `IoError`: `OUT` has gained the first 156
bytes, and every register holds what the phases wrote. -/
def Obligations.EncodeNeedsTheRewind : Prop :=
  ∀ (s : State) (us : List CodeUnit) (rest : List NinItem),
    s.ports.nin = messageFirst us rest → s.ports.inEnd = .ended → s.ports.inRewind = .unable →
    s.ports.outRoom.takes 156 = true →
    let ck := update (unread s) 0#32
    exec .encode s =
      .next (s.ended 7#8
        { s.regs with
            hf := Header.constants, hck := 0x9E54D683#32, acc := ck, pck := ck,
            nameBuf := (namePack us).1, nameLen := BitVec.ofNat 7 (namePack us).2 }
        (s.seq.ipos + (unread s).length) (s.seq.opos + 156)
        { s.ports with
            out := s.ports.out ++ (pack Header.constants ++ le32 0x9E54D683#32 ++ le32 ck ++ (namePack us).1),
            outRoom := s.ports.outRoom.less 156, nin := rest, inEos := true })

/-- R145, R168: `ENCODE` with a host that fails a stream, or stops accepting. A failed `NIN` ends it in E1 with nothing
changed; a failed `IN` ends it in E4 behind the first 24 bytes; an `OUT` that stops after `n` bytes of the container, in E2
to E5 or E7, has exactly those, and the registers hold what the phases wrote up to there. Where a failure comes, the waits
and the byte in hand are the model's (log 6, 8, 10, 19, 21). -/
def Obligations.EncodeOnFailedHost : Prop :=
  ∀ (s : State) (us : List CodeUnit),
    (s.ports.nin = us.map .unit → s.ports.ninFailed = true →
      exec .encode s = .next (s.ended 7#8 s.regs s.seq.ipos s.seq.opos { s.ports with nin := [] })) ∧
    (∀ rest, s.ports.nin = messageFirst us rest → inTail s.ports = .failed → s.ports.outRoom.takes 24 = true →
      exec .encode s =
        .next (s.ended 7#8
          { s.regs with
              hf := Header.constants, hck := 0x9E54D683#32, acc := update (unread s) 0#32,
              nameBuf := (namePack us).1, nameLen := BitVec.ofNat 7 (namePack us).2 }
          (s.seq.ipos + (unread s).length) (s.seq.opos + 24)
          { s.ports with out := s.ports.out ++ (pack Header.constants ++ le32 0x9E54D683#32),
                         outRoom := s.ports.outRoom.less 24, nin := rest })) ∧
    (∀ (rest : List NinItem) (n : Nat) (fails : Bool),
      s.ports.nin = messageFirst us rest → s.ports.inEnd = .ended → s.ports.inRewind = .same →
      s.ports.outRoom = .upTo n fails → n < 156 + s.ports.inData.length →
      let ck := update (unread s) 0#32
      ∃ t, exec .encode s = .next t ∧
        t.ports.out = s.ports.out ++ (pack Header.constants ++ le32 0x9E54D683#32 ++ le32 ck ++ (namePack us).1 ++
          s.ports.inData).take n ∧
        t.ports.outRoom = .upTo 0 fails ∧ t.ports.nin = rest ∧ t.seq.opos = s.seq.opos + n ∧
        t.seq.ipos = (if n < 24 then s.seq.ipos else if n < 156 then s.seq.ipos + (unread s).length
          else n - 156 + 1) ∧
        t.regs =
          { s.regs with
              hf := Header.constants, nameBuf := (namePack us).1, nameLen := BitVec.ofNat 7 (namePack us).2,
              hck := if n < 20 then s.regs.hck else 0x9E54D683#32,
              acc := if n < 20 then s.regs.acc else if n < 24 then 0x9E54D683#32 else ck,
              pck := if n < 24 then s.regs.pck else ck,
              err := if fails = true then 7#8 else s.regs.err } ∧
        t.seq.phase = (if fails = true then .idle else if n < 20 then .e2 else if n < 24 then .e3
          else if n < 28 then .e4 else if n < 156 then .e5 else .e7))

/-- R141: `DECODE` with `SINK = 1` and an `OUT` that stops after `n` bytes of the payload, fewer than there are: `OUT` has
gained exactly those and `ACC` is their checksum; `VERIFIED` is 0 and no name is handed over; the command ends in
`IoError`, or waits in D7. The wait and the byte in hand are the model's (log 6, 10, 21). -/
def Obligations.DecodeOnFailedOutput : Prop :=
  ∀ (s : State) (n : Nat) (fails : Bool),
    let S := unread s
    let P := S.drop 156
    hdrCk (slice S 0 20) = u32le (slice S 20 24) → s.regs.mode = 1#1 →
    s.ports.outRoom = .upTo n fails → n < P.length →
    let us := nameUnpack (slice S 28 156)
    let regs :=
      { s.regs with
          flags := 0#1, hf := unpack (slice S 0 20), hck := u32le (slice S 20 24), pck := u32le (slice S 24 28),
          nameBuf := slice S 28 156, nameLen := BitVec.ofNat 7 us.length, acc := update (P.take n) 0#32 }
    let ports := { s.ports with out := s.ports.out ++ P.take n, outRoom := .upTo 0 fails }
    if fails = true then
      exec .decode s = .next (s.ended 7#8 regs (s.seq.ipos + (156 + n + 1)) (s.seq.opos + n) ports)
    else
      exec .decode s = .next (s.held .d7 regs (s.seq.ipos + (156 + n + 1)) (s.seq.opos + n) [] []
        [byteAt P n] ports)

/-- R148: decoding an encoded container with verification gives the payload back whole, and the name as far as the field
keeps it: all of it exactly when it has at most 64 units, none NUL, and not 64 units ending in a high surrogate. -/
def Obligations.ContainerRoundTrip : Prop :=
  ∀ (P : List Byte) (us : List CodeUnit),
    decodeFn (encodeFn P us) true = .full (nameUnpack (namePack us).1) P ∧
    decodeFn (encodeFn P us) false = .name (nameUnpack (namePack us).1) ∧
    (decodeFn (encodeFn P us) true = .full us P ↔
      us.length ≤ 64 ∧ 0#16 ∉ us ∧ ¬ (us.length = 64 ∧ highSurrogate (us.getD 63 0#16)))

/-- R149: any flipped bit of a good container's header or stored header checksum gives `HeaderChecksumMismatch`; any
flipped bit of its payload or stored payload checksum gives `PayloadChecksumMismatch` when verification is asked for; a
flipped bit of the name field raises nothing and leaves the payload as it was. -/
def Obligations.CorruptionIsDetected : Prop :=
  ∀ (S P : List Byte) (us : List CodeUnit) (m k : Nat), decodeFn S true = .full us P → m < S.length → k < 8 →
    if m < 24 then ∀ sink, decodeFn (flipBit S m k) sink = .fault .headerChecksumMismatch
    else if 28 ≤ m ∧ m < 156 then ∃ us', decodeFn (flipBit S m k) true = .full us' P
    else decodeFn (flipBit S m k) true = .fault .payloadChecksumMismatch

/-- R76: `DECODE` routes each input byte to the place `Sel` names for its offset; `ENCODE` draws each output byte from the
place `Sel` names. -/
def Obligations.SelNamesEveryByte : Prop :=
  (∀ (s t : State) (us : List CodeUnit) (P : List Byte) (o : Nat),
    s.ports.inEnd = .ended → s.ports.outRoom = .all → s.regs.mode = 1#1 → decodeFn (unread s) true = .full us P →
    exec .decode s = .next t → o < (unread s).length →
    destByte t.regs (t.ports.out.drop s.ports.out.length) (sel o) = byteAt (unread s) o) ∧
  (∀ (s t : State) (us : List CodeUnit) (rest : List NinItem) (o : Nat),
    s.ports.nin = messageFirst us rest → s.ports.inEnd = .ended → s.ports.inRewind = .same →
    s.ports.outRoom = .all → s.seq.ipos = 0 → exec .encode s = .next t → o < 156 + s.ports.inData.length →
    byteAt (t.ports.out.drop s.ports.out.length) o = destByte t.regs s.ports.inData (sel o))

/-- R150, R29: what `DECODE` and `ENCODE` come to does not depend on what earlier commands left in the registers, `MODE`
apart: from two states that agree on the streams, the positions and `MODE` they write the same bytes, hand over the same
names and report the same code, and without a fault they leave the same registers (`ENCODE` keeps `FLAGS`). -/
def Obligations.CallsAreIndependent : Prop :=
  ∀ s s' : State, s'.ports = s.ports → s'.seq.ipos = s.seq.ipos → s'.seq.opos = s.seq.opos →
    s'.regs.mode = s.regs.mode → s.ports.inEnd = .ended → s.ports.outRoom = .all →
    (∀ t t', exec .decode s = .next t → exec .decode s' = .next t' →
      t'.ports.out = t.ports.out ∧ t'.ports.nout = t.ports.nout ∧ t'.regs.err = t.regs.err ∧
      t'.seq = t.seq ∧ (t.regs.err = 0#8 → t'.regs = t.regs ∧ t'.ports = t.ports)) ∧
    (∀ us rest t t', s.ports.nin = messageFirst us rest → exec .encode s = .next t → exec .encode s' = .next t' →
      t'.ports = t.ports ∧ t'.seq = t.seq ∧ t'.regs = { t.regs with flags := s'.regs.flags })

/-! ## The whole machine -/

/-- R32: a command, when it starts and when it is taken up again after a wait, changes nothing outside its row of the
write column; it takes no command word and changes nothing of what the host has set of its streams, and only `NAME.PACK`
and `ENCODE` take items from `NIN`. -/
def Obligations.AccessTableFrame : Prop :=
  (∀ (i : Instr) (s t : State), exec i s = .next t →
    (∀ p : Part, p ∉ writes i → p.same s t) ∧ t.ports.cmd = s.ports.cmd ∧ t.host = s.host ∧
    t.ports.inEnd = s.ports.inEnd ∧ t.ports.inRewind = s.ports.inRewind ∧ t.ports.ninFailed = s.ports.ninFailed ∧
    (i ≠ .namePack → i ≠ .encode → t.ports.nin = s.ports.nin)) ∧
  (∀ (i : Instr) (s t : State), s.seq.phase.command = some i → resume s = .next t →
    (∀ p : Part, p ∉ writes i → p.same s t) ∧ t.ports.cmd = s.ports.cmd ∧ t.host = s.host ∧
    t.ports.inEnd = s.ports.inEnd ∧ t.ports.inRewind = s.ports.inRewind ∧ t.ports.ninFailed = s.ports.ninFailed ∧
    (i ≠ .namePack → i ≠ .encode → t.ports.nin = s.ports.nin))

/-- R22, R195: no step takes back a byte written to `OUT`, or a name, or a response, whatever the fault; only a host that
opens a new output stream begins a new one. -/
def Obligations.OutputIsNeverWithdrawn : Prop :=
  ∀ s t : State, (∀ room, s.host.head? ≠ some (.openOut room)) → step s = .next t →
    (∃ more, t.ports.out = s.ports.out ++ more) ∧ (∃ more, t.ports.nout = s.ports.nout ++ more) ∧
    (∃ more, t.ports.responses = s.ports.responses ++ more)

/-- R20: a running `DECODE` or `ENCODE` goes through its phases in ascending order, never backwards, until it ends;
reset apart. -/
def Obligations.PhasesAscend : Prop :=
  ∀ s t : State, s.host.head? ≠ some .reset → step s = .next t →
    (s.seq.phase.ofDecode = true →
      t.seq.phase = .idle ∨ (t.seq.phase.ofDecode = true ∧ s.seq.phase.rank ≤ t.seq.phase.rank)) ∧
    (s.seq.phase.ofEncode = true →
      t.seq.phase = .idle ∨ (t.seq.phase.ofEncode = true ∧ s.seq.phase.rank ≤ t.seq.phase.rank))

/-- R17: `VERIFIED` becomes 1 only where a `DECODE` ends without a fault, with the checksum of the copied payload equal to
`PCK`, and with `MODE.SINK = 1`, at once or, in a state that meets the invariant (`MODE` is not written while a `DECODE`
waits in D7), after waits; no other command writes it. -/
def Obligations.VerifiedMeansVerified : Prop :=
  (∀ s t : State, step s = .next t → s.regs.flags = 0#1 → t.regs.flags = 1#1 →
    t.seq.phase = .idle ∧ t.regs.acc = t.regs.pck ∧ t.regs.err = 0#8 ∧
    ∃ us, t.ports.nout = s.ports.nout ++ [us]) ∧
  (∀ s t : State, s.Inv → step s = .next t → s.regs.flags = 0#1 → t.regs.flags = 1#1 →
    s.regs.mode = 1#1 ∧ t.regs.mode = 1#1) ∧
  (∀ (i : Instr) (s t : State), exec i s = .next t → t.regs.flags ≠ s.regs.flags → i = .decode) ∧
  (∀ s t : State, exec .decode s = .next t → t.regs.flags = 1#1 → s.regs.mode = 1#1)

/-- R47, R49, R31: while the host neither delivers, accepts, ends nor fails (and makes no further move), the block waits
in the same state; so does an idle block with no command word. That it is a step is the model's choice (log 6). -/
def Obligations.WaitingBlockStaysPut : Prop :=
  ∀ s : State, s.host = [] →
    (s.seq.phase = .idle → s.ports.cmd = none → step s = .next s) ∧
    (s.seq.got.length < s.seq.phase.reads → unread s = [] → inTail s.ports = .pending → step s = .next s) ∧
    (s.seq.phase = .prim .crcFeeds ∨ s.seq.phase = .prim .payCopy ∨ s.seq.phase = .d7 ∨ s.seq.phase = .e4 ∨
        s.seq.phase = .e7 → s.seq.pend = [] → unread s = [] → inTail s.ports = .pending → step s = .next s) ∧
    (0 < s.seq.phase.hands → s.seq.pend ≠ [] → s.ports.outRoom = .upTo 0 false → step s = .next s) ∧
    (s.seq.phase.takesName = true → s.ports.nin = [] → s.ports.ninFailed = false → step s = .next s)

/-- R21, R47: how the host cuts `IN` into deliveries is not observable. If a command started on what has been delivered
so far waits, then, once the host has delivered further bytes `ys` and left `IN` open, ended it or failed it behind them,
taking it up again gives the very state that the command gives when it is started with `ys` delivered too. Applied again
while `IN` stays open, it speaks of any number of cuts. What waits is the model's (log 5, 6). -/
def Obligations.DeliveryCutsAreInvisible : Prop :=
  ∀ (i : Instr) (s a : State) (ys : List Byte) (ending : StreamEnd),
    inTail s.ports = .pending → s.seq.ipos ≤ s.ports.inData.length → exec i s = .next a → a.seq.phase ≠ .idle →
    resume (a.fill ys ending) = exec i (s.fill ys ending)

/-- R49, R50: nor is how the host cuts its acceptance on `OUT`, or the items of a name on `NIN`. If a command waits, then,
once the host accepts further bytes (and then accepts all, or lets the block wait again, or fails the stream), or has
supplied further items (and left `NIN` open or failed it), taking it up again gives the very state that the command gives
when it is started with that room, or those items, from the first. What waits is the model's (log 5, 6, 10). -/
def Obligations.OutAndNameCutsAreInvisible : Prop :=
  (∀ (i : Instr) (s a : State) (n : Nat) (more : Room),
    s.ports.outRoom = .upTo n false → exec i s = .next a → a.seq.phase ≠ .idle →
    resume (a.widen more) = exec i (s.widen more)) ∧
  (∀ (i : Instr) (s a : State) (items : List NinItem) (failed : Bool),
    s.ports.ninFailed = false → exec i s = .next a → a.seq.phase ≠ .idle →
    resume (a.supply items failed) = exec i (s.supply items failed))

/-- R47, R21, R169: a failure of `IN` is met at the next access: a read gives `ioerr`, unless end of stream has been returned
since the stream was opened or rewound, and then it is returned again. Two things are the model's: that a failure takes
back what was not yet read (log 8), and that a rewind counts as an access, so that a rewind of the failed stream raises
`IoError` in both cases (log 9). -/
def Obligations.FailureOfInIsMetAtTheNextAccess : Prop :=
  ∀ s t : State, hostMove .failIn s = .next t →
    inByte t = (if s.ports.inEos = true then .eos else .ioerr) ∧
    exec .inRewind t = .next (t.ended 7#8 t.regs t.seq.ipos t.seq.opos t.ports)

/-- The state after reset meets the invariant. -/
def Obligations.ResetMeetsInvariant : Prop := State.reset.Inv

/-- Every step keeps the invariant: `NAMEBUF` is 128 bytes, no code is above 8, `IPOS` lies in the stream, a command rests
only where it can wait, with the command port empty and its transfer in progress no longer than its phase allows; end of
stream has been returned only where the stream has ended; a running `DECODE` has `VERIFIED = 0`, and in D7 `SINK = 1`; and
no name handed over is longer than 64 units or holds NUL. -/
def Obligations.StepKeepsInvariant : Prop :=
  ∀ s t : State, s.Inv → step s = .next t → t.Inv

/-- From a sound state no step stops with the model's fault; only a host outside its duties makes a step refuse. -/
def Obligations.SoundStatesNeverFault : Prop :=
  ∀ s : State, s.Inv →
    (∃ t, step s = .next t) ∨ (step s = .refused .hostDuty ∧ s.host ≠ [])

/-- R75: the expansions of the pseudo-commands do what they stand for: `CRC.UPDATE` continues the checksum over its
bytes, `CRC.CLR` clears `ACC`, `CRC.READ` reads it, `CRC.EMIT` appends it as a little-endian field, `SINK.ON` and
`SINK.OFF` set and clear `MODE.SINK`. -/
def Obligations.PseudoCommandsExpand : Prop :=
  ∀ s : State,
    (∀ (b : Byte) (rest : List Byte), ∃ t, execAll (Pseudo.crcUpdate b rest).expand s = .next t ∧
      t.regs = { s.regs with acc := update (b :: rest) s.regs.acc, err := 0#8 } ∧
      t.ports.responses.length = s.ports.responses.length + (rest.length + 1)) ∧
    execAll Pseudo.crcClr.expand s = exec (.crcLoad 0#32) s ∧
    execAll Pseudo.crcRead.expand s = exec (.regRd .acc) s ∧
    execAll Pseudo.crcEmit.expand s = exec (.fldOut .acc) s ∧
    execAll Pseudo.sinkOn.expand s = exec (.regWr .mode 1#32) s ∧
    execAll Pseudo.sinkOff.expand s = exec (.regWr .mode 0#32) s
end

