-- ==== Sys2Proof/Laws/State.lean ====
section
/-! SUPPORT. What each shared update does to each part of State, so that no later proof unfolds one. -/
namespace Sys2Proof.Machine

@[simp] theorem idleAt_phase (i o : Nat) : (Seq.idleAt i o).phase = .idle := rfl
@[simp] theorem idleAt_ipos (i o : Nat) : (Seq.idleAt i o).ipos = i := rfl
@[simp] theorem idleAt_opos (i o : Nat) : (Seq.idleAt i o).opos = o := rfl
@[simp] theorem idleAt_got (i o : Nat) : (Seq.idleAt i o).got = [] := rfl
@[simp] theorem idleAt_units (i o : Nat) : (Seq.idleAt i o).units = [] := rfl
@[simp] theorem idleAt_pend (i o : Nat) : (Seq.idleAt i o).pend = [] := rfl

@[simp] theorem begin_regs (p : Phase) (s : State) : (begin p s).regs = s.regs := rfl
@[simp] theorem begin_seq (p : Phase) (s : State) :
    (begin p s).seq = { s.seq with phase := p, got := [], units := [], pend := [] } := rfl
@[simp] theorem begin_ports (p : Phase) (s : State) : (begin p s).ports = s.ports := rfl
@[simp] theorem begin_host (p : Phase) (s : State) : (begin p s).host = s.host := rfl
@[simp] theorem begin_fresh (p : Phase) (s : State) : (begin p s).fresh = s.fresh := rfl

@[simp] theorem respond_regs (code : Byte) (data : Word) (s : State) : (respond code data s).regs = s.regs := rfl
@[simp] theorem respond_seq (code : Byte) (data : Word) (s : State) :
    (respond code data s).seq = Seq.idleAt s.seq.ipos s.seq.opos := rfl
@[simp] theorem respond_ports (code : Byte) (data : Word) (s : State) :
    (respond code data s).ports = { s.ports with responses := s.ports.responses ++ [{ code := code, data := data }] } := rfl
@[simp] theorem respond_host (code : Byte) (data : Word) (s : State) : (respond code data s).host = s.host := rfl
@[simp] theorem respond_fresh (code : Byte) (data : Word) (s : State) : (respond code data s).fresh = s.fresh := rfl

@[simp] theorem finish_regs (s : State) : (finish s).regs = { s.regs with err := 0#8 } := rfl
@[simp] theorem finish_seq (s : State) : (finish s).seq = Seq.idleAt s.seq.ipos s.seq.opos := rfl
@[simp] theorem finish_ports (s : State) :
    (finish s).ports = { s.ports with responses := s.ports.responses ++ [{ code := 0#8, data := s.regs.acc }] } := rfl
@[simp] theorem finish_host (s : State) : (finish s).host = s.host := rfl
@[simp] theorem finish_fresh (s : State) : (finish s).fresh = s.fresh := rfl

@[simp] theorem finishQuiet_regs (data : Word) (s : State) : (finishQuiet data s).regs = s.regs := rfl
@[simp] theorem finishQuiet_seq (data : Word) (s : State) :
    (finishQuiet data s).seq = Seq.idleAt s.seq.ipos s.seq.opos := rfl
@[simp] theorem finishQuiet_ports (data : Word) (s : State) :
    (finishQuiet data s).ports = { s.ports with responses := s.ports.responses ++ [{ code := 0#8, data := data }] } := rfl
@[simp] theorem finishQuiet_host (data : Word) (s : State) : (finishQuiet data s).host = s.host := rfl
@[simp] theorem finishQuiet_fresh (data : Word) (s : State) : (finishQuiet data s).fresh = s.fresh := rfl

@[simp] theorem raise_regs (c : Cause) (s : State) : (raise c s).regs = { s.regs with err := c.code } := rfl
@[simp] theorem raise_seq (c : Cause) (s : State) : (raise c s).seq = Seq.idleAt s.seq.ipos s.seq.opos := rfl
@[simp] theorem raise_ports (c : Cause) (s : State) :
    (raise c s).ports = { s.ports with responses := s.ports.responses ++ [{ code := c.code, data := s.regs.acc }] } := rfl
@[simp] theorem raise_host (c : Cause) (s : State) : (raise c s).host = s.host := rfl
@[simp] theorem raise_fresh (c : Cause) (s : State) : (raise c s).fresh = s.fresh := rfl

@[simp] theorem consume_regs (s : State) : (consume s).regs = s.regs := rfl
@[simp] theorem consume_seq (s : State) : (consume s).seq = { s.seq with ipos := s.seq.ipos + 1 } := rfl
@[simp] theorem consume_ports (s : State) : (consume s).ports = s.ports := rfl
@[simp] theorem consume_host (s : State) : (consume s).host = s.host := rfl
@[simp] theorem consume_fresh (s : State) : (consume s).fresh = s.fresh := rfl

@[simp] theorem accept_regs (n : Nat) (room : Room) (s : State) : (accept n room s).regs = s.regs := rfl
@[simp] theorem accept_seq (n : Nat) (room : Room) (s : State) :
    (accept n room s).seq = { s.seq with opos := s.seq.opos + (s.seq.pend.take n).length, pend := s.seq.pend.drop n } := rfl
@[simp] theorem accept_ports (n : Nat) (room : Room) (s : State) :
    (accept n room s).ports = { s.ports with out := s.ports.out ++ s.seq.pend.take n, outRoom := room } := rfl
@[simp] theorem accept_host (n : Nat) (room : Room) (s : State) : (accept n room s).host = s.host := rfl
@[simp] theorem accept_fresh (n : Nat) (room : Room) (s : State) : (accept n room s).fresh = s.fresh := rfl

@[simp] theorem endSeen_regs (s : State) : (endSeen s).regs = s.regs := rfl
@[simp] theorem endSeen_seq (s : State) : (endSeen s).seq = s.seq := rfl
@[simp] theorem endSeen_ports (s : State) : (endSeen s).ports = { s.ports with inEos := true } := rfl
@[simp] theorem endSeen_host (s : State) : (endSeen s).host = s.host := rfl
@[simp] theorem endSeen_fresh (s : State) : (endSeen s).fresh = s.fresh := rfl

@[simp] theorem noutMsg_regs (us : List CodeUnit) (s : State) : (noutMsg us s).regs = s.regs := rfl
@[simp] theorem noutMsg_seq (us : List CodeUnit) (s : State) : (noutMsg us s).seq = s.seq := rfl
@[simp] theorem noutMsg_ports (us : List CodeUnit) (s : State) :
    (noutMsg us s).ports = { s.ports with nout := s.ports.nout ++ [us] } := rfl
@[simp] theorem noutMsg_host (us : List CodeUnit) (s : State) : (noutMsg us s).host = s.host := rfl
@[simp] theorem noutMsg_fresh (us : List CodeUnit) (s : State) : (noutMsg us s).fresh = s.fresh := rfl

@[simp] theorem scrambleName_regs (s : State) :
    (scrambleName s).regs = { s.regs with nameBuf := freeBytes s.fresh } := rfl
@[simp] theorem scrambleName_seq (s : State) : (scrambleName s).seq = s.seq := rfl
@[simp] theorem scrambleName_ports (s : State) : (scrambleName s).ports = s.ports := rfl
@[simp] theorem scrambleName_host (s : State) : (scrambleName s).host = s.host := rfl
@[simp] theorem scrambleName_fresh (s : State) : (scrambleName s).fresh = s.fresh + Config.nameLen := rfl

@[simp] theorem clearVerified_regs (s : State) : (clearVerified s).regs = { s.regs with flags := 0#1 } := rfl
@[simp] theorem clearVerified_seq (s : State) : (clearVerified s).seq = s.seq := rfl
@[simp] theorem clearVerified_ports (s : State) : (clearVerified s).ports = s.ports := rfl
@[simp] theorem clearVerified_host (s : State) : (clearVerified s).host = s.host := rfl
@[simp] theorem clearVerified_fresh (s : State) : (clearVerified s).fresh = s.fresh := rfl

@[simp] theorem setVerified_regs (s : State) : (setVerified s).regs = { s.regs with flags := 1#1 } := rfl
@[simp] theorem setVerified_seq (s : State) : (setVerified s).seq = s.seq := rfl
@[simp] theorem setVerified_ports (s : State) : (setVerified s).ports = s.ports := rfl
@[simp] theorem setVerified_host (s : State) : (setVerified s).host = s.host := rfl
@[simp] theorem setVerified_fresh (s : State) : (setVerified s).fresh = s.fresh := rfl

@[simp] theorem feedAcc_regs (b : Byte) (s : State) :
    (feedAcc b s).regs = { s.regs with acc := feed s.regs.acc b } := rfl
@[simp] theorem feedAcc_seq (b : Byte) (s : State) : (feedAcc b s).seq = s.seq := rfl
@[simp] theorem feedAcc_ports (b : Byte) (s : State) : (feedAcc b s).ports = s.ports := rfl
@[simp] theorem feedAcc_host (b : Byte) (s : State) : (feedAcc b s).host = s.host := rfl
@[simp] theorem feedAcc_fresh (b : Byte) (s : State) : (feedAcc b s).fresh = s.fresh := rfl

@[simp] theorem setNameLen_regs (n : Nat) (s : State) :
    (setNameLen n s).regs = { s.regs with nameLen := BitVec.ofNat 7 n } := rfl
@[simp] theorem setNameLen_seq (n : Nat) (s : State) : (setNameLen n s).seq = s.seq := rfl
@[simp] theorem setNameLen_ports (n : Nat) (s : State) : (setNameLen n s).ports = s.ports := rfl
@[simp] theorem setNameLen_host (n : Nat) (s : State) : (setNameLen n s).host = s.host := rfl
@[simp] theorem setNameLen_fresh (n : Nat) (s : State) : (setNameLen n s).fresh = s.fresh := rfl

@[simp] theorem storeName_regs (us : List CodeUnit) (s : State) :
    (storeName us s).regs = { s.regs with nameBuf := (namePack us).1, nameLen := BitVec.ofNat 7 (namePack us).2 } := rfl
@[simp] theorem storeName_seq (us : List CodeUnit) (s : State) : (storeName us s).seq = s.seq := rfl
@[simp] theorem storeName_ports (us : List CodeUnit) (s : State) : (storeName us s).ports = s.ports := rfl
@[simp] theorem storeName_host (us : List CodeUnit) (s : State) : (storeName us s).host = s.host := rfl
@[simp] theorem storeName_fresh (us : List CodeUnit) (s : State) : (storeName us s).fresh = s.fresh := rfl

@[simp] theorem presentWord_regs (w : CommandWord) (s : State) : (presentWord w s).regs = s.regs := rfl
@[simp] theorem presentWord_seq (w : CommandWord) (s : State) :
    (presentWord w s).seq = Seq.idleAt s.seq.ipos s.seq.opos := rfl
@[simp] theorem presentWord_ports (w : CommandWord) (s : State) :
    (presentWord w s).ports = { s.ports with cmd := some w } := rfl
@[simp] theorem presentWord_host (w : CommandWord) (s : State) : (presentWord w s).host = s.host := rfl
@[simp] theorem presentWord_fresh (w : CommandWord) (s : State) : (presentWord w s).fresh = s.fresh := rfl

@[simp] theorem applyReset_regs (s : State) : (applyReset s).regs = (freeLaunch s.fresh).regs := rfl
@[simp] theorem applyReset_seq (s : State) : (applyReset s).seq = Seq.idleAt 0 0 := rfl
@[simp] theorem applyReset_ports (s : State) :
    (applyReset s).ports = { Ports.closed with responses := s.ports.responses, out := s.ports.out, nout := s.ports.nout } := rfl
@[simp] theorem applyReset_host (s : State) : (applyReset s).host = s.host := rfl
@[simp] theorem applyReset_fresh (s : State) : (applyReset s).fresh = s.fresh + Config.nameLen := rfl

end Sys2Proof.Machine
end

