-- ==== Sys2Proof/Laws/Ops.lean ====
section
/-! SUPPORT. What each stream primitive and loop does, said once: the big-step forms of 20_memory.md R48 and 41_crc.md
R87, and the pseudocode equations of the loops. -/
namespace Sys2Proof.Machine

@[simp] theorem andThen_go {α : Type} (a : α) (s : State) (k : α → State → State) :
    (Flow.go a s).andThen k = k a s := rfl
@[simp] theorem andThen_wait {α : Type} (s : State) (k : α → State → State) :
    (Flow.wait s).andThen k = s := rfl
@[simp] theorem andThen_fail {α : Type} (c : Cause) (s : State) (k : α → State → State) :
    (Flow.fail c s).andThen k = raise c s := rfl

/-- The state after `n` delivered bytes have been consumed. -/
abbrev advanced (n : Nat) (got : List Byte) (s : State) : State :=
  { s with seq.ipos := s.seq.ipos + n, seq.got := got }

/-- `ReadExact` with enough bytes delivered: it goes on with exactly the bytes wanted (20_memory.md R48). -/
theorem collect_enough (c : Cause) (n : Nat) (s : State) (h : n ≤ (unread s).length) :
    collect c n s = .go (s.seq.got ++ (unread s).take n) (advanced n [] s) := by
  induction n generalizing s with
  | zero => simp [collect]
  | succ n ih =>
    cases hu : unread s with
    | nil => simp [hu] at h
    | cons b rest =>
      have hrest : unread { consume s with seq.got := s.seq.got ++ [b] } = rest := by
        have := congrArg List.tail hu
        simpa [unread, List.tail_drop] using this
      have hb : inByte s = .byte b := by simp [inByte, hu]
      simp only [collect, hb]
      rw [ih _ (by rw [hrest]; simpa [hu] using h), hrest]
      simp [advanced, Nat.add_assoc, Nat.add_comm 1 n]

/-- `ReadExact` with too few bytes delivered: it has consumed them all, and then the stream's end decides
(20_memory.md R48). -/
theorem collect_short (c : Cause) (n : Nat) (s : State) (h : (unread s).length < n) :
    collect c n s =
      match inTail s.ports with
      | .pending => .wait (advanced (unread s).length (s.seq.got ++ unread s) s)
      | .ended => .fail c (endSeen (advanced (unread s).length (s.seq.got ++ unread s) s))
      | .failed => .fail .ioError (advanced (unread s).length (s.seq.got ++ unread s) s) := by
  induction n generalizing s with
  | zero => omega
  | succ n ih =>
    cases hu : unread s with
    | nil => cases he : inTail s.ports <;> simp [collect, inByte, hu, he, advanced, endSeen]
    | cons b rest =>
      have hrest : unread { consume s with seq.got := s.seq.got ++ [b] } = rest := by
        have := congrArg List.tail hu
        simpa [unread, List.tail_drop] using this
      have hb : inByte s = .byte b := by simp [inByte, hu]
      simp only [collect, hb]
      rw [ih _ (by rw [hrest]; rw [hu] at h; simpa using h), hrest]
      cases he : inTail s.ports <;> simp [he, advanced, endSeen, Nat.add_assoc, Nat.add_comm 1 rest.length]

/-- The loop of `CRC.FEEDS` in one step (41_crc.md R87, big-step form): every delivered byte is fed and consumed, and
then the stream's end decides. -/
theorem feedAll_eq (bytes : List Byte) (s : State) :
    feedAll bytes s =
      atEnd { s with seq.ipos := s.seq.ipos + bytes.length, regs.acc := update bytes s.regs.acc } := by
  induction bytes generalizing s with
  | nil => simp [feedAll, update]
  | cons b rest ih => simp [feedAll, ih, update, feedAcc, consume, Nat.add_assoc, Nat.add_comm 1 rest.length]

/-- `OutWrite` to a host that accepts everything (20_memory.md R49). -/
theorem flush_all (s : State) (h : s.ports.outRoom = .all) :
    flush s = .go () { s with ports.out := s.ports.out ++ s.seq.pend,
                              seq.opos := s.seq.opos + s.seq.pend.length, seq.pend := [] } := by
  simp only [flush, h]
  congr 1
  simp [accept, ← h]

/-- A copy to a host that accepts everything (44_codec.md R135, big-step form): every delivered byte goes to `OUT`,
and to the CRC unit if the copy is checksummed. -/
theorem copyAll_all (sum : Bool) (bytes : List Byte) (s : State) (h : s.ports.outRoom = .all)
    (hp : s.seq.pend = []) :
    copyAll sum bytes s =
      atEnd { s with seq.ipos := s.seq.ipos + bytes.length, seq.opos := s.seq.opos + bytes.length,
                     ports.out := s.ports.out ++ bytes,
                     regs.acc := if sum then update bytes s.regs.acc else s.regs.acc } := by
  induction bytes generalizing s with
  | nil => cases sum <;> simp [copyAll, update]
  | cons b rest ih =>
    obtain ⟨regs, ⟨phase, ipos, opos, got, units, pend⟩, ports, host, fresh⟩ := s
    subst hp
    have hroom : ports.outRoom = .all := h
    simp only [copyAll, copyInHand, consume, flush, hroom]
    rw [ih _ (by cases sum <;> simp [feedAcc, accept]) (by cases sum <;> simp [feedAcc, accept])]
    cases sum <;> simp [accept, feedAcc, update, ← hroom, Nat.add_assoc, Nat.add_comm 1 rest.length]

/-- A name message taken from `NIN` (20_memory.md R50): the units up to the end mark. -/
theorem takeUnits_message (us : List CodeUnit) (rest : List NinItem) (s : State) :
    takeUnits (us.map .unit ++ .done :: rest) s =
      .go (s.seq.units ++ us) { s with ports.nin := rest, seq.units := [] } := by
  induction us generalizing s with
  | nil => simp [takeUnits]
  | cons u us ih => simp [takeUnits, ih]

/-- A message whose end mark has not come: its units are held, and the block waits, or `NIN` has failed. -/
theorem takeUnits_open (us : List CodeUnit) (s : State) (hn : s.ports.nin = us.map .unit) :
    takeUnits (us.map .unit) s =
      if s.ports.ninFailed then .fail .ioError { s with ports.nin := [], seq.units := s.seq.units ++ us }
      else .wait { s with ports.nin := [], seq.units := s.seq.units ++ us } := by
  induction us generalizing s with
  | nil =>
    obtain ⟨regs, seq, ⟨cmd, responses, inData, inEnd, inEos, inRewind, out, outRoom, nin, ninFailed, nout⟩, host, fresh⟩ := s
    subst hn
    simp [takeUnits]
  | cons u us ih =>
    simp only [List.map_cons, takeUnits]
    rw [ih _ rfl]
    simp

/-- The pseudocode of the feed loop (41_crc.md R87): a byte is fed and the loop goes on; otherwise the stream's end
decides. -/
theorem feedAll_loop (s : State) :
    feedAll (unread s) s =
      match inByte s with
      | .byte b => feedAll (unread (consume s)) (feedAcc b (consume s))
      | .eos => .go () (endSeen s)
      | .ioerr => .fail .ioError s
      | .wait => .wait s := by
  cases hu : unread s with
  | nil => cases he : inTail s.ports <;> simp [feedAll, atEnd, inByte, hu, he]
  | cons b rest =>
    have hrest : unread (consume s) = rest := by
      have := congrArg List.tail hu
      simpa [unread, List.tail_drop] using this
    simp [feedAll, inByte, hu, hrest]

end Sys2Proof.Machine
end

