-- ==== Sys2Proof/Laws/PerInstr.lean ====
section
/-! SUPPORT. Statements made of every instruction as syntax: one family, one lemma per constructor. -/
namespace Sys2Proof.Laws

/-- The command word of an instruction carries the instruction's opcode, index and data in its three fields
(30_encoding.md R62, R77). -/
def EncodedFields.Statement (i : Instr) : Prop :=
  opField (encode i) = i.opcode ∧ idxField (encode i) = i.idx ∧ dataField (encode i) = i.data

/-- The three fields of an assembled word are the three that were put together. -/
theorem assemble_fields (op idx : Byte) (data : Word) :
    opField (assemble op idx data) = op ∧ idxField (assemble op idx data) = idx ∧
      dataField (assemble op idx data) = data := by
  refine ⟨?_, ?_, ?_⟩ <;>
  · apply BitVec.eq_of_getLsbD_eq
    intro j hj
    simp only [opField, idxField, dataField, assemble, BitVec.getLsbD_extractLsb', BitVec.getLsbD_append]
    simp only [hj, decide_true, Bool.true_and]
    repeat' split
    all_goals first | omega | (congr 1; omega)

theorem EncodedFields.nop : EncodedFields.Statement .nop := assemble_fields _ _ _
theorem EncodedFields.crcLoad (v : Word) : EncodedFields.Statement (.crcLoad v) := assemble_fields _ _ _
theorem EncodedFields.crcFeed (b : Byte) : EncodedFields.Statement (.crcFeed b) := assemble_fields _ _ _
theorem EncodedFields.crcFeeds : EncodedFields.Statement .crcFeeds := assemble_fields _ _ _
theorem EncodedFields.regRd (r : Reg) : EncodedFields.Statement (.regRd r) := assemble_fields _ _ _
theorem EncodedFields.regWr (r : Reg) (v : Word) : EncodedFields.Statement (.regWr r v) := assemble_fields _ _ _
theorem EncodedFields.fldIn (r : Reg) : EncodedFields.Statement (.fldIn r) := assemble_fields _ _ _
theorem EncodedFields.fldOut (r : Reg) : EncodedFields.Statement (.fldOut r) := assemble_fields _ _ _
theorem EncodedFields.hdrDflt : EncodedFields.Statement .hdrDflt := assemble_fields _ _ _
theorem EncodedFields.hdrUnpack : EncodedFields.Statement .hdrUnpack := assemble_fields _ _ _
theorem EncodedFields.hdrPack : EncodedFields.Statement .hdrPack := assemble_fields _ _ _
theorem EncodedFields.hdrCrc : EncodedFields.Statement .hdrCrc := assemble_fields _ _ _
theorem EncodedFields.nameIn : EncodedFields.Statement .nameIn := assemble_fields _ _ _
theorem EncodedFields.nameOut : EncodedFields.Statement .nameOut := assemble_fields _ _ _
theorem EncodedFields.namePack : EncodedFields.Statement .namePack := assemble_fields _ _ _
theorem EncodedFields.nameUnpack : EncodedFields.Statement .nameUnpack := assemble_fields _ _ _
theorem EncodedFields.payCopy : EncodedFields.Statement .payCopy := assemble_fields _ _ _
theorem EncodedFields.decode : EncodedFields.Statement .decode := assemble_fields _ _ _
theorem EncodedFields.encode : EncodedFields.Statement .encode := assemble_fields _ _ _
theorem EncodedFields.inRewind : EncodedFields.Statement .inRewind := assemble_fields _ _ _

end Sys2Proof.Laws
end

