-- ==== Sys2Proof/Tests/Slice0.lean ====
section
/-! SUPPORT. Tests of the model on values the spec gives (95_test_vectors.md, or worked by hand from the rule named), and
for every obligation with hypotheses a witness that meets them, clause by clause. -/
namespace Sys2Proof.Tests

open Sys2Proof.Machine

set_option Elab.async false

/-! ## Small states -/

/-- A machine after reset whose host has put `bytes` on `IN`, then `ending`, and accepts everything on `OUT`. -/
def given (bytes : List Byte) (ending : StreamEnd) : State :=
  { State.reset with
    ports := { Ports.closed with inData := bytes, inEnd := ending, outRoom := .all } }

/-- The same with `MODE.SINK = 1`. -/
def sinking (bytes : List Byte) (ending : StreamEnd) : State :=
  { given bytes ending with regs := { Launch.named.regs with mode := 1#1 } }

/-- The same with a name message on `NIN` and a given answer to a rewind. -/
def naming (us : List CodeUnit) (rewind : Rewind) (bytes : List Byte) : State :=
  { given bytes .ended with
    ports := { Ports.closed with inData := bytes, inEnd := .ended, outRoom := .all, inRewind := rewind,
                                 nin := messageFirst us [] } }

/-- The next state of an outcome; `s` where it has none. -/
def nextOr (s : State) (o : Host.Outcome State Fault Refusal) : State :=
  match o with
  | .next t => t
  | .fault _ => s
  | .refused _ => s

/-- The outcome has a next state. -/
def goesOn (o : Host.Outcome State Fault Refusal) : Bool :=
  match o with
  | .next _ => true
  | .fault _ => false
  | .refused _ => false

/-- Why the outcome is a refusal, if it is. -/
def refusal (o : Host.Outcome State Fault Refusal) : Option Refusal :=
  match o with
  | .next _ => none
  | .fault _ => none
  | .refused r => some r

theorem next_of_goesOn {o : Host.Outcome State Fault Refusal} {s : State} (h : goesOn o = true) :
    o = .next (nextOr s o) := by
  cases o <;> simp_all [goesOn, nextOr]

theorem refused_of_refusal {o : Host.Outcome State Fault Refusal} {r : Refusal} (h : refusal o = some r) :
    o = .refused r := by
  cases o <;> simp_all [refusal]

/-- The next state of a command. -/
def after (i : Instr) (s : State) : State := nextOr s (exec i s)

/-- The next state of a waiting command that is taken up again. -/
def again (s : State) : State := nextOr s (resume s)

/-- The next state of a step. -/
def stepped (s : State) : State := nextOr s (step s)

/-- The last response word. -/
def lastWord (s : State) : Option ResponseWord := s.ports.responses.getLast?.map Response.word

/-- The five payload bytes of program P2. -/
def five : List Byte := [0x01#8, 0x02#8, 0x03#8, 0x04#8, 0x05#8]

/-- The first 24 bytes of every container (44_codec.md R145). -/
def constant24 : List Byte :=
  [0xD3#8, 0x54#8, 0xB3#8, 0x64#8, 0x9C#8, 0x00#8, 0x00#8, 0x00#8, 0xE8#8, 0x03#8, 0x00#8, 0x00#8] ++
  [0x00#8, 0x00#8, 0x00#8, 0x00#8, 0x18#8, 0x00#8, 0x00#8, 0x00#8, 0x83#8, 0xD6#8, 0x54#8, 0x9E#8]

/-- The container of program P2. -/
def container : List Byte :=
  constant24 ++ [0xE9#8, 0x6E#8, 0x29#8, 0x81#8] ++ [0x48#8, 0x00#8, 0x69#8, 0x00#8] ++
    List.replicate 124 0x00#8 ++ five

/-- The name of program P2. -/
def hi : List CodeUnit := [0x0048#16, 0x0069#16]

/-- The unit `A` of 95_test_vectors.md section 2.4, `n` times. -/
def letters (n : Nat) : List CodeUnit := List.replicate n 0x0041#16

/-! ## Well-formedness: each index set refuses what 30_encoding.md R65 refuses -/

theorem test_wf_regWr_refuses :
    (Instr.regWr .namelen 0#32).wf = false ∧ (Instr.regWr .flags 1#32).wf = false ∧
      (Instr.regWr .err 0#32).wf = false ∧ (Instr.regWr .mode 1#32).wf = true := by decide

theorem test_wf_fldIn_refuses :
    (Instr.fldIn .acc).wf = false ∧ (Instr.fldIn .namelen).wf = false ∧ (Instr.fldIn .mode).wf = false ∧
      (Instr.fldIn .pck).wf = true := by decide

theorem test_wf_fldOut_refuses :
    (Instr.fldOut .namelen).wf = false ∧ (Instr.fldOut .flags).wf = false ∧ (Instr.fldOut .mode).wf = false ∧
      (Instr.fldOut .acc).wf = true := by decide

/-! ## Decoding: words written out from the lines of 30_encoding.md R77 -/

theorem test_decode_nop : decode 0x000000000000#48 = .ok .nop := rfl
theorem test_decode_crcLoad : decode 0x0100CAFEF00D#48 = .ok (.crcLoad 0xCAFEF00D#32) := rfl
theorem test_decode_crcFeed : decode 0x0200000000FF#48 = .ok (.crcFeed 0xFF#8) := rfl
theorem test_decode_crcFeeds : decode 0x030000000000#48 = .ok .crcFeeds := rfl
theorem test_decode_regRd :
    decode 0x040800000000#48 = .ok (.regRd .namelen) ∧ decode 0x040900000000#48 = .ok (.regRd .flags) ∧
      decode 0x040A00000000#48 = .ok (.regRd .err) ∧ decode 0x040B00000000#48 = .ok (.regRd .mode) := by and_intros <;> rfl
theorem test_decode_regWr :
    decode 0x0503DEADBEEF#48 = .ok (.regWr .rsvd 0xDEADBEEF#32) ∧
      decode 0x05070DD7CD01#48 = .ok (.regWr .acc 0x0DD7CD01#32) := by and_intros <;> rfl
theorem test_decode_fldIn :
    decode 0x060000000000#48 = .ok (.fldIn .magic) ∧ decode 0x060100000000#48 = .ok (.fldIn .hsize) ∧
      decode 0x060600000000#48 = .ok (.fldIn .pck) := by and_intros <;> rfl
theorem test_decode_fldOut :
    decode 0x070200000000#48 = .ok (.fldOut .version) ∧ decode 0x070400000000#48 = .ok (.fldOut .subsize) ∧
      decode 0x070700000000#48 = .ok (.fldOut .acc) := by and_intros <;> rfl
theorem test_decode_hdrDflt : decode 0x080000000000#48 = .ok .hdrDflt := rfl
theorem test_decode_hdrUnpack : decode 0x090000000000#48 = .ok .hdrUnpack := rfl
theorem test_decode_hdrPack : decode 0x0A0000000000#48 = .ok .hdrPack := rfl
theorem test_decode_hdrCrc : decode 0x0B0000000000#48 = .ok .hdrCrc := rfl
theorem test_decode_nameIn : decode 0x0C0000000000#48 = .ok .nameIn := rfl
theorem test_decode_nameOut : decode 0x0D0000000000#48 = .ok .nameOut := rfl
theorem test_decode_namePack : decode 0x0E0000000000#48 = .ok .namePack := rfl
theorem test_decode_nameUnpack : decode 0x0F0000000000#48 = .ok .nameUnpack := rfl
theorem test_decode_payCopy : decode 0x100000000000#48 = .ok .payCopy := rfl
theorem test_decode_decode : decode 0x110000000000#48 = .ok .decode := rfl
theorem test_decode_encode : decode 0x120000000000#48 = .ok .encode := rfl
theorem test_decode_inRewind : decode 0x130000000000#48 = .ok .inRewind := rfl

/-- V5.1 to V5.8. -/
theorem test_illegal_words_1 :
    decode 0x140000000000#48 = .error .reservedOpcode ∧ decode 0xFF0000000000#48 = .error .reservedOpcode ∧
      decode 0x000000000001#48 = .error .strayBits ∧ decode 0x000100000000#48 = .error .strayBits ∧
      decode 0x010100000000#48 = .error .strayBits ∧ decode 0x020000000100#48 = .error .strayBits ∧
      decode 0x040C00000000#48 = .error .badIndex ∧ decode 0x040700000001#48 = .error .strayBits := by and_intros <;> rfl

/-- V5.9 to V5.14. -/
theorem test_illegal_words_2 :
    decode 0x050800000000#48 = .error .badIndex ∧ decode 0x050900000001#48 = .error .badIndex ∧
      decode 0x050A00000000#48 = .error .badIndex ∧ decode 0x050C00000000#48 = .error .badIndex ∧
      decode 0x060700000000#48 = .error .badIndex ∧ decode 0x070800000000#48 = .error .badIndex ∧
      decode 0x110000000001#48 = .error .strayBits ∧ decode 0x120100000000#48 = .error .strayBits := by and_intros <;> rfl

theorem test_decodeTableWord :
    decodeTableWord 48 0x050B00000001 = some (.regWr .mode 1#32) ∧
      decodeTableWord 48 0x140000000000 = none := by decide

/-- The lines of 30_encoding.md R74. -/
theorem test_asm :
    (Instr.crcFeed 0x31#8).asm = "CRC.FEED 49" ∧ (Instr.regRd .acc).asm = "REG.RD ACC" ∧
      (Instr.regWr .mode 1#32).asm = "REG.WR MODE, 1" ∧ (Instr.fldIn .hck).asm = "FLD.IN HCK" ∧
      Instr.decode.asm = "DECODE" := by decide +kernel

/-- The response `00 2DFD2D88` of 30_encoding.md R64. -/
theorem test_response_word : ({ code := 0#8, data := 0x2DFD2D88#32 } : Response).word = 0x002DFD2D88#40 := by decide

/-! ## The CRC unit -/

/-- Entries 0 to 63 of the listing of 41_crc.md R81. -/
def listing0 : List Word :=
    [0x00000000#32, 0x77073096#32, 0xEE0E612C#32, 0x990951BA#32,
     0x076DC419#32, 0x706AF48F#32, 0xE963A535#32, 0x9E6495A3#32,
     0x0EDB8832#32, 0x79DCB8A4#32, 0xE0D5E91E#32, 0x97D2D988#32,
     0x09B64C2B#32, 0x7EB17CBD#32, 0xE7B82D07#32, 0x90BF1D91#32,
     0x1DB71064#32, 0x6AB020F2#32, 0xF3B97148#32, 0x84BE41DE#32,
     0x1ADAD47D#32, 0x6DDDE4EB#32, 0xF4D4B551#32, 0x83D385C7#32,
     0x136C9856#32, 0x646BA8C0#32, 0xFD62F97A#32, 0x8A65C9EC#32,
     0x14015C4F#32, 0x63066CD9#32, 0xFA0F3D63#32, 0x8D080DF5#32,
     0x3B6E20C8#32, 0x4C69105E#32, 0xD56041E4#32, 0xA2677172#32,
     0x3C03E4D1#32, 0x4B04D447#32, 0xD20D85FD#32, 0xA50AB56B#32,
     0x35B5A8FA#32, 0x42B2986C#32, 0xDBBBC9D6#32, 0xACBCF940#32,
     0x32D86CE3#32, 0x45DF5C75#32, 0xDCD60DCF#32, 0xABD13D59#32,
     0x26D930AC#32, 0x51DE003A#32, 0xC8D75180#32, 0xBFD06116#32,
     0x21B4F4B5#32, 0x56B3C423#32, 0xCFBA9599#32, 0xB8BDA50F#32,
     0x2802B89E#32, 0x5F058808#32, 0xC60CD9B2#32, 0xB10BE924#32,
     0x2F6F7C87#32, 0x58684C11#32, 0xC1611DAB#32, 0xB6662D3D#32]

/-- Entries 64 to 127 of the listing of 41_crc.md R81. -/
def listing1 : List Word :=
    [0x76DC4190#32, 0x01DB7106#32, 0x98D220BC#32, 0xEFD5102A#32,
     0x71B18589#32, 0x06B6B51F#32, 0x9FBFE4A5#32, 0xE8B8D433#32,
     0x7807C9A2#32, 0x0F00F934#32, 0x9609A88E#32, 0xE10E9818#32,
     0x7F6A0DBB#32, 0x086D3D2D#32, 0x91646C97#32, 0xE6635C01#32,
     0x6B6B51F4#32, 0x1C6C6162#32, 0x856530D8#32, 0xF262004E#32,
     0x6C0695ED#32, 0x1B01A57B#32, 0x8208F4C1#32, 0xF50FC457#32,
     0x65B0D9C6#32, 0x12B7E950#32, 0x8BBEB8EA#32, 0xFCB9887C#32,
     0x62DD1DDF#32, 0x15DA2D49#32, 0x8CD37CF3#32, 0xFBD44C65#32,
     0x4DB26158#32, 0x3AB551CE#32, 0xA3BC0074#32, 0xD4BB30E2#32,
     0x4ADFA541#32, 0x3DD895D7#32, 0xA4D1C46D#32, 0xD3D6F4FB#32,
     0x4369E96A#32, 0x346ED9FC#32, 0xAD678846#32, 0xDA60B8D0#32,
     0x44042D73#32, 0x33031DE5#32, 0xAA0A4C5F#32, 0xDD0D7CC9#32,
     0x5005713C#32, 0x270241AA#32, 0xBE0B1010#32, 0xC90C2086#32,
     0x5768B525#32, 0x206F85B3#32, 0xB966D409#32, 0xCE61E49F#32,
     0x5EDEF90E#32, 0x29D9C998#32, 0xB0D09822#32, 0xC7D7A8B4#32,
     0x59B33D17#32, 0x2EB40D81#32, 0xB7BD5C3B#32, 0xC0BA6CAD#32]

/-- Entries 128 to 191 of the listing of 41_crc.md R81. -/
def listing2 : List Word :=
    [0xEDB88320#32, 0x9ABFB3B6#32, 0x03B6E20C#32, 0x74B1D29A#32,
     0xEAD54739#32, 0x9DD277AF#32, 0x04DB2615#32, 0x73DC1683#32,
     0xE3630B12#32, 0x94643B84#32, 0x0D6D6A3E#32, 0x7A6A5AA8#32,
     0xE40ECF0B#32, 0x9309FF9D#32, 0x0A00AE27#32, 0x7D079EB1#32,
     0xF00F9344#32, 0x8708A3D2#32, 0x1E01F268#32, 0x6906C2FE#32,
     0xF762575D#32, 0x806567CB#32, 0x196C3671#32, 0x6E6B06E7#32,
     0xFED41B76#32, 0x89D32BE0#32, 0x10DA7A5A#32, 0x67DD4ACC#32,
     0xF9B9DF6F#32, 0x8EBEEFF9#32, 0x17B7BE43#32, 0x60B08ED5#32,
     0xD6D6A3E8#32, 0xA1D1937E#32, 0x38D8C2C4#32, 0x4FDFF252#32,
     0xD1BB67F1#32, 0xA6BC5767#32, 0x3FB506DD#32, 0x48B2364B#32,
     0xD80D2BDA#32, 0xAF0A1B4C#32, 0x36034AF6#32, 0x41047A60#32,
     0xDF60EFC3#32, 0xA867DF55#32, 0x316E8EEF#32, 0x4669BE79#32,
     0xCB61B38C#32, 0xBC66831A#32, 0x256FD2A0#32, 0x5268E236#32,
     0xCC0C7795#32, 0xBB0B4703#32, 0x220216B9#32, 0x5505262F#32,
     0xC5BA3BBE#32, 0xB2BD0B28#32, 0x2BB45A92#32, 0x5CB36A04#32,
     0xC2D7FFA7#32, 0xB5D0CF31#32, 0x2CD99E8B#32, 0x5BDEAE1D#32]

/-- Entries 192 to 255 of the listing of 41_crc.md R81. -/
def listing3 : List Word :=
    [0x9B64C2B0#32, 0xEC63F226#32, 0x756AA39C#32, 0x026D930A#32,
     0x9C0906A9#32, 0xEB0E363F#32, 0x72076785#32, 0x05005713#32,
     0x95BF4A82#32, 0xE2B87A14#32, 0x7BB12BAE#32, 0x0CB61B38#32,
     0x92D28E9B#32, 0xE5D5BE0D#32, 0x7CDCEFB7#32, 0x0BDBDF21#32,
     0x86D3D2D4#32, 0xF1D4E242#32, 0x68DDB3F8#32, 0x1FDA836E#32,
     0x81BE16CD#32, 0xF6B9265B#32, 0x6FB077E1#32, 0x18B74777#32,
     0x88085AE6#32, 0xFF0F6A70#32, 0x66063BCA#32, 0x11010B5C#32,
     0x8F659EFF#32, 0xF862AE69#32, 0x616BFFD3#32, 0x166CCF45#32,
     0xA00AE278#32, 0xD70DD2EE#32, 0x4E048354#32, 0x3903B3C2#32,
     0xA7672661#32, 0xD06016F7#32, 0x4969474D#32, 0x3E6E77DB#32,
     0xAED16A4A#32, 0xD9D65ADC#32, 0x40DF0B66#32, 0x37D83BF0#32,
     0xA9BCAE53#32, 0xDEBB9EC5#32, 0x47B2CF7F#32, 0x30B5FFE9#32,
     0xBDBDF21C#32, 0xCABAC28A#32, 0x53B39330#32, 0x24B4A3A6#32,
     0xBAD03605#32, 0xCDD70693#32, 0x54DE5729#32, 0x23D967BF#32,
     0xB3667A2E#32, 0xC4614AB8#32, 0x5D681B02#32, 0x2A6F2B94#32,
     0xB40BBE37#32, 0xC30C8EA1#32, 0x5A05DF1B#32, 0x2D02EF8D#32]

/-- The whole listing of 41_crc.md R81. -/
theorem test_table :
    (List.range 256).map (fun i => tblEntry (BitVec.ofNat 8 i)) =
      listing0 ++ listing1 ++ listing2 ++ listing3 := by decide +kernel

/-- V1.8 to V1.14. -/
theorem test_feed :
    feed 0xFFFFFFFF#32 0x00#8 = 0x2DFD1072#32 ∧ feed 0xFFFFFFFF#32 0xFF#8 = 0x00FFFFFF#32 ∧
      feed 0x12345678#32 0x9A#8 = 0x4E16B702#32 ∧ feed 0x80000000#32 0x00#8 = 0x00800000#32 ∧
      feed 0x00000100#32 0x00#8 = 0x00000001#32 ∧ feed 0x3AB551CE#32 0x62#8 = 0xDF5A5A92#32 := by decide +kernel

/-- V1.16, V1.20, V1.22, V1.25, V1.28, V1.34, V1.36. -/
theorem test_update :
    update [] 0xFFFFFFFF#32 = 0xFFFFFFFF#32 ∧
      update [0x31#8, 0x32#8, 0x33#8, 0x34#8, 0x35#8, 0x36#8, 0x37#8, 0x38#8, 0x39#8] 0#32 = 0x2DFD2D88#32 ∧
      update [0x61#8, 0x62#8, 0x63#8] 0#32 = 0xCA6598D0#32 ∧
      update (List.replicate 4 0xFF#8) 0#32 = 0xDEBB20E3#32 ∧ update (five ++ [0#8]) 0#32 = 0xD95773B2#32 ∧
      update [0x61#8, 0x62#8, 0x63#8] 0xFFFFFFFF#32 = 0xCADBBE3D#32 ∧
      update (List.replicate 4 0xFF#8) 0xFFFFFFFF#32 = 0#32 := by decide +kernel

/-- V1.40. -/
theorem test_crcLoad : lastWord (after (.crcLoad 0xFFFFFFFF#32) State.reset) = some 0x00FFFFFFFF#40 := by
  decide +kernel

/-- V1.41, V6.7. -/
theorem test_crcFeed : lastWord (after (.crcFeed 0x31#8) State.reset) = some 0x0051DE003A#40 := by decide +kernel

/-- V1.43 with P1's last bytes: the chaining instance of V1.20. -/
theorem test_crcFeeds_end :
    let t := after .crcFeeds (after (.crcLoad 0x0DD7CD01#32) (given [0x36#8, 0x37#8, 0x38#8, 0x39#8] .ended))
    lastWord t = some 0x002DFD2D88#40 ∧ t.seq.ipos = 4 := by decide +kernel

/-- V1.45. -/
theorem test_crcFeeds_failed :
    let t := after .crcFeeds (given [0x31#8, 0x32#8] .failed)
    lastWord t = some 0x070E8A5632#40 ∧ t.regs.err = 7#8 ∧ t.seq.ipos = 2 := by decide +kernel

/-! ## System commands, fields and the header -/

/-- V2.1. -/
theorem test_nop :
    let s := { given [] .ended with regs := { Launch.named.regs with acc := 0x12345678#32, err := 5#8 } }
    (after .nop s).regs = s.regs ∧ lastWord (after .nop s) = some 0x0012345678#40 := by decide +kernel

/-- V2.3. -/
theorem test_regRd :
    let s := { given [] .ended with regs := { Launch.named.regs with acc := 0x1F71B3A4#32, err := 3#8 } }
    (after (.regRd .err) s).regs = s.regs ∧ lastWord (after (.regRd .err) s) = some 0x0000000003#40 := by
  decide +kernel

/-- V2.5. -/
theorem test_regWr_mode : (after (.regWr .mode 0xFFFFFFFE#32) (sinking [] .ended)).regs.mode = 0#1 := by
  decide +kernel

/-- V2.7. -/
theorem test_regWr_acc : lastWord (after (.regWr .acc 0x0DD7CD01#32) State.reset) = some 0x000DD7CD01#40 := by
  decide +kernel

/-- V2.9. -/
theorem test_fldIn :
    let t := after (.fldIn .magic) (given [0x78#8, 0x56#8, 0x34#8, 0x12#8] .ended)
    t.regs.hf.magic = 0x12345678#32 ∧ t.seq.ipos = 4 ∧ t.regs.acc = 0#32 := by decide +kernel

/-- V2.11. -/
theorem test_fldIn_truncated :
    let t := after (.fldIn .hck) (given [1#8, 2#8, 3#8] .ended)
    t.regs.err = 2#8 ∧ t.regs.hck = 0#32 ∧ t.seq.ipos = 3 := by decide +kernel

/-- V2.13. -/
theorem test_fldOut :
    let t := after (.fldOut .acc) (after (.crcLoad 0x81296EE9#32) (given [] .ended))
    t.ports.out = [0xE9#8, 0x6E#8, 0x29#8, 0x81#8] ∧ t.seq.opos = 4 := by decide +kernel

/-- V2.15. -/
theorem test_hdrDflt :
    (after .hdrDflt State.reset).regs.hf =
      { magic := 0x64B354D3#32, hsize := 0x9C#32, version := 0x3E8#32, rsvd := 0#32, subsize := 0x18#32 } := by
  decide +kernel

/-- V2.16: the first 20 bytes of every container. -/
theorem test_hdrPack :
    (after .hdrPack (after .hdrDflt (given [] .ended))).ports.out = constant24.take 20 := by decide +kernel

/-- V2.17. -/
theorem test_hdrCrc : lastWord (after .hdrCrc (after .hdrDflt State.reset)) = some 0x009E54D683#40 := by
  decide +kernel

/-- The input of V2.18. -/
def otherHeader : List Byte :=
  [0xEF#8, 0xBE#8, 0xAD#8, 0xDE#8, 0x00#8, 0x00#8, 0x00#8, 0x00#8, 0xFF#8, 0xFF#8] ++
  [0xFF#8, 0xFF#8, 0x78#8, 0x56#8, 0x34#8, 0x12#8, 0x07#8, 0x00#8, 0x00#8, 0x00#8]

/-- V2.18, V2.19. -/
theorem test_hdrUnpack :
    let t := after .hdrUnpack (given otherHeader .ended)
    t.regs.hf = { magic := 0xDEADBEEF#32, hsize := 0#32, version := 0xFFFFFFFF#32, rsvd := 0x12345678#32,
                  subsize := 7#32 } ∧
      lastWord (after .hdrCrc t) = some 0x00B0F5AA2D#40 := by decide +kernel

/-- V2.21. -/
theorem test_hdrUnpack_truncated :
    let t := after .hdrUnpack (given (otherHeader.take 19) .ended)
    t.regs.err = 1#8 ∧ t.regs.hf = Launch.named.hf ∧ t.seq.ipos = 19 := by decide +kernel

/-- V2.22. -/
theorem test_inRewind :
    let t := after .inRewind (after .crcFeeds (given five .ended))
    lastWord t = some 0x0081296EE9#40 ∧ t.seq.ipos = 0 ∧ inByte t = .byte 1#8 := by decide +kernel

/-! ## Names -/

/-- V4.1 to V4.8: the count kept and the last two bytes. -/
theorem test_namePack_1 :
    namePack [] = (List.replicate 128 0#8, 0) ∧ (namePack (letters 63)).2 = 63 ∧ (namePack (letters 64)).2 = 64 ∧
      (namePack (letters 63 ++ [0xD83D#16])).2 = 63 ∧
      (namePack (letters 63 ++ [0xD83D#16, 0xDE00#16])).1.drop 124 = [0x41#8, 0#8, 0#8, 0#8] ∧
      (namePack (letters 62 ++ [0xD83D#16, 0xDE00#16])).1.drop 124 = [0x3D#8, 0xD8#8, 0x00#8, 0xDE#8] ∧
      (namePack (letters 65)).2 = 64 := by decide +kernel

/-- V4.9 to V4.15. -/
theorem test_namePack_2 :
    (namePack (letters 63 ++ [0xDBFF#16])).2 = 63 ∧ (namePack (letters 63 ++ [0xDC00#16])).2 = 64 ∧
      (namePack (letters 63 ++ [0xD7FF#16])).2 = 64 ∧ (namePack (letters 63 ++ [0x00D8#16])).2 = 64 ∧
      (namePack (letters 63 ++ [0xD800#16])).2 = 63 ∧ (namePack (letters 62 ++ [0xD83D#16])).2 = 63 ∧
      (namePack [0x41#16, 0#16, 0x42#16]).2 = 3 := by decide +kernel

/-- V4.20 to V4.27. -/
theorem test_nameUnpack_fields :
    nameUnpack (List.replicate 128 0#8) = [] ∧ nameUnpack (namePack [0x41#16, 0#16, 0x42#16]).1 = [0x41#16] ∧
      nameUnpack (namePack (letters 64)).1 = letters 64 ∧
      nameUnpack ([0x00#8, 0x41#8, 0x00#8, 0x00#8] ++ List.replicate 124 0x55#8) = [0x4100#16] ∧
      nameUnpack ([0x41#8, 0x00#8, 0x00#8, 0x00#8] ++ List.replicate 124 0xFF#8) = [0x41#16] ∧
      nameUnpack ([0x3D#8, 0xD8#8] ++ List.replicate 126 0#8) = [0xD83D#16] := by decide +kernel

/-- V4.30. -/
theorem test_namePack :
    let t := after .namePack (naming hi .same [])
    t.regs.nameBuf = [0x48#8, 0x00#8, 0x69#8, 0x00#8] ++ List.replicate 124 0#8 ∧ t.regs.nameLen = 2#7 := by
  decide +kernel

/-- V4.31. -/
theorem test_nameOut :
    (after .nameOut (after .namePack (naming hi .same []))).ports.out =
      [0x48#8, 0x00#8, 0x69#8, 0x00#8] ++ List.replicate 124 0#8 := by decide +kernel

/-- V4.32. -/
theorem test_nameUnpack :
    (after .nameUnpack (after .namePack (naming hi .same []))).ports.nout = [hi] := by decide +kernel

/-- V4.33. -/
theorem test_nameIn :
    let field := [0x41#8, 0x00#8, 0x00#8, 0x00#8] ++ List.replicate 124 0xFF#8
    let t := after .nameIn (given field .ended)
    t.regs.nameBuf = field ∧ t.regs.nameLen = 0#7 ∧ t.seq.ipos = 128 := by decide +kernel

/-- V4.34; nothing is said of the bytes of `NAMEBUF`. -/
theorem test_nameIn_truncated :
    let t := after .nameIn (given (List.replicate 127 1#8) .ended)
    t.regs.err = 5#8 ∧ t.seq.ipos = 127 := by decide +kernel

/-! ## Copy, DECODE and ENCODE -/

/-- V3.1. -/
theorem test_payCopy :
    let t := after .payCopy (after (.crcLoad 0xFFFFFFFF#32) (given five .ended))
    lastWord t = some 0x0081296EE9#40 ∧ t.ports.out = five := by decide +kernel

/-- 44_codec.md R135 with a host that fails `OUT` after two bytes: `Update(01 02, 0) = F715506D` (V1.27). -/
theorem test_payCopy_out_fails :
    let s := given five .ended
    let t := after .payCopy { s with ports.outRoom := .upTo 2 true }
    lastWord t = some 0x07F715506D#40 ∧ t.ports.out = [1#8, 2#8] := by decide +kernel

/-- V3.3. -/
theorem test_decode_sink :
    let t := after .decode (sinking container .ended)
    lastWord t = some 0x0081296EE9#40 ∧ t.ports.nout = [hi] ∧ t.ports.out = five ∧ t.regs.flags = 1#1 ∧
      t.regs.nameLen = 2#7 ∧ t.regs.hck = 0x9E54D683#32 ∧ t.regs.pck = 0x81296EE9#32 ∧ t.seq.ipos = 161 := by
  decide +kernel

/-- V3.4. -/
theorem test_decode_name_only :
    let t := after .decode (given container .ended)
    lastWord t = some 0x009E54D683#40 ∧ t.ports.nout = [hi] ∧ t.ports.out = [] ∧ t.regs.flags = 0#1 ∧
      t.seq.ipos = 156 := by decide +kernel

/-- V3.5 to V3.12: the order of the tests (60_exceptions.md R170). -/
theorem test_decodeFn_faults :
    decodeFn [] true = .fault .headerTruncated ∧ decodeFn (container.take 19) true = .fault .headerTruncated ∧
      decodeFn (container.take 23) true = .fault .checksumFieldTruncated ∧
      decodeFn (container.take 24) true = .fault .payloadChecksumFieldTruncated ∧
      decodeFn (container.take 28) true = .fault .nameFieldTruncated ∧
      decodeFn (container.take 155) true = .fault .nameFieldTruncated ∧
      decodeFn (flipBit container 0 0) false = .fault .headerChecksumMismatch ∧
      decodeFn ((flipBit container 0 0).take 23) false = .fault .checksumFieldTruncated := by decide +kernel

/-- V3.13, V3.14, V3.15, V3.16, V3.19, V3.24. -/
theorem test_decodeFn_payload :
    decodeFn (flipBit container 156 7) true = .fault .payloadChecksumMismatch ∧
      decodeFn (flipBit container 156 7) false = .name hi ∧
      decodeFn (flipBit container 20 0) true = .fault .headerChecksumMismatch ∧
      decodeFn (flipBit container 24 0) true = .fault .payloadChecksumMismatch ∧
      decodeFn (container.take 156) true = .fault .payloadChecksumMismatch ∧
      decodeFn (List.replicate 156 0#8) true = .full [] [] := by decide +kernel

/-- Program P2. -/
theorem test_encode :
    let t := after .encode (naming hi .same five)
    lastWord t = some 0x0081296EE9#40 ∧ t.ports.out = container ∧ t.seq.ipos = 5 ∧ t.seq.opos = 161 := by
  decide +kernel

/-- V3.29. -/
theorem test_encode_no_rewind :
    let t := after .encode (naming hi .unable five)
    lastWord t = some 0x0781296EE9#40 ∧ t.ports.out = container.take 156 ∧ t.seq.ipos = 5 := by decide +kernel

/-- The host's question, on the first and the last row of the table. -/
theorem test_step_fetches :
    lastWord (stepped (State.reset.withFetchWord 48 0x020000000031)) = some 0x0051DE003A#40 ∧
      (stepped (State.reset.withFetchWord 48 0x130000000000)).regs.err = 0#8 := by decide +kernel

/-- V5.13 through a step: `VERIFIED` is not cleared. -/
theorem test_step_illegal :
    let s := { sinking container .ended with regs := { Launch.named.regs with flags := 1#1 } }
    let t := stepped (s.withFetchWord 48 0x110000000001)
    t.regs.err = 8#8 ∧ t.regs.flags = 1#1 ∧ t.seq.ipos = 0 := by decide +kernel

/-- The first steps of a run from reset: the host opens `IN`, presents `CRC.FEEDS`, and delivers in two pieces. -/
theorem test_host_delivers :
    let s := { State.reset with
      host := [.openIn [0x31#8] .pending .same, .issue 0x030000000000#48, .deliver [0x32#8], .endIn] }
    lastWord (stepped (stepped (stepped (stepped (stepped s))))) = some 0x000E8A5632#40 := by decide +kernel

/-- 20_memory.md R47 (b) and 60_exceptions.md R169: a failure after a returned end of stream leaves reads at the end and
refuses a rewind. -/
theorem test_failure_after_end :
    let t := nextOr State.reset (hostMove .failIn (after .crcFeeds (given five .ended)))
    inByte t = .eos ∧ (after .inRewind t).regs.err = 7#8 := by decide +kernel

/-- 60_exceptions.md R169: `IN` failed while `ENCODE` waits to write the name is met in E6, and no payload byte is
written: the container's first 156 bytes stand on `OUT`. -/
theorem test_failure_before_second_pass :
    let s := after .encode { naming hi .same five with
      ports := { (naming hi .same five).ports with outRoom := .upTo 100 false } }
    let t := stepped (stepped { s with host := [.failIn, .setRoom .all] })
    t.regs.err = 7#8 ∧ t.ports.out = container.take 156 := by decide +kernel

/-- 93_implementation_defined.md U15: the port of a busy block takes no word. -/
theorem test_busy_port :
    let s := after .crcFeeds (given [] .pending)
    refusal (step { s with host := [.issue 0#48] }) = some .hostDuty := by decide +kernel

/-! ## Witnesses: for each obligation with hypotheses, states and operands that meet them, clause by clause

A statement whose hypothesis is the outcome of a step or of a command is met by any state of the kind named; the witness
computes that outcome and shows the case of the conclusion that it falls under. -/

/-- A machine that waits inside a command: `CRC.FEEDS` with nothing on `IN` yet. -/
def waiting : State := after .crcFeeds (given [] .pending)

/-- A machine that waits in phase D7 of a `DECODE` that verifies, its five payload bytes not yet delivered. -/
def waitingD7 : State := after .decode (sinking (container.take 156) .pending)

/-- A state in which the host accepts `n` more bytes on `OUT` and then fails it or makes the block wait. -/
def narrow (n : Nat) (fails : Bool) (s : State) : State := { s with ports.outRoom := .upTo n fails }

theorem test_witness_ResetDropsTheRunningCommand :
    (let s := { waiting with host := [.reset] }
     s.seq.phase ≠ .idle ∧ s.host = .reset :: []) ∧
    (let s := { State.reset with host := [.reset] }
     s.ports.cmd = none ∧ s.host = .reset :: []) := by decide +kernel

theorem test_witness_StepRunsDecodedCommand :
    let s := State.reset.withFetchWord 48 0x0100CAFEF00D
    s.seq.phase = .idle ∧ s.ports.cmd = some 0x0100CAFEF00D#48 ∧
      decode 0x0100CAFEF00D#48 = .ok (.crcLoad 0xCAFEF00D#32) := by and_intros <;> rfl

theorem test_witness_IllegalWordChangesOnlyErr :
    let illegal (w : CommandWord) (n : Nat) : Prop :=
      (State.reset.withFetchWord 48 n).seq.phase = .idle ∧
      (State.reset.withFetchWord 48 n).ports.cmd = some w ∧ ∀ row ∈ opcodeRows, ¬ row.holds w
    illegal 0x140000000000#48 0x140000000000 ∧ illegal 0x050800000000#48 0x050800000000 ∧
      illegal 0x110000000001#48 0x110000000001 := by
  simp only [OpcodeRow.holds]
  decide +kernel

theorem test_witness_BusyBlockTakesNoWord :
    (waiting.seq.phase ≠ .idle ∧ waiting.host.head? ≠ some .reset ∧ step waiting = .next (stepped waiting)) ∧
      (let s := { waiting with host := [.issue 0#48] }
       s.seq.phase ≠ .idle ∧ s.host = .issue 0#48 :: [] ∧ step s = .refused .hostDuty) :=
  ⟨⟨by decide +kernel, by decide +kernel, next_of_goesOn (by decide +kernel)⟩,
    by decide +kernel, rfl, refused_of_refusal (by decide +kernel)⟩

/-- The four cases: a command that ends, one that waits, a waiting one that ends, and one that goes on waiting. -/
theorem test_witness_OneResponsePerCommand :
    (exec (.crcFeed 1#8) State.reset = .next (after (.crcFeed 1#8) State.reset) ∧
      (after (.crcFeed 1#8) State.reset).seq.phase = .idle) ∧
    (exec .crcFeeds (given [] .pending) = .next waiting ∧ waiting.seq.phase ≠ .idle) ∧
    (resume (waiting.fill [1#8] .ended) = .next (again (waiting.fill [1#8] .ended)) ∧
      (again (waiting.fill [1#8] .ended)).seq.phase = .idle) ∧
    (resume waiting = .next (again waiting) ∧ (again waiting).seq.phase ≠ .idle) := by
  refine ⟨⟨next_of_goesOn (by decide +kernel), ?_⟩, ⟨next_of_goesOn (s := given [] .pending) (by decide +kernel), ?_⟩,
    ⟨next_of_goesOn (by decide +kernel), ?_⟩, ⟨next_of_goesOn (by decide +kernel), ?_⟩⟩ <;> decide +kernel

theorem test_witness_FaultGivesNoName :
    (exec .nameUnpack State.reset = .next (after .nameUnpack State.reset) ∧
      (after .nameUnpack State.reset).ports.nout = [[]]) ∧
    (exec .decode (given [] .ended) = .next (after .decode (given [] .ended)) ∧
      (after .decode (given [] .ended)).ports.nout = []) ∧
    (resume (waitingD7.fill five .ended) = .next (again (waitingD7.fill five .ended)) ∧
      (again (waitingD7.fill five .ended)).ports.nout = [hi]) ∧
    (resume (waitingD7.fill five .failed) = .next (again (waitingD7.fill five .failed)) ∧
      (again (waitingD7.fill five .failed)).ports.nout = []) := by
  refine ⟨⟨next_of_goesOn (by decide +kernel), ?_⟩, ⟨next_of_goesOn (by decide +kernel), ?_⟩,
    ⟨next_of_goesOn (by decide +kernel), ?_⟩, ⟨next_of_goesOn (by decide +kernel), ?_⟩⟩ <;> decide +kernel

theorem test_witness_DecodeEncodeRoundTrip :
    (Instr.regWr .mode 0xFFFFFFFF#32).wf = true ∧ (Instr.fldIn .pck).wf = true ∧ (Instr.fldOut .acc).wf = true := by
  decide

theorem test_witness_DecodedWordIsTheEncoding : ∃ w i, decode w = .ok i ∧ i = .fldOut .acc :=
  ⟨0x070700000000#48, _, rfl, rfl⟩

theorem test_witness_DecoderTestsTheTable :
    (∃ row ∈ opcodeRows, row.mnemonic = "FLD.IN" ∧ row.holds 0x060600000000#48 ∧ ¬ row.holds 0x060700000000#48) ∧
      decode 0x060600000000#48 = .ok (.fldIn .pck) := by
  refine ⟨?_, rfl⟩
  simp only [OpcodeRow.holds]
  decide +kernel

/-- For the statements of the words of an opcode: an idle machine with such a word at its port, illegal by its operands and
by its opcode. -/
theorem test_witness_CommandEncodings :
    let illegal (op idx : Byte) (data : Word) (n : Nat) : Prop :=
      (State.reset.withFetchWord 48 n).seq.phase = .idle ∧
      (State.reset.withFetchWord 48 n).ports.cmd = some (op ++ idx ++ data)
    illegal 0x00#8 0#8 1#32 0x000000000001 ∧ illegal 0x07#8 8#8 0#32 0x070800000000 ∧
      illegal 0x14#8 0#8 0#32 0x140000000000 ∧ (0x14#8 : Byte) ≤ 0x14#8 ∧ (0x14#8 : Byte) ≤ 0xFF#8 := by
  decide +kernel

theorem test_witness_CrcLoadAndFeedResults :
    (State.reset.withFetchWord 48 0x020000000100).seq.phase = .idle ∧
      (State.reset.withFetchWord 48 0x020000000100).ports.cmd = some (0x02#8 ++ 0#8 ++ 0x100#32) := by decide +kernel

theorem test_witness_NopAndRegRdChangeNothing :
    (State.reset.withFetchWord 48 0x040C00000000).seq.phase = .idle ∧
      (State.reset.withFetchWord 48 0x040C00000000).ports.cmd = some (0x04#8 ++ 0x0C#8 ++ 0#32) := by decide +kernel

theorem test_witness_RegWrResults :
    (State.reset.withFetchWord 48 0x050A00000000).seq.phase = .idle ∧
      (State.reset.withFetchWord 48 0x050A00000000).ports.cmd = some (0x05#8 ++ 0x0A#8 ++ 0#32) := by decide +kernel

theorem test_witness_HdrDfltAndHdrCrcResults :
    (State.reset.withFetchWord 48 0x0B0100000000).seq.phase = .idle ∧
      (State.reset.withFetchWord 48 0x0B0100000000).ports.cmd = some (0x0B#8 ++ 0x01#8 ++ 0#32) := by decide +kernel

theorem test_witness_UpdateIsLinear : [0x01#8, 0xFF#8].length = [0xFE#8, 0x00#8].length := rfl

theorem test_witness_ChecksumSeesEveryFlippedBit :
    0 < five.length ∧ 4 < five.length ∧ 0 < 8 ∧ 7 < 8 := by decide

theorem test_witness_CrcFeedsFeedsTheRest :
    inTail (given five .ended).ports = .ended ∧ inTail (given five .failed).ports = .failed ∧
      inTail (given five .pending).ports = .pending := by decide

theorem test_witness_NoTwoRegistersAlias :
    Reg.writable .mode = true ∧ Reg.writable .magic = true ∧ Reg.acc ≠ .mode := by decide

theorem test_witness_InRewindResults :
    ((given [] .failed).ports.inEnd = .failed ∧ unread (given [] .failed) = []) ∧
      ¬ ((naming [] .same five).ports.inEnd = .failed ∧ unread (naming [] .same five) = []) ∧
      (naming [] .same five).ports.inRewind = .same ∧ (naming [] .unable five).ports.inRewind = .unable ∧
      (naming [] (.other []) five).ports.inRewind = .other [] := by decide

theorem test_witness_PackAndUnpackAreInverse : (five.take 4).length = 4 ∧ otherHeader.length = 20 := by decide

/-- The cases of `FLD.IN`: a register it refuses, four bytes left, and three left before each kind of end. -/
theorem test_witness_FldInResults :
    Reg.fieldIn .acc = false ∧ Reg.fieldIn .pck = true ∧ 4 ≤ (unread (given (five.take 4) .pending)).length ∧
      ¬ 4 ≤ (unread (given (five.take 3) .ended)).length ∧ inTail (given (five.take 3) .ended).ports = .ended ∧
      inTail (given (five.take 3) .failed).ports = .failed ∧ inTail (given (five.take 3) .pending).ports = .pending := by
  decide

theorem test_witness_HdrUnpackResults :
    20 ≤ (unread (given otherHeader .pending)).length ∧ ¬ 20 ≤ (unread (given (otherHeader.take 19) .ended)).length ∧
      inTail (given (otherHeader.take 19) .ended).ports = .ended ∧
      inTail (given (otherHeader.take 19) .failed).ports = .failed ∧
      inTail (given (otherHeader.take 19) .pending).ports = .pending := by decide

/-- The three commands, and for the 20 bytes of a header: room for all, for 20, and for 19 before a failure or a wait. -/
theorem test_witness_WriteCommandsResults :
    let s := given [] .ended
    ((∃ r : Reg, r.fieldOut = true ∧ Instr.fldOut .acc = .fldOut r ∧ le32 s.regs.acc = le32 (readReg r s.regs)) ∧
      (Instr.hdrPack = .hdrPack ∧ (pack s.regs.hf).length = 20) ∧
      (Instr.nameOut = .nameOut ∧ s.regs.nameBuf = s.regs.nameBuf)) ∧
    s.ports.outRoom = .all ∧ (pack (narrow 20 true s).regs.hf).length ≤ 20 ∧
      (narrow 20 true s).ports.outRoom = .upTo 20 true ∧
      ¬ (pack (narrow 19 true s).regs.hf).length ≤ 19 ∧ (narrow 19 true s).ports.outRoom = .upTo 19 true ∧
      (narrow 19 false s).ports.outRoom = .upTo 19 false :=
  ⟨⟨⟨.acc, rfl, rfl, rfl⟩, ⟨rfl, rfl⟩, rfl, rfl⟩, by decide +kernel⟩

theorem test_witness_FldOutOfOtherRegistersIsIllegal : Reg.fieldOut .namelen = false ∧ Reg.fieldOut .mode = false := by
  decide

theorem test_witness_PackedNameField : 2 * (namePack (letters 63)).2 ≤ 126 ∧ 126 < 128 ∧ 127 < 128 ∧
    (List.replicate 128 0xD8#8).length = 128 := by
  decide +kernel

theorem test_witness_NameInResults :
    128 ≤ (unread (given (List.replicate 128 1#8) .pending)).length ∧
      ¬ 128 ≤ (unread (given (List.replicate 127 1#8) .ended)).length ∧
      inTail (given (List.replicate 127 1#8) .failed).ports = .failed ∧
      inTail (given (List.replicate 127 1#8) .pending).ports = .pending := by decide +kernel

theorem test_witness_NamePackResults :
    (naming hi .same []).ports.nin = messageFirst hi [] ∧
      (let s := { given [] .ended with ports := { Ports.closed with nin := hi.map .unit, ninFailed := true } }
       s.ports.nin = hi.map .unit ∧ s.ports.ninFailed = true) ∧
      (let s := { given [] .ended with ports := { Ports.closed with nin := hi.map .unit, ninFailed := false } }
       s.ports.nin = hi.map .unit ∧ s.ports.ninFailed = false) := by decide

/-- A full field (64 units, no NUL) and an empty one. -/
theorem test_witness_NameUnpackResults :
    (State.reset.regs.nameBuf.length = 128 ∧ nameUnpack State.reset.regs.nameBuf = []) ∧
      ((after .namePack (naming (letters 64) .same [])).regs.nameBuf.length = 128 ∧
        (nameUnpack (after .namePack (naming (letters 64) .same [])).regs.nameBuf).length = 64) ∧
      (State.reset.withFetchWord 48 0x0F0000000001).ports.cmd = some (0x0F#8 ++ 0#8 ++ 1#32) := by decide +kernel

theorem test_witness_PayCopyResults :
    (given five .ended).ports.outRoom.takes 5 = true ∧ (narrow 5 true (given five .ended)).ports.outRoom.takes 5 = true ∧
      (unread (given five .ended)).length = 5 ∧ inTail (given five .ended).ports = .ended ∧
      inTail (given five .failed).ports = .failed ∧ inTail (given five .pending).ports = .pending ∧
      ((narrow 4 true (given five .ended)).ports.outRoom = .upTo 4 true ∧
        4 < (unread (narrow 4 true (given five .ended))).length) ∧
      ((narrow 0 false (given five .ended)).ports.outRoom = .upTo 0 false ∧
        0 < (unread (narrow 0 false (given five .ended))).length) := by decide

/-- Every outcome of `DecodeFn` but the two that the statement excludes, at the ends of its range of lengths. -/
theorem test_witness_DecodeComputesDecodeFn :
    let holds (s : State) (S : List Byte) : Prop :=
      inTail s.ports = .ended ∧ (s.regs.mode = 1#1 → s.ports.outRoom.takes ((unread s).length - 156) = true) ∧
        unread s = S
    holds (sinking (container.take 19) .ended) (container.take 19) ∧
      holds (sinking (container.take 20) .ended) (container.take 20) ∧
      holds (sinking (flipBit (container.take 24) 0 0) .ended) (flipBit (container.take 24) 0 0) ∧
      holds (sinking (container.take 24) .ended) (container.take 24) ∧
      holds (sinking (container.take 28) .ended) (container.take 28) ∧
      holds (sinking (container.take 156) .ended) (container.take 156) ∧
      holds (given (container.take 156) .ended) (container.take 156) ∧
      holds (sinking container .ended) container ∧ holds (narrow 5 true (sinking container .ended)) container ∧
      holds (narrow 0 true (given container .ended)) container := by decide +kernel

/-- The five cases of a failing `IN`: 23 bytes; 24 with a bad header; 155; 156 with and without a sink. -/
theorem test_witness_DecodeOnFailedInput :
    inTail (given (container.take 23) .failed).ports = .failed ∧
      (narrow 5 true (sinking container .failed)).ports.outRoom.takes (container.length - 156) = true ∧
      (container.take 23).length < 24 ∧
      (¬ (flipBit (container.take 24) 0 0).length < 24 ∧
        hdrCk (slice (flipBit (container.take 24) 0 0) 0 20) ≠
          u32le (slice (flipBit (container.take 24) 0 0) 20 24)) ∧
      (hdrCk (slice (container.take 155) 0 20) = u32le (slice (container.take 155) 20 24) ∧
        (container.take 155).length < 156) ∧
      ¬ (container.take 156).length < 156 ∧ (sinking (container.take 156) .failed).regs.mode = 1#1 ∧
      (given (container.take 156) .failed).regs.mode ≠ 1#1 := by decide +kernel

theorem test_witness_DecodeAcceptsAnyHeader :
    otherHeader.length = 20 ∧ [0#8, 0#8, 0#8, 0#8].length = 4 ∧ (List.replicate 128 0x41#8).length = 128 := by
  decide +kernel

theorem test_witness_EncodeComputesEncodeFn :
    let s := naming hi .same five
    s.ports.nin = messageFirst hi [] ∧ s.ports.inEnd = .ended ∧ s.ports.inRewind = .same ∧
      s.ports.outRoom.takes (156 + s.ports.inData.length) = true ∧
      (narrow 161 true s).ports.outRoom.takes (156 + s.ports.inData.length) = true ∧ s.seq.ipos = 0 := by decide

theorem test_witness_EncodeDoesNotComparePasses :
    let s := naming hi (.other [1#8, 2#8, 3#8, 4#8, 6#8]) five
    s.ports.nin = messageFirst hi [] ∧ s.ports.inEnd = .ended ∧
      s.ports.inRewind = .other [1#8, 2#8, 3#8, 4#8, 6#8] ∧
      s.ports.outRoom.takes (156 + [1#8, 2#8, 3#8, 4#8, 6#8].length) = true ∧
      ((naming hi .same five).ports.inRewind = .same ∧ five = (naming hi .same five).ports.inData) := by decide

theorem test_witness_EncodeNeedsTheRewind :
    let s := naming hi .unable five
    s.ports.nin = messageFirst hi [] ∧ s.ports.inEnd = .ended ∧ s.ports.inRewind = .unable ∧
      s.ports.outRoom.takes 156 = true ∧ (narrow 156 true s).ports.outRoom.takes 156 = true := by decide

/-- A failed `NIN`, a failed `IN`, and an `OUT` that stops at either end of every phase's bytes. -/
theorem test_witness_EncodeOnFailedHost :
    (let s := { given five .ended with ports := { Ports.closed with nin := hi.map .unit, ninFailed := true } }
     s.ports.nin = hi.map .unit ∧ s.ports.ninFailed = true) ∧
    (let s := { given five .failed with
       ports := { Ports.closed with inData := five, inEnd := .failed, outRoom := .upTo 24 true, nin := messageFirst hi [] } }
     s.ports.nin = messageFirst hi [] ∧ inTail s.ports = .failed ∧ s.ports.outRoom.takes 24 = true) ∧
    (∀ n ∈ [0, 19, 20, 23, 24, 27, 28, 155, 156, 160],
      let s := narrow n true (naming hi .same five)
      s.ports.nin = messageFirst hi [] ∧ s.ports.inEnd = .ended ∧ s.ports.inRewind = .same ∧
        s.ports.outRoom = .upTo n true ∧ n < 156 + s.ports.inData.length) := by decide

theorem test_witness_DecodeOnFailedOutput :
    let s := narrow 4 true (sinking container .pending)
    hdrCk (slice (unread s) 0 20) = u32le (slice (unread s) 20 24) ∧ s.regs.mode = 1#1 ∧
      s.ports.outRoom = .upTo 4 true ∧ 4 < ((unread s).drop 156).length := by decide +kernel

/-- A good container, and a byte of each of its five regions at both of its ends. -/
theorem test_witness_CorruptionIsDetected :
    decodeFn container true = .full hi five ∧ 0 < container.length ∧ 160 < container.length ∧ 7 < 8 ∧
      (∀ m ∈ [0, 19, 20, 23], m < 24) ∧ (∀ m ∈ [28, 155], 28 ≤ m ∧ m < 156) ∧
      (∀ m ∈ [24, 27, 156, 160], ¬ m < 24 ∧ ¬ (28 ≤ m ∧ m < 156)) := by decide +kernel

/-- Both parts, with offsets at the ends of every region. -/
theorem test_witness_SelNamesEveryByte :
    (let s := sinking container .ended
     s.ports.inEnd = .ended ∧ s.ports.outRoom = .all ∧ s.regs.mode = 1#1 ∧
      decodeFn (unread s) true = .full hi five ∧ exec .decode s = .next (after .decode s) ∧
      ∀ o ∈ [0, 19, 20, 23, 24, 27, 28, 155, 156, 160], o < (unread s).length) ∧
    (let s := naming hi .same five
     s.ports.nin = messageFirst hi [] ∧ s.ports.inEnd = .ended ∧ s.ports.inRewind = .same ∧ s.ports.outRoom = .all ∧
      s.seq.ipos = 0 ∧ exec .encode s = .next (after .encode s) ∧
      ∀ o ∈ [0, 19, 20, 23, 24, 27, 28, 155, 156, 160], o < 156 + s.ports.inData.length) := by
  refine ⟨⟨?_, ?_, ?_, ?_, next_of_goesOn (by decide +kernel), ?_⟩,
    ?_, ?_, ?_, ?_, ?_, next_of_goesOn (by decide +kernel), ?_⟩ <;> decide +kernel

theorem test_witness_CallsAreIndependent :
    let s := naming hi .same container
    let s' := { s with regs := { Launch.named.regs with acc := 5#32, hck := 7#32, flags := 1#1 } }
    s'.ports = s.ports ∧ s'.seq.ipos = s.seq.ipos ∧ s'.seq.opos = s.seq.opos ∧ s'.regs.mode = s.regs.mode ∧
      s.ports.inEnd = .ended ∧ s.ports.outRoom = .all ∧ s.ports.nin = messageFirst hi [] ∧
      exec .decode s = .next (after .decode s) ∧ exec .decode s' = .next (after .decode s') ∧
      exec .encode s = .next (after .encode s) ∧ exec .encode s' = .next (after .encode s') ∧
      (after .decode s).regs.err = 0#8 := by
  refine ⟨?_, ?_, ?_, ?_, ?_, ?_, ?_, next_of_goesOn (by decide +kernel), next_of_goesOn (by decide +kernel),
    next_of_goesOn (by decide +kernel), next_of_goesOn (by decide +kernel), ?_⟩ <;> decide +kernel

theorem test_witness_AccessTableFrame :
    (exec .nop State.reset = .next (after .nop State.reset) ∧ Part.acc ∉ writes .nop) ∧
    (waitingD7.seq.phase.command = some .decode ∧ resume (waitingD7.fill five .ended) = .next (again (waitingD7.fill five .ended)) ∧
      Part.mode ∉ writes .decode) := by
  refine ⟨⟨next_of_goesOn (by decide +kernel), ?_⟩, ?_, next_of_goesOn (by decide +kernel), ?_⟩ <;> decide +kernel

theorem test_witness_OutputIsNeverWithdrawn :
    (∀ room, waiting.host.head? ≠ some (.openOut room)) ∧ ∃ t, step waiting = .next t :=
  ⟨by
    rw [show waiting.host = [] by decide +kernel]
    simp, stepped waiting, next_of_goesOn (by decide +kernel)⟩

/-- A `DECODE` that goes from D1 to D7, and an `ENCODE` that waits in E4. -/
theorem test_witness_PhasesAscend :
    (let s := after .decode (given [] .pending)
     let t := stepped { s with host := [.deliver (container.take 156)], regs := { s.regs with mode := 1#1 } }
     s.host.head? ≠ some .reset ∧ s.seq.phase = .d1 ∧ t.seq.phase = .d7) ∧
    (let s := { naming hi .same five with
       ports := { Ports.closed with inEnd := .pending, outRoom := .all, nin := messageFirst hi [] } }
     (after .encode s).host.head? ≠ some .reset ∧ (after .encode s).seq.phase.ofEncode = true) := by decide +kernel

/-- Each of the five ways to wait. -/
theorem test_witness_WaitingBlockStaysPut :
    (State.reset.host = [] ∧ State.reset.seq.phase = .idle ∧ State.reset.ports.cmd = none) ∧
    (let s := after .hdrUnpack (given (otherHeader.take 19) .pending)
     s.host = [] ∧ s.seq.got.length < s.seq.phase.reads ∧ unread s = [] ∧ inTail s.ports = .pending) ∧
    (waitingD7.host = [] ∧ waitingD7.seq.phase = .d7 ∧ waitingD7.seq.pend = [] ∧ unread waitingD7 = [] ∧
      inTail waitingD7.ports = .pending) ∧
    (let s := after .hdrPack (narrow 19 false (given [] .ended))
     s.host = [] ∧ 0 < s.seq.phase.hands ∧ s.seq.pend ≠ [] ∧ s.ports.outRoom = .upTo 0 false) ∧
    (let s := after .namePack (given [] .ended)
     s.host = [] ∧ s.seq.phase.takesName = true ∧ s.ports.nin = [] ∧ s.ports.ninFailed = false) := by decide +kernel

/-- A delivery cut in the middle of the header and one in the middle of the payload. -/
theorem test_witness_DeliveryCutsAreInvisible :
    let cut (n : Nat) : Prop :=
      inTail (sinking (container.take n) .pending).ports = .pending ∧
      (sinking (container.take n) .pending).seq.ipos ≤ (sinking (container.take n) .pending).ports.inData.length ∧
      exec .decode (sinking (container.take n) .pending) =
        .next (after .decode (sinking (container.take n) .pending)) ∧
      (after .decode (sinking (container.take n) .pending)).seq.phase ≠ .idle
    cut 10 ∧ cut 158 := by
  refine ⟨⟨?_, ?_, next_of_goesOn (by decide +kernel), ?_⟩, ?_, ?_, next_of_goesOn (by decide +kernel), ?_⟩ <;> decide +kernel

/-- An `OUT` that stops inside a header, and a name of which one unit has come. -/
theorem test_witness_OutAndNameCutsAreInvisible :
    (let s := narrow 19 false (given [] .ended)
     s.ports.outRoom = .upTo 19 false ∧ exec .hdrPack s = .next (after .hdrPack s) ∧
      (after .hdrPack s).seq.phase ≠ .idle) ∧
    (let s := (given [] .ended).supply [.unit 0x48#16] false
     s.ports.ninFailed = false ∧ exec .namePack s = .next (after .namePack s) ∧
      (after .namePack s).seq.phase ≠ .idle) := by
  refine ⟨⟨rfl, next_of_goesOn (by decide +kernel), ?_⟩, rfl, next_of_goesOn (by decide +kernel), ?_⟩ <;> decide +kernel

/-- Both cases: `IN` failed while bytes are left, and failed after its end has been returned. -/
theorem test_witness_FailureOfInIsMetAtTheNextAccess :
    (hostMove .failIn (given five .pending) = .next (nextOr State.reset (hostMove .failIn (given five .pending))) ∧
      (given five .pending).ports.inEos = false) ∧
    (let s := after .crcFeeds (given five .ended)
     hostMove .failIn s = .next (nextOr State.reset (hostMove .failIn s)) ∧ s.ports.inEos = true) := by
  refine ⟨⟨next_of_goesOn (by decide +kernel), rfl⟩, next_of_goesOn (by decide +kernel), ?_⟩
  decide +kernel

/-- A state that waits in D7 of a `DECODE`, with bytes to come, is sound. -/
theorem waitingD7_sound : waitingD7.Inv :=
  { nameBuf := by decide +kernel, err := by decide +kernel, codes := by decide +kernel, ipos := by decide +kernel,
    phase := by decide +kernel, got := by decide +kernel, pend := by decide +kernel, units := by decide +kernel,
    names := by decide +kernel, port := by decide +kernel, eos := by decide +kernel, verified := by decide +kernel,
    sink := by decide +kernel }

/-- So it is once its payload has come. -/
theorem waitingD7_filled_sound : (waitingD7.fill five .ended).Inv :=
  { nameBuf := by decide +kernel, err := by decide +kernel, codes := by decide +kernel, ipos := by decide +kernel,
    phase := by decide +kernel, got := by decide +kernel, pend := by decide +kernel, units := by decide +kernel,
    names := by decide +kernel, port := by decide +kernel, eos := by decide +kernel, verified := by decide +kernel,
    sink := by decide +kernel }

theorem test_witness_StepKeepsInvariant : waitingD7.Inv ∧ ∃ t, step waitingD7 = .next t :=
  ⟨waitingD7_sound, stepped waitingD7, next_of_goesOn (by decide +kernel)⟩

/-- A sound state whose step goes on, and one whose host breaks its duty. -/
theorem test_witness_SoundStatesNeverFault :
    waitingD7.Inv ∧ (∃ t, step waitingD7 = .next t) ∧
      step { waitingD7 with host := [.openIn [] .ended .same] } = .refused .hostDuty :=
  ⟨waitingD7_sound, ⟨stepped waitingD7, next_of_goesOn (by decide +kernel)⟩, refused_of_refusal (by decide +kernel)⟩

/-- A step that sets `VERIFIED`, and a `DECODE` that does. -/
theorem test_witness_VerifiedMeansVerified :
    (let s := waitingD7.fill five .ended
     s.Inv ∧ step s = .next (stepped s) ∧ s.regs.flags = 0#1 ∧ (stepped s).regs.flags = 1#1) ∧
    (let s := sinking container .ended
     exec .decode s = .next (after .decode s) ∧ (after .decode s).regs.flags ≠ s.regs.flags ∧
      (after .decode s).regs.flags = 1#1) := by
  refine ⟨⟨waitingD7_filled_sound, next_of_goesOn (by decide +kernel), ?_, ?_⟩, next_of_goesOn (by decide +kernel), ?_, ?_⟩ <;> decide +kernel

end Sys2Proof.Tests
end

section
/-! SUPPORT. What a command may do to the state between its start and its end, said once for each shared operation:
`Frame` (10_state.md R32), `Changes` (what the end of a command keeps) and `Within` (what a running command keeps). -/
namespace Sys2Proof.Machine

/-! ## The relations -/

/-- The part of the invariant that says nothing of a command's phase or of what is in transfer: what a command must have
kept when it ends. -/
structure State.Settled (s : State) : Prop where
  nameBuf : s.regs.nameBuf.length = 128
  err : s.regs.err ≤ 8#8
  codes : ∀ r ∈ s.ports.responses, r.code ≤ 8#8
  ipos : s.seq.ipos ≤ s.ports.inData.length
  eos : s.ports.inEos = true → unread s = [] ∧ s.ports.inEnd ≠ .pending
  names : ∀ us ∈ s.ports.nout, us.length ≤ 64 ∧ 0#16 ∉ us

/-- The invariant of a state inside a command: `State.Inv` without the claim that the phase is one a step can end in,
and without the claim on `SINK` in D7, which `State.Sinks` makes by itself. -/
structure State.Sound (s : State) : Prop extends State.Settled s where
  port : s.ports.cmd = none
  verified : s.seq.phase.ofDecode = true → s.regs.flags = 0#1
  got : s.seq.got.length ≤ s.seq.phase.reads
  pend : s.seq.pend.length ≤ s.seq.phase.hands
  units : s.seq.phase.takesName = false → s.seq.units = []

/-- In D7 the payload is copied only with `SINK = 1` (44_codec.md R140). -/
def State.Sinks (s : State) : Prop := s.seq.phase = .d7 → s.regs.mode = 1#1

/-- `t` differs from `s` only in the row of `c` in the write column (10_state.md R32), in what `c` may take from its
streams, and in the transfer in progress. -/
structure Frame (c : Instr) (s t : State) : Prop where
  parts : ∀ p : Part, p ∉ writes c → p.same s t
  cmd : t.ports.cmd = s.ports.cmd := by rfl
  host : t.host = s.host := by rfl
  inEnd : t.ports.inEnd = s.ports.inEnd := by rfl
  inRewind : t.ports.inRewind = s.ports.inRewind := by rfl
  ninFailed : t.ports.ninFailed = s.ports.ninFailed := by rfl
  nin : c ≠ .namePack → c ≠ .encode → t.ports.nin = s.ports.nin := by intros; rfl

/-- What the command `c` may have done to `s` by the time it ends in `t`, before it answers. -/
structure Changes (c : Instr) (s t : State) : Prop extends Frame c s t where
  flags : t.regs.flags = s.regs.flags := by rfl
  nout : t.ports.nout = s.ports.nout := by rfl
  settled : s.Sound → t.Settled

/-- What the command `c` may have done to `s` when it still runs in `t`: the phase is the same or a later one of the
same composite command (10_state.md R20). -/
structure Within (c : Instr) (s t : State) : Prop extends Changes c s t where
  ofDecode : t.seq.phase.ofDecode = s.seq.phase.ofDecode := by rfl
  ofEncode : t.seq.phase.ofEncode = s.seq.phase.ofEncode := by rfl
  rank : s.seq.phase.rank ≤ t.seq.phase.rank := by exact Nat.le_refl _
  sinks : s.Sinks → t.Sinks
  sound : s.Sound → t.Sound

theorem Part.same_refl (p : Part) (s : State) : p.same s s := by cases p <;> rfl

theorem Part.same_trans (p : Part) {s t u : State} (h₁ : p.same s t) (h₂ : p.same t u) : p.same s u := by
  cases p <;> exact h₂.trans h₁

theorem Frame.trans {c : Instr} {s t u : State} (h₁ : Frame c s t) (h₂ : Frame c t u) : Frame c s u where
  parts p hp := p.same_trans (h₁.parts p hp) (h₂.parts p hp)
  cmd := h₂.cmd.trans h₁.cmd
  host := h₂.host.trans h₁.host
  inEnd := h₂.inEnd.trans h₁.inEnd
  inRewind := h₂.inRewind.trans h₁.inRewind
  ninFailed := h₂.ninFailed.trans h₁.ninFailed
  nin hn he := (h₂.nin hn he).trans (h₁.nin hn he)

theorem Changes.refl (c : Instr) (s : State) : Changes c s s where
  parts p _ := p.same_refl s
  settled h := h.toSettled

theorem Within.refl (c : Instr) (s : State) : Within c s s where
  toChanges := .refl c s
  sinks h := h
  sound h := h

theorem Within.then_changes {c : Instr} {s t u : State} (h₁ : Within c s t) (h₂ : Changes c t u) : Changes c s u where
  toFrame := h₁.toFrame.trans h₂.toFrame
  flags := h₂.flags.trans h₁.flags
  nout := h₂.nout.trans h₁.nout
  settled h := h₂.settled (h₁.sound h)

theorem Within.trans {c : Instr} {s t u : State} (h₁ : Within c s t) (h₂ : Within c t u) : Within c s u where
  toChanges := h₁.then_changes h₂.toChanges
  ofDecode := h₂.ofDecode.trans h₁.ofDecode
  ofEncode := h₂.ofEncode.trans h₁.ofEncode
  rank := Nat.le_trans h₁.rank h₂.rank
  sinks h := h₂.sinks (h₁.sinks h)
  sound h := h₂.sound (h₁.sound h)

/-- Only one piece of state differs, and it is in the row of the command. -/
theorem parts_of_mem {c : Instr} {s t : State} {q : Part} (hq : q ∈ writes c) (h : ∀ p ≠ q, p.same s t) :
    ∀ p, p ∉ writes c → p.same s t :=
  fun p hp => h p fun hpq => hp (hpq ▸ hq)

/-! ## One rule per update -/

section
variable {c : Instr} (s : State)

/-- Registers that a command may write take new values; `FLAGS`, `ERR` and `MODE` keep theirs. -/
theorem within_regs {x : Regs} (hx : ∀ p, p ∉ writes c → p.same s { s with regs := x })
    (hflags : x.flags = s.regs.flags) (herr : x.err = s.regs.err) (hmode : x.mode = s.regs.mode)
    (hname : x.nameBuf = s.regs.nameBuf) : Within c s { s with regs := x } where
  parts := hx
  flags := hflags
  settled h := { h with nameBuf := hname ▸ h.nameBuf, err := herr ▸ h.err }
  sinks h h7 := hmode.trans (h h7)
  sound h :=
    { h with
      nameBuf := hname ▸ h.nameBuf
      err := herr ▸ h.err
      verified := fun hd => hflags.trans (h.verified hd) }

theorem within_acc (hc : .acc ∈ writes c) (a : Word) : Within c s { s with regs.acc := a } :=
  within_regs s (parts_of_mem hc fun p hp => by cases p <;> simp_all [Part.same]) rfl rfl rfl rfl

theorem within_hck (hc : .hck ∈ writes c) (v : Word) : Within c s { s with regs.hck := v } :=
  within_regs s (parts_of_mem hc fun p hp => by cases p <;> simp_all [Part.same]) rfl rfl rfl rfl

theorem within_pck (hc : .pck ∈ writes c) (v : Word) : Within c s { s with regs.pck := v } :=
  within_regs s (parts_of_mem hc fun p hp => by cases p <;> simp_all [Part.same]) rfl rfl rfl rfl

theorem within_setNameLen (hc : .nameLen ∈ writes c) (n : Nat) : Within c s (setNameLen n s) :=
  within_regs s (parts_of_mem hc fun p hp => by cases p <;> simp_all [Part.same]) rfl rfl rfl rfl

/-- A running command stores a name field; that the field is whole may rest on what held before the field was read. -/
theorem Within.nameBuf {s t : State} (hw : Within c s t) (hc : .nameBuf ∈ writes c) {field : List Byte}
    (hf : s.Sound → field.length = 128) : Within c s { t with regs.nameBuf := field } :=
  { hw with
    toFrame := hw.toFrame.trans
      { parts := parts_of_mem hc fun p hp => by cases p <;> simp_all [Part.same] }
    settled := fun h => { hw.settled h with nameBuf := hf h }
    sound := fun h => { hw.sound h with nameBuf := hf h } }

theorem within_hf (hc : Part.header ⊆ writes c) (x : Header) : Within c s { s with regs.hf := x } := by
  refine within_regs s (fun p hp => ?_) rfl rfl rfl rfl
  have : p ∉ Part.header := fun h => hp (hc h)
  cases p <;> simp_all [Part.same, Part.header]

/-- A write to an index changes only the piece of state at that index (10_state.md R28). -/
theorem writeReg_same {r : Reg} (v : Word) {p : Part} (hp : p ≠ Reg.part r) :
    p.same s { s with regs := writeReg r v s.regs } := by
  cases r <;> cases p <;> simp_all [Part.same, writeReg, Reg.part]

theorem changes_writeReg {r : Reg} (hc : Reg.part r ∈ writes c) (v : Word) :
    Changes c s { s with regs := writeReg r v s.regs } where
  parts := parts_of_mem hc fun _ hp => writeReg_same s v hp
  flags := by cases r <;> rfl
  settled h :=
    { h with
      nameBuf := by cases r <;> exact h.nameBuf
      err := by cases r <;> exact h.err }

theorem length_freeBytes (n : Nat) : (freeBytes n).length = 128 := by simp [freeBytes, Config.nameLen]

theorem changes_scrambleName (hc : .nameBuf ∈ writes c) : Changes c s (scrambleName s) where
  parts := parts_of_mem hc fun p hp => by cases p <;> simp_all [Part.same]
  settled h := { h with nameBuf := length_freeBytes _ }

theorem sound_begin {s : State} {p : Phase} (h : s.Sound) (hp : p.ofDecode = true → s.regs.flags = 0#1) :
    (begin p s).Sound :=
  { h with
    verified := hp
    got := Nat.zero_le _
    pend := Nat.zero_le _
    units := fun _ => rfl }

/-- The command enters a phase of the same command that does not stand before the present one; D7 with `SINK = 1`. -/
theorem within_begin {p q : Phase} (hp : s.seq.phase = p) (hd : q.ofDecode = p.ofDecode := by rfl)
    (he : q.ofEncode = p.ofEncode := by rfl) (hr : p.rank ≤ q.rank := by decide)
    (h7 : q = .d7 → s.regs.mode = 1#1 := by simp) : Within c s (begin q s) where
  parts q _ := by cases q <;> rfl
  ofDecode := by rw [hp]; exact hd
  ofEncode := by rw [hp]; exact he
  rank := by rw [hp]; exact hr
  settled h := { h with }
  sinks _ := h7
  sound h := sound_begin h fun hq => h.verified (by rw [hp, ← hd]; exact hq)

theorem within_pend {bytes : List Byte} (hb : s.Sound → bytes.length ≤ s.seq.phase.hands) :
    Within c s { s with seq.pend := bytes } where
  parts p _ := by cases p <;> rfl
  settled h := { h with }
  sinks h := h
  sound h := { h with pend := hb h }

/-- `n` delivered bytes are consumed; `bytes` are those that a `ReadExact` holds. -/
theorem within_advanced (hc : .ipos ∈ writes c) {n : Nat} (hn : n ≤ (unread s).length) {bytes : List Byte}
    (hb : s.Sound → bytes.length ≤ s.seq.phase.reads) : Within c s (advanced n bytes s) := by
  have hunread : unread (advanced n bytes s) = (unread s).drop n := by simp [unread]
  have hsettled (h : s.Sound) : (advanced n bytes s).Settled :=
    { h with
      ipos := by
        have := h.ipos
        simp only [unread, List.length_drop] at hn
        simp only
        omega
      eos := fun he => by
        obtain ⟨hu, hend⟩ := h.eos he
        exact ⟨by simp [hunread, hu], hend⟩ }
  exact
    { parts := parts_of_mem hc fun p hp => by cases p <;> simp_all [Part.same]
      settled := hsettled
      sinks := fun h => h
      sound := fun h => { h with toSettled := hsettled h, got := hb h } }

/-- End of stream is returned only where the stream has ended (20_memory.md R47 b). -/
theorem within_endSeen (hu : unread s = []) (ht : inTail s.ports = .ended) : Within c s (endSeen s) := by
  have heos (h : s.Sound) : unread s = [] ∧ s.ports.inEnd ≠ .pending := by
    cases he : s.ports.inEos with
    | true => exact h.eos he
    | false =>
      have : s.ports.inEnd = .ended := by simpa [inTail, he] using ht
      exact ⟨hu, by simp [this]⟩
  exact
    { parts := fun p _ => by cases p <;> rfl
      settled := fun h => { h with eos := fun _ => heos h }
      sinks := fun h => h
      sound := fun h => { h with eos := fun _ => heos h } }

theorem within_accept (hc : [.out, .opos] ⊆ writes c) (n : Nat) (room : Room) : Within c s (accept n room s) where
  parts p hp := by
    have : p ∉ [Part.out, Part.opos] := fun h => hp (hc h)
    cases p <;> simp_all [Part.same]
  settled h := { h with }
  sinks h := h
  sound h :=
    { h with
      pend := by
        have := h.pend
        simp only [accept_seq, List.length_drop]
        omega }

/-- Items are taken from `NIN`; units are held only in a phase that takes a name. -/
theorem within_takes (hc : c = .namePack ∨ c = .encode) {items : List NinItem} {us : List CodeUnit}
    (hus : us = [] ∨ s.seq.phase.takesName = true) :
    Within c s { s with ports.nin := items, seq.units := us } where
  parts p _ := by cases p <;> rfl
  nin hn he := by simp_all
  settled h := { h with }
  sinks h := h
  sound h := { h with units := fun ht => by simp_all }

/-- What a rewind leaves of `IN` (20_memory.md R50). -/
theorem within_rewound (hc : .ipos ∈ writes c) (bytes : List Byte) :
    Within c s { s with seq.ipos := 0, ports.inEos := false, ports.inData := bytes } where
  parts := parts_of_mem hc fun p hp => by cases p <;> simp_all [Part.same]
  settled h := { h with ipos := Nat.zero_le _, eos := fun he => by simp at he }
  sinks h := h
  sound h := { h with ipos := Nat.zero_le _, eos := fun he => by simp at he }

end

end Sys2Proof.Machine
end

section
/-! SUPPORT. Each stream primitive and loop (20_memory.md R47 to R50) keeps what a running command keeps. -/
namespace Sys2Proof.Machine

/-- However a stream primitive comes out, the command has stayed within its bounds; where it does not fault, the phase
is the same, and where it goes on, `post` holds. -/
def Flow.Keeps {α : Type} (c : Instr) (s : State) (post : α → State → Prop) (f : Flow α) : Prop :=
  match f with
  | .go a t => Within c s t ∧ t.seq.phase = s.seq.phase ∧ post a t
  | .wait t => Within c s t ∧ t.seq.phase = s.seq.phase
  | .fail _ t => Within c s t

section
variable {c : Instr} {s : State}

theorem Flow.Keeps.after {α : Type} {m : State} {post : α → State → Prop} {f : Flow α} (hw : Within c s m)
    (hp : m.seq.phase = s.seq.phase) (hf : f.Keeps c m post) : f.Keeps c s post := by
  match f, hf with
  | .go _ _, ⟨hwt, hpt, hpost⟩ => exact ⟨hw.trans hwt, hpt.trans hp, hpost⟩
  | .wait _, ⟨hwt, hpt⟩ => exact ⟨hw.trans hwt, hpt.trans hp⟩
  | .fail _ _, hwt => exact hw.trans hwt

theorem unread_advanced_all (bytes : List Byte) : unread (advanced (unread s).length bytes s) = [] := by
  simp only [unread, List.drop_eq_nil_iff, List.length_drop]
  omega

theorem keeps_atEnd (hu : unread s = []) : (atEnd s).Keeps c s fun _ _ => True := by
  unfold atEnd
  cases ht : inTail s.ports with
  | pending => exact ⟨.refl c s, rfl⟩
  | ended => exact ⟨within_endSeen s hu ht, rfl, trivial⟩
  | failed => exact .refl c s

/-- `ReadExact` of as many bytes as the phase wants gives that many (20_memory.md R48). -/
theorem keeps_readExact (hc : .ipos ∈ writes c) {k : Nat} (hk : s.seq.phase.reads = k) (cause : Cause) :
    (readExact k cause s).Keeps c s fun bytes _ => s.Sound → bytes.length = k := by
  unfold readExact
  rcases Nat.lt_or_ge (unread s).length (k - s.seq.got.length) with hshort | henough
  · have hadv : Within c s (advanced (unread s).length (s.seq.got ++ unread s) s) :=
      within_advanced s hc (Nat.le_refl _) fun _ => by rw [List.length_append]; omega
    rw [collect_short _ _ _ hshort]
    cases ht : inTail s.ports with
    | pending => exact ⟨hadv, rfl⟩
    | ended => exact hadv.trans (within_endSeen _ (unread_advanced_all _) ht)
    | failed => exact hadv
  · rw [collect_enough _ _ _ henough]
    refine ⟨within_advanced s hc henough fun _ => Nat.zero_le _, rfl, fun hs => ?_⟩
    have := hs.got
    rw [List.length_append, List.length_take]
    omega

theorem keeps_feedAll (hi : .ipos ∈ writes c) (ha : .acc ∈ writes c) :
    (feedAll (unread s) s).Keeps c s fun _ _ => True := by
  rw [feedAll_eq]
  have hadv : Within c s (advanced (unread s).length s.seq.got s) :=
    within_advanced s hi (Nat.le_refl _) fun hs => hs.got
  exact .after (hadv.trans (within_acc _ ha _)) rfl (keeps_atEnd (unread_advanced_all _))

/-- `OutWrite` moves nothing on `IN`. -/
theorem keeps_flush (hc : [.out, .opos] ⊆ writes c) : (flush s).Keeps c s fun _ t => unread t = unread s := by
  unfold flush
  split
  · exact ⟨within_accept s hc _ _, rfl, rfl⟩
  · split
    · exact ⟨within_accept s hc _ _, rfl, rfl⟩
    · split
      · exact within_accept s hc _ _
      · exact ⟨within_accept s hc _ _, rfl⟩

theorem keeps_copyInHand {sum : Bool} (hc : [.out, .opos] ⊆ writes c) (ha : .acc ∈ writes c) :
    (copyInHand sum s).Keeps c s fun _ t => unread t = unread s := by
  unfold copyInHand
  split
  · exact ⟨.refl c s, rfl, rfl⟩
  · have hflush := keeps_flush (s := s) hc
    split <;> rename_i hf <;> rw [hf] at hflush
    · obtain ⟨hw, hp, hu⟩ := hflush
      cases sum with
      | true => exact ⟨hw.trans (within_acc _ ha _), hp, hu⟩
      | false => exact ⟨hw, hp, hu⟩
    · exact hflush
    · exact hflush

/-- The copy loop, in a phase that writes single bytes: byte after byte is consumed, taken in hand and written. -/
theorem keeps_copyAll {sum : Bool} (hi : .ipos ∈ writes c) (hc : [.out, .opos] ⊆ writes c) (ha : .acc ∈ writes c)
    (bytes : List Byte) (hu : unread s = bytes) (h1 : s.seq.phase.hands = 1) :
    (copyAll sum bytes s).Keeps c s fun _ _ => True := by
  induction bytes generalizing s with
  | nil => exact keeps_atEnd hu
  | cons b rest ih =>
    have hhand : Within c s { consume s with seq.pend := [b] } :=
      (within_advanced s hi (n := 1) (by simp [hu]) fun hs => hs.got).trans (within_pend _ fun _ => by simp [h1])
    have hrest : unread { consume s with seq.pend := [b] } = rest := by
      have := congrArg List.tail hu
      simpa [unread, List.tail_drop] using this
    have hcopy := keeps_copyInHand (s := { consume s with seq.pend := [b] }) (sum := sum) hc ha
    unfold copyAll
    split <;> rename_i hf <;> rw [hf] at hcopy
    · obtain ⟨hw, hp, hu'⟩ := hcopy
      exact .after (hhand.trans hw) hp (ih (hu'.trans hrest) (hp ▸ h1))
    · exact ⟨hhand.trans hcopy.1, hcopy.2⟩
    · exact hhand.trans hcopy

theorem keeps_copyOn {sum : Bool} (hi : .ipos ∈ writes c) (hc : [.out, .opos] ⊆ writes c) (ha : .acc ∈ writes c)
    (h1 : s.seq.phase.hands = 1) : (copyOn sum s).Keeps c s fun _ _ => True := by
  have hcopy := keeps_copyInHand (s := s) (sum := sum) hc ha
  unfold copyOn
  split <;> rename_i hf <;> rw [hf] at hcopy
  · obtain ⟨hw, hp, -⟩ := hcopy
    exact .after hw hp (keeps_copyAll hi hc ha _ rfl (hp ▸ h1))
  · exact hcopy
  · exact hcopy

theorem keeps_takeUnits (hc : c = .namePack ∨ c = .encode) (ht : s.seq.phase.takesName = true)
    (items : List NinItem) : (takeUnits items s).Keeps c s fun _ _ => True := by
  induction items generalizing s with
  | nil =>
    unfold takeUnits
    split
    · exact .refl c s
    · exact ⟨.refl c s, rfl⟩
  | cons item rest ih =>
    cases item with
    | unit u =>
      have htaken : Within c s { s with ports.nin := rest, seq.units := s.seq.units ++ [u] } :=
        within_takes s hc (.inr ht)
      exact .after htaken rfl (ih ht)
    | done => exact ⟨within_takes s hc (.inl rfl), rfl, trivial⟩

theorem rewindIn_ne_wait (s t : State) : rewindIn s ≠ .wait t := by
  unfold rewindIn
  split
  · simp
  · split <;> simp

theorem keeps_rewindIn (hc : .ipos ∈ writes c) : (rewindIn s).Keeps c s fun _ _ => True := by
  unfold rewindIn
  split
  · exact .refl c s
  · split
    · exact ⟨within_rewound s hc s.ports.inData, rfl, trivial⟩
    · exact ⟨within_rewound s hc _, rfl, trivial⟩
    · exact .refl c s

end

end Sys2Proof.Machine
end

section
/-! SUPPORT. What every command comes to: `Outcome` says how a start or a resumption can leave the state, and each
meaning of the model, phase by phase, has such an outcome. -/
namespace Sys2Proof.Machine

/-- How a running command `c` can leave the state `s`: it waits, it ends (a `NOP` or `REG.RD` without writing `ERR`), it
takes a fault, it ends and hands over a name, or it does so with `VERIFIED` set. -/
inductive Outcome (c : Instr) (s : State) : State → Prop
  | waits {t : State} (h : Within c s t) (hr : c.wf = true → t.seq.phase.restful = true) : Outcome c s t
  | quiet {m : State} {data : Word} (h : Changes c s m) : Outcome c s (finishQuiet data m)
  | ends {m : State} (h : Changes c s m) (he : .err ∈ writes c) : Outcome c s (finish m)
  | faults {m : State} {cause : Cause} (h : Changes c s m) (he : .err ∈ writes c) : Outcome c s (raise cause m)
  | names {m : State} {us : List CodeUnit} (h : Changes c s m)
      (hc : c = .nameUnpack ∨ c = .decode ∧ s.seq.phase.ofDecode = true)
      (hus : s.Sound → us.length ≤ 64 ∧ 0#16 ∉ us) : Outcome c s (finish (noutMsg us m))
  | verifies {m : State} {us : List CodeUnit} (h : Changes c s m) (hc : c = .decode)
      (hd : s.seq.phase.ofDecode = true) (hsum : m.regs.acc = m.regs.pck) (hsink : s.Sinks → m.regs.mode = 1#1)
      (hus : s.Sound → us.length ≤ 64 ∧ 0#16 ∉ us) : Outcome c s (finish (noutMsg us (setVerified m)))

section
variable {c : Instr} {s t : State}

theorem Outcome.after {m : State} (hw : Within c s m) (ho : Outcome c m t) : Outcome c s t := by
  cases ho with
  | waits h hr => exact .waits (hw.trans h) hr
  | quiet h => exact .quiet (hw.then_changes h)
  | ends h he => exact .ends (hw.then_changes h) he
  | faults h he => exact .faults (hw.then_changes h) he
  | names h hc hus =>
    exact .names (hw.then_changes h) (hc.imp_right fun ⟨hc, hd⟩ => ⟨hc, hw.ofDecode ▸ hd⟩) fun hs => hus (hw.sound hs)
  | verifies h hc hd hsum hsink hus =>
    exact .verifies (hw.then_changes h) hc (hw.ofDecode ▸ hd) hsum (fun hs => hsink (hw.sinks hs))
      fun hs => hus (hw.sound hs)

theorem Outcome.ends_within {m : State} (h : Within c s m) (he : .err ∈ writes c) : Outcome c s (finish m) :=
  .ends h.toChanges he

/-- A stream access and what follows it: only the case in which the access goes on is left to show. -/
theorem outcome_andThen {α : Type} {post : α → State → Prop} {f : Flow α} {k : α → State → State}
    (hf : f.Keeps c s post) (he : .err ∈ writes c) (hr : c.wf = true → s.seq.phase.restful = true)
    (hk : ∀ a m, m.seq.phase = s.seq.phase → Outcome c m (k a m)) : Outcome c s (f.andThen k) := by
  match f, hf with
  | .go a m, ⟨hw, hp, _⟩ => exact .after hw (hk a m hp)
  | .wait m, ⟨hw, hp⟩ => exact .waits hw fun hc => hp ▸ hr hc
  | .fail _ m, hw => exact .faults hw.toChanges he

/-- A rewind (which never waits) and what follows it. -/
theorem outcome_rewindIn {k : Unit → State → State} (hi : .ipos ∈ writes c) (he : .err ∈ writes c)
    (hk : ∀ m, m.seq.phase = s.seq.phase → Outcome c m (k () m)) : Outcome c s ((rewindIn s).andThen k) := by
  have hrewind := keeps_rewindIn (s := s) hi
  match hf : rewindIn s with
  | .go _ m =>
    rw [hf] at hrewind
    exact .after hrewind.1 (hk m hrewind.2.1)
  | .wait m => exact absurd hf (rewindIn_ne_wait s m)
  | .fail _ m =>
    rw [hf] at hrewind
    exact .faults hrewind.toChanges he

/-- The read of a name field and what follows it. -/
theorem outcome_readName {k : State → State} (hc : [.ipos, .nameBuf, .err] ⊆ writes c)
    (hp : s.seq.phase.reads = 128) (hr : s.seq.phase.restful = true)
    (hk : ∀ m, m.seq.phase = s.seq.phase → Outcome c m (k m)) : Outcome c s (readName k s) := by
  have hi : .ipos ∈ writes c := hc (by simp)
  have hb : .nameBuf ∈ writes c := hc (by simp)
  have hread := keeps_readExact hi hp .nameFieldTruncated
  unfold readName
  split <;> rename_i hf <;> rw [show 128 = Config.nameLen from rfl, hf] at hread
  · obtain ⟨hw, hpm, hlen⟩ := hread
    exact .after (hw.nameBuf hb hlen) (hk _ hpm)
  · exact .waits hread.1 fun _ => hread.2 ▸ hr
  · exact .faults (hread.then_changes (changes_scrambleName _ hb)) (hc (by simp))

end

/-! ## Names -/

theorem length_unitsOf (field : List Byte) : (unitsOf field).length = field.length / 2 := by
  induction field using unitsOf.induct with
  | case1 lo hi rest ih => simp only [unitsOf, List.length_cons, ih]; omega
  | case2 b => simp [unitsOf]
  | case3 => simp [unitsOf]

/-- A name unpacked from a whole field has at most 64 units and no NUL (10_state.md R24, 43_name.md R125). -/
theorem nameUnpack_bounds {field : List Byte} (h : field.length = 128) :
    (nameUnpack field).length ≤ 64 ∧ 0#16 ∉ nameUnpack field := by
  constructor
  · have := (List.takeWhile_prefix (p := (· != 0#16)) (l := unitsOf field)).length_le
    rw [length_unitsOf, h] at this
    exact this
  · intro hmem
    have := List.all_eq_true.mp List.all_takeWhile _ hmem
    simp at this

/-- A packed name fills the field (43_name.md R123). -/
theorem length_namePack (us : List CodeUnit) : (namePack us).1.length = 128 := by
  have hkept : (nameKept us).length ≤ 128 := by
    unfold nameKept
    have htake : ((nameBytes us).take Config.nameLen).length ≤ 128 := List.length_take_le _ _
    dsimp only
    split
    · exact Nat.le_trans (List.length_take_le' _ _) htake
    · exact htake
  simp only [namePack, List.length_append, List.length_replicate, Config.nameLen]
  omega

theorem within_storeName {c : Instr} {s : State} (hc : [.nameBuf, .nameLen] ⊆ writes c) (us : List CodeUnit) :
    Within c s (storeName us s) :=
  ((Within.refl c s).nameBuf (hc (by simp)) fun _ => length_namePack us).trans
    (within_setNameLen _ (hc (by simp)) _)

/-! ## Commands with one stream access -/

section
variable {s : State}

theorem outcome_goCrcFeeds (h : s.seq.phase = .prim .crcFeeds) : Outcome .crcFeeds s (goCrcFeeds s) :=
  outcome_andThen (keeps_feedAll (by decide) (by decide)) (by decide) (fun _ => by rw [h]; rfl)
    fun _ m _ => .ends (.refl _ m) (by decide)

theorem outcome_goFldIn {r : Reg} (h : s.seq.phase = .prim (.fldIn r)) : Outcome (.fldIn r) s (goFldIn r s) :=
  outcome_andThen (keeps_readExact (by simp [writes]) (by rw [h]; rfl) _) (by simp [writes])
    (fun hr => by rw [h]; exact hr) fun _ m _ => .ends (changes_writeReg m (by simp [writes]) _) (by simp [writes])

theorem outcome_goHdrUnpack (h : s.seq.phase = .prim .hdrUnpack) : Outcome .hdrUnpack s (goHdrUnpack s) :=
  outcome_andThen (keeps_readExact (by decide) (by rw [h]; rfl) _) (by decide) (fun _ => by rw [h]; rfl)
    fun _ m _ => .ends_within (within_hf m (by decide) _) (by decide)

/-- `FLD.OUT`, `HDR.PACK` and `NAME.OUT`. -/
theorem outcome_goWrite {c : Instr} (hc : [.out, .opos, .err] ⊆ writes c)
    (hr : c.wf = true → s.seq.phase.restful = true) : Outcome c s (goWrite s) :=
  have he : .err ∈ writes c := hc (by simp)
  outcome_andThen (keeps_flush (List.Subset.trans (by decide) hc)) he hr fun _ m _ => .ends (.refl _ m) he

theorem outcome_goNameIn (h : s.seq.phase = .prim .nameIn) : Outcome .nameIn s (goNameIn s) :=
  outcome_readName (by decide) (by rw [h]; rfl) (by rw [h]; rfl) fun m _ => .ends (.refl _ m) (by decide)

theorem outcome_goNamePack (h : s.seq.phase = .prim .namePack) : Outcome .namePack s (goNamePack s) :=
  outcome_andThen (keeps_takeUnits (.inl rfl) (by rw [h]; rfl) _) (by decide) (fun _ => by rw [h]; rfl)
    fun us m _ => .ends_within (within_storeName (by decide) us) (by decide)

theorem outcome_goPayCopy (h : s.seq.phase = .prim .payCopy) : Outcome .payCopy s (goPayCopy s) :=
  outcome_andThen (keeps_copyOn (by decide) (by decide) (by decide) (by rw [h]; rfl)) (by decide)
    (fun _ => by rw [h]; rfl) fun _ m _ => .ends (.refl _ m) (by decide)

end

/-! ## `DECODE`, last phase first (44_codec.md R137) -/

section
variable {s : State}

/-- The name is handed over; `begin .d8` leaves no trace behind `finish`. -/
theorem outcome_enterD8 (hd : s.seq.phase.ofDecode = true) : Outcome .decode s (enterD8 s) :=
  .names (m := s) (.refl _ s) (.inr ⟨rfl, hd⟩) fun hs => nameUnpack_bounds hs.nameBuf

theorem outcome_checkPayload (h : s.seq.phase = .d7) : Outcome .decode s (checkPayload s) := by
  unfold checkPayload
  split
  · exact .faults (.refl _ s) (by decide)
  · rename_i hsum
    exact .verifies (m := s) (.refl _ s) rfl (by rw [h]; rfl) (Decidable.not_not.mp hsum) (fun hs => hs h)
      fun hs => nameUnpack_bounds hs.nameBuf

theorem outcome_goD7 (h : s.seq.phase = .d7) : Outcome .decode s (goD7 s) :=
  outcome_andThen (keeps_copyOn (by decide) (by decide) (by decide) (by rw [h]; rfl)) (by decide)
    (fun _ => by rw [h]; rfl) fun _ _ hm => outcome_checkPayload (hm.trans h)

theorem outcome_enterD7 (h : s.seq.phase = .d6) : Outcome .decode s (enterD7 s) := by
  unfold enterD7
  split
  · rename_i hsink
    have hbegin : Within .decode s (begin .d7 s) := within_begin s h (h7 := fun _ => by simpa [sinkOn] using hsink)
    exact .after (hbegin.trans (within_acc _ (by decide) 0#32)) (outcome_goD7 rfl)
  · exact outcome_enterD8 (s := s) (by rw [h]; rfl)

theorem outcome_enterD6 (h : s.seq.phase = .d5) : Outcome .decode s (enterD6 s) :=
  .after ((within_begin s h).trans (within_setNameLen _ (by decide) _)) (outcome_enterD7 rfl)

theorem outcome_goD5 (h : s.seq.phase = .d5) : Outcome .decode s (goD5 s) :=
  outcome_readName (by decide) (by rw [h]; rfl) (by rw [h]; rfl) fun _ hm => outcome_enterD6 (hm.trans h)

theorem outcome_goD4 (h : s.seq.phase = .d4) : Outcome .decode s (goD4 s) :=
  outcome_andThen (keeps_readExact (by decide) (by rw [h]; rfl) _) (by decide) (fun _ => by rw [h]; rfl)
    fun bytes m hm =>
      .after ((within_pck m (by decide) (u32le bytes)).trans (within_begin _ (hm.trans h))) (outcome_goD5 rfl)

theorem outcome_enterD3 (h : s.seq.phase = .d2) : Outcome .decode s (enterD3 s) := by
  have hsummed : Within .decode s { begin .d3 s with regs.acc := hdrCk (pack s.regs.hf) } :=
    (within_begin s h).trans (within_acc _ (by decide) _)
  unfold enterD3
  dsimp only
  split
  · exact .faults hsummed.toChanges (by decide)
  · exact .after (hsummed.trans (within_begin _ (p := .d3) rfl)) (outcome_goD4 rfl)

theorem outcome_goD2 (h : s.seq.phase = .d2) : Outcome .decode s (goD2 s) :=
  outcome_andThen (keeps_readExact (by decide) (by rw [h]; rfl) _) (by decide) (fun _ => by rw [h]; rfl)
    fun _ m hm => .after (within_hck m (by decide) _) (outcome_enterD3 (hm.trans h))

theorem outcome_goD1 (h : s.seq.phase = .d1) : Outcome .decode s (goD1 s) :=
  outcome_andThen (keeps_readExact (by decide) (by rw [h]; rfl) _) (by decide) (fun _ => by rw [h]; rfl)
    fun bytes m hm =>
      .after ((within_hf m (by decide) (unpack bytes)).trans (within_begin _ (hm.trans h))) (outcome_goD2 rfl)

end

/-! ## `ENCODE`, last phase first (44_codec.md R144) -/

section
variable {s : State}

theorem outcome_goE7 (h : s.seq.phase = .e7) : Outcome .encode s (goE7 s) :=
  outcome_andThen (keeps_copyOn (by decide) (by decide) (by decide) (by rw [h]; rfl)) (by decide)
    (fun _ => by rw [h]; rfl) fun _ m _ => .ends (.refl _ m) (by decide)

theorem outcome_enterE6 (h : s.seq.phase = .e5) : Outcome .encode s (enterE6 s) :=
  .after (within_begin s h) <| outcome_rewindIn (by decide) (by decide) fun m hm =>
    .after (within_begin m (p := .e6) hm) (outcome_goE7 rfl)

theorem outcome_goE5 (h : s.seq.phase = .e5) : Outcome .encode s (goE5 s) :=
  outcome_andThen (keeps_flush (by decide)) (by decide) (fun _ => by rw [h]; rfl)
    fun _ _ hm => outcome_enterE6 (hm.trans h)


theorem outcome_enterE5 (h : s.seq.phase = .e4) : Outcome .encode s (enterE5 s) :=
  .after ((within_begin s h).trans (within_pend _ fun hs => Nat.le_of_eq hs.nameBuf)) (outcome_goE5 rfl)

theorem outcome_writePck (h : s.seq.phase = .e4) : Outcome .encode s (writePck s) :=
  outcome_andThen (keeps_flush (by decide)) (by decide) (fun _ => by rw [h]; rfl)
    fun _ _ hm => outcome_enterE5 (hm.trans h)

theorem outcome_feedE4 (h : s.seq.phase = .e4) : Outcome .encode s (feedE4 s) :=
  outcome_andThen (keeps_feedAll (by decide) (by decide)) (by decide) (fun _ => by rw [h]; rfl)
    fun _ m hm =>
      .after ((within_pck m (by decide) _).trans (within_pend _ fun _ => by rw [hm.trans h]; exact Nat.le_refl _))
        (outcome_writePck (hm.trans h))

theorem outcome_goE4 (h : s.seq.phase = .e4) : Outcome .encode s (goE4 s) := by
  unfold goE4
  split
  · exact outcome_feedE4 h
  · exact outcome_writePck h

theorem outcome_enterE4 (h : s.seq.phase = .e3) : Outcome .encode s (enterE4 s) :=
  .after ((within_begin s h).trans (within_acc _ (by decide) _)) (outcome_feedE4 rfl)

theorem outcome_goE3 (h : s.seq.phase = .e3) : Outcome .encode s (goE3 s) :=
  outcome_andThen (keeps_flush (by decide)) (by decide) (fun _ => by rw [h]; rfl)
    fun _ _ hm => outcome_enterE4 (hm.trans h)

theorem outcome_enterE3 (h : s.seq.phase = .e2) : Outcome .encode s (enterE3 s) :=
  .after
    ((within_begin s h).trans <| (within_acc _ (by decide) _).trans <| (within_hck _ (by decide) _).trans <|
      within_pend _ fun _ => Nat.le_refl _)
    (outcome_goE3 rfl)

theorem outcome_goE2 (h : s.seq.phase = .e2) : Outcome .encode s (goE2 s) :=
  outcome_andThen (keeps_flush (by decide)) (by decide) (fun _ => by rw [h]; rfl)
    fun _ _ hm => outcome_enterE3 (hm.trans h)

theorem outcome_enterE2 (h : s.seq.phase = .e1) : Outcome .encode s (enterE2 s) :=
  .after ((within_begin s h).trans <| (within_hf _ (by decide) _).trans <| within_pend _ fun _ => Nat.le_refl _)
    (outcome_goE2 rfl)

theorem outcome_goE1 (h : s.seq.phase = .e1) : Outcome .encode s (goE1 s) :=
  outcome_andThen (keeps_takeUnits (.inr rfl) (by rw [h]; rfl) _) (by decide) (fun _ => by rw [h]; rfl)
    fun us m hm => .after (within_storeName (by decide) us) (outcome_enterE2 (hm.trans h))

end

/-! ## Every command, started and taken up again -/

/-- Where a command begins: one that can wait in its first phase with nothing in transfer, `DECODE` with `VERIFIED`
cleared, and any other where it is. -/
def start (c : Instr) (s : State) : State :=
  match c with
  | .decode => clearVerified (begin .d1 s)
  | .encode => begin .e1 s
  | c => if waits c then begin (.prim c) s else s

section
variable {c : Instr} {s t : State}

theorem outcome_regWr (r : Reg) (v : Word) :
    Outcome (.regWr r v) s (ifLegal r.writable (fun s => finish { s with regs := writeReg r v s.regs }) s) := by
  unfold ifLegal
  split
  · exact .ends (changes_writeReg s (by simp [writes]) v) (by simp [writes])
  · exact .faults (.refl _ s) (by simp [writes])

theorem outcome_fldIn (r : Reg) :
    Outcome (.fldIn r) (start (.fldIn r) s)
      (ifLegal r.fieldIn (fun s => goFldIn r (begin (.prim (.fldIn r)) s)) s) := by
  cases hr : r.fieldIn <;> simp only [ifLegal, start, waits, hr, if_true, Bool.false_eq_true, if_false]
  · exact .faults (.refl _ s) (by simp [writes])
  · exact outcome_goFldIn rfl

theorem outcome_fldOut (r : Reg) :
    Outcome (.fldOut r) (start (.fldOut r) s)
      (ifLegal r.fieldOut (fun s => writeOut (.fldOut r) (le32 (readReg r s.regs)) s) s) := by
  cases hr : r.fieldOut <;> simp only [ifLegal, start, waits, hr, if_true, Bool.false_eq_true, if_false]
  · exact .faults (.refl _ s) (by simp [writes])
  · exact .after (within_pend _ fun _ => Nat.le_refl _) (outcome_goWrite (by simp [writes]) id)

/-- Every command has an outcome from the state in which it begins. -/
theorem exec_outcome (h : exec c s = .next t) : Outcome c (start c s) t := by
  cases c <;> obtain rfl := Host.Outcome.next.inj h
  case nop => exact .quiet (.refl _ s)
  case crcLoad v => exact .ends_within (within_acc s (List.mem_cons_self ..) v) (by simp [writes])
  case crcFeed b => exact .ends_within (within_acc s (List.mem_cons_self ..) _) (by simp [writes])
  case crcFeeds => exact outcome_goCrcFeeds rfl
  case regRd r => exact .quiet (.refl _ s)
  case regWr r v => exact outcome_regWr r v
  case fldIn r => exact outcome_fldIn r
  case fldOut r => exact outcome_fldOut r
  case hdrDflt => exact .ends_within (within_hf s (by decide) _) (by decide)
  case hdrUnpack => exact outcome_goHdrUnpack rfl
  case hdrPack => exact .after (within_pend _ fun _ => Nat.le_refl _) (outcome_goWrite (by decide) fun _ => rfl)
  case hdrCrc => exact .ends_within (within_acc s (by decide) _) (by decide)
  case nameIn => exact outcome_goNameIn rfl
  case nameOut => exact .after (within_pend _ fun hs => Nat.le_of_eq hs.nameBuf) (outcome_goWrite (by decide) fun _ => rfl)
  case namePack => exact outcome_goNamePack rfl
  case nameUnpack =>
    exact .names (within_setNameLen s (by decide) _).toChanges (.inl rfl) fun hs => nameUnpack_bounds hs.nameBuf
  case payCopy => exact .after (within_acc _ (by decide) 0#32) (outcome_goPayCopy rfl)
  case decode => exact outcome_goD1 rfl
  case encode => exact outcome_goE1 rfl
  case inRewind => exact outcome_rewindIn (by decide) (by decide) fun m _ => .ends (.refl _ m) (by decide)

/-- A primitive command is taken up again where it waited for a stream. -/
theorem resumePrim_outcome (hp : s.seq.phase = .prim c) (h : resumePrim c s = .next t) : Outcome c s t := by
  cases c <;> simp only [resumePrim, Host.Outcome.next.injEq, reduceCtorEq] at h <;> subst h
  case crcFeeds => exact outcome_goCrcFeeds hp
  case fldIn r => exact outcome_goFldIn hp
  case fldOut r => exact outcome_goWrite (by simp [writes]) fun hr => by rw [hp]; exact hr
  case hdrUnpack => exact outcome_goHdrUnpack hp
  case hdrPack => exact outcome_goWrite (by decide) fun _ => by rw [hp]; rfl
  case nameIn => exact outcome_goNameIn hp
  case nameOut => exact outcome_goWrite (by decide) fun _ => by rw [hp]; rfl
  case namePack => exact outcome_goNamePack hp
  case payCopy => exact outcome_goPayCopy hp

/-- A running command that goes on has an outcome from where it waited. -/
theorem resume_outcome (hc : s.seq.phase.command = some c) (h : resume s = .next t) : Outcome c s t := by
  unfold resume at h
  cases hp : s.seq.phase <;> simp only [hp, Host.Outcome.next.injEq, reduceCtorEq] at h <;>
    simp only [hp, Phase.command, Option.some.injEq, reduceCtorEq] at hc <;> subst hc
  case prim => exact resumePrim_outcome hp h
  all_goals subst h
  case d1 => exact outcome_goD1 hp
  case d2 => exact outcome_goD2 hp
  case d4 => exact outcome_goD4 hp
  case d5 => exact outcome_goD5 hp
  case d7 => exact outcome_goD7 hp
  case e1 => exact outcome_goE1 hp
  case e2 => exact outcome_goE2 hp
  case e3 => exact outcome_goE3 hp
  case e4 => exact outcome_goE4 hp
  case e5 => exact outcome_goE5 hp
  case e7 => exact outcome_goE7 hp

end

end Sys2Proof.Machine
end

section
/-! SUPPORT. What follows from an outcome: the row of the access table, the names handed over, the order of the phases,
`VERIFIED` and the invariant. -/
namespace Sys2Proof.Machine

/-! ## Consequences of an outcome -/

theorem frame_finishQuiet (c : Instr) (data : Word) (s : State) : Frame c s (finishQuiet data s) where
  parts p _ := by cases p <;> rfl

theorem frame_finish {c : Instr} (he : .err ∈ writes c) (s : State) : Frame c s (finish s) where
  parts := parts_of_mem he fun p hp => by cases p <;> simp_all [Part.same]

theorem frame_raise {c : Instr} (he : .err ∈ writes c) (cause : Cause) (s : State) : Frame c s (raise cause s) where
  parts := parts_of_mem he fun p hp => by cases p <;> simp_all [Part.same]

theorem frame_noutMsg {c : Instr} (hn : .nout ∈ writes c) (us : List CodeUnit) (s : State) :
    Frame c s (noutMsg us s) where
  parts := parts_of_mem hn fun p hp => by cases p <;> simp_all [Part.same]

theorem frame_setVerified (s : State) : Frame .decode s (setVerified s) where
  parts := parts_of_mem (q := .flags) (by decide) fun p hp => by cases p <;> simp_all [Part.same]

/-- What a `DECODE` has done that leaves with `VERIFIED` set (10_state.md R17). -/
structure Verifies (s t : State) : Prop where
  phase : t.seq.phase = .idle
  acc : t.regs.acc = t.regs.pck
  err : t.regs.err = 0#8
  nout : ∃ us, t.ports.nout = s.ports.nout ++ [us]
  mode : t.regs.mode = s.regs.mode
  sink : s.Sinks → t.regs.mode = 1#1

section
variable {c : Instr} {s t : State}

theorem Outcome.frame (h : Outcome c s t) : Frame c s t := by
  cases h with
  | waits h hr => exact h.toFrame
  | quiet h => exact h.toFrame.trans (frame_finishQuiet ..)
  | ends h he => exact h.toFrame.trans (frame_finish he _)
  | faults h he => exact h.toFrame.trans (frame_raise he _ _)
  | names h hc hus =>
    have hmem : .nout ∈ writes c ∧ .err ∈ writes c := by
      rcases hc with rfl | ⟨rfl, -⟩ <;> decide
    exact h.toFrame.trans <| (frame_noutMsg hmem.1 _ _).trans (frame_finish hmem.2 _)
  | verifies h hc hd hsum hsink hus =>
    subst hc
    exact h.toFrame.trans <| (frame_setVerified _).trans <|
      (frame_noutMsg (by decide) _ _).trans (frame_finish (by decide) _)

/-- A name is handed over only at the end, without a fault, by `NAME.UNPACK` or in a phase of `DECODE`. -/
theorem Outcome.nout (h : Outcome c s t) :
    t.ports.nout = s.ports.nout ∨
      ∃ us, t.ports.nout = s.ports.nout ++ [us] ∧
        (c = .nameUnpack ∨ c = .decode ∧ s.seq.phase.ofDecode = true) ∧ t.seq.phase = .idle ∧ t.regs.err = 0#8 := by
  cases h with
  | waits h _ => exact .inl h.nout
  | quiet h => exact .inl h.nout
  | ends h _ => exact .inl h.nout
  | faults h _ => exact .inl h.nout
  | names h hc _ => exact .inr ⟨_, congrArg (· ++ _) h.nout, hc, rfl, rfl⟩
  | verifies h hc hd _ _ _ => exact .inr ⟨_, congrArg (· ++ _) h.nout, .inr ⟨hc, hd⟩, rfl, rfl⟩

/-- A command ends, or runs on in the same or a later phase of the same composite command. -/
theorem Outcome.phase (h : Outcome c s t) :
    t.seq.phase = .idle ∨
      t.seq.phase.ofDecode = s.seq.phase.ofDecode ∧ t.seq.phase.ofEncode = s.seq.phase.ofEncode ∧
        s.seq.phase.rank ≤ t.seq.phase.rank := by
  cases h with
  | waits h _ => exact .inr ⟨h.ofDecode, h.ofEncode, h.rank⟩
  | _ => exact .inl rfl

/-- Once a command has begun, only a `DECODE` that verifies changes `VERIFIED`. -/
theorem Outcome.flags (h : Outcome c s t) : t.regs.flags = s.regs.flags ∨ c = .decode ∧ Verifies s t := by
  have hframe := h.frame
  cases h with
  | waits h _ => exact .inl h.flags
  | quiet h => exact .inl h.flags
  | ends h _ => exact .inl h.flags
  | faults h _ => exact .inl h.flags
  | names h _ _ => exact .inl h.flags
  | verifies h hc _ hsum hsink _ =>
    subst hc
    exact .inr ⟨rfl,
      { phase := rfl
        acc := hsum
        err := rfl
        nout := ⟨_, congrArg (· ++ _) h.nout⟩
        mode := hframe.parts .mode (by decide)
        sink := hsink }⟩

end

/-! ## The start of a command -/

section
variable (c : Instr) (s : State)

/-- The three ways in which a command begins. -/
theorem start_cases :
    start c s = s ∨ (∃ p : Phase, (p.ofDecode = false ∧ start c s = begin p s)) ∨
      (c = .decode ∧ start c s = clearVerified (begin .d1 s)) := by
  unfold start
  split
  · exact .inr (.inr ⟨rfl, rfl⟩)
  · exact .inr (.inl ⟨.e1, rfl, rfl⟩)
  · split
    · exact .inr (.inl ⟨_, rfl, rfl⟩)
    · exact .inl rfl

theorem start_ports : (start c s).ports = s.ports := by
  rcases start_cases c s with h | ⟨p, -, h⟩ | ⟨-, h⟩ <;> rw [h] <;> rfl

theorem start_regs_of_ne_decode {c : Instr} (hc : c ≠ .decode) : (start c s).regs = s.regs := by
  rcases start_cases c s with h | ⟨p, -, h⟩ | ⟨hd, -⟩
  · rw [h]
  · rw [h, begin_regs]
  · exact absurd hd hc

theorem start_mode : (start c s).regs.mode = s.regs.mode := by
  rcases start_cases c s with h | ⟨p, -, h⟩ | ⟨-, h⟩ <;> rw [h] <;> rfl

theorem start_sinks (h : s.Sinks) : (start c s).Sinks := by
  rcases start_cases c s with hs | ⟨p, hp, hs⟩ | ⟨-, hs⟩ <;> rw [hs]
  · exact h
  · rintro rfl
    cases hp
  · intro h7
    cases h7

theorem start_frame : Frame c s (start c s) := by
  rcases start_cases c s with h | ⟨p, -, h⟩ | ⟨hc, h⟩ <;> rw [h]
  · exact (Changes.refl c s).toFrame
  · exact { parts := fun p _ => by cases p <;> rfl }
  · subst hc
    exact { parts := parts_of_mem (q := .flags) (by decide) fun p hp => by cases p <;> simp_all [Part.same] }

end

/-! ## What the host's moves keep -/

theorem unlessDuty_eq_next {ok : Bool} {s t : State} : unlessDuty ok s = .next t ↔ ok = true ∧ s = t := by
  cases ok <;> simp [unlessDuty]

/-- What every move of the host but a reset keeps. -/
structure HostKeeps (s t : State) : Prop where
  regs : t.regs = s.regs := by rfl
  nout : t.ports.nout = s.ports.nout := by rfl
  phase : t.seq.phase = s.seq.phase := by rfl
  busy : s.seq.phase ≠ .idle → t.seq = s.seq ∧ t.ports.cmd = s.ports.cmd := by exact fun _ => ⟨rfl, rfl⟩

theorem hostMove_keeps {a : HostMove} {s t : State} (h : hostMove a s = .next t) (ha : a ≠ .reset) : HostKeeps s t := by
  cases a <;> simp only [hostMove, unlessDuty_eq_next, decide_eq_true_eq, Host.Outcome.next.injEq] at h
  case reset => exact absurd rfl ha
  case issue w =>
    obtain ⟨⟨hidle, -⟩, rfl⟩ := h
    exact { busy := fun hb => absurd hidle hb }
  case openIn | openOut =>
    obtain ⟨hidle, rfl⟩ := h
    exact { busy := fun hb => absurd hidle hb }
  case deliver | endIn | openNin | sendNin =>
    obtain ⟨-, rfl⟩ := h
    exact {}
  case failIn | setRewind | setRoom | failNin =>
    subst h
    exact {}

/-! ## What a step can do -/

section
variable {s t : State}

/-- An idle block runs the word at its port, or answers it as illegal; otherwise it is the host's turn (10_state.md
R31). -/
theorem step_cases (h : step s = .next t) :
    (∃ c, s.seq.phase = .idle ∧ exec c { s with ports.cmd := none } = .next t) ∨
      s.seq.phase = .idle ∧ t = raise .illegalCommand { s with ports.cmd := none } ∨ hostTurn s = .next t := by
  unfold step at h
  split at h
  · rename_i w hidle hw
    split at h
    · exact .inl ⟨_, hidle, h⟩
    · exact .inr (.inl ⟨hidle, (Host.Outcome.next.inj h).symm⟩)
  · exact .inr (.inr h)

theorem step_busy (hb : s.seq.phase ≠ .idle) : step s = hostTurn s := by
  unfold step
  split
  · rename_i hidle _
    exact absurd hidle hb
  · rfl

/-- On the host's turn the host moves, or has no move left, and then the running command goes on. -/
theorem hostTurn_cases (h : hostTurn s = .next t) :
    resume s = .next t ∨
      ∃ a rest m, s.host = a :: rest ∧ hostMove a { s with host := rest } = .next m ∧ resume m = .next t := by
  unfold hostTurn at h
  split at h
  · exact .inl h
  · rename_i a rest hhost
    split at h
    · rename_i m hm
      exact .inr ⟨a, rest, m, hhost, hm, h⟩
    · cases h
    · cases h

theorem command_eq_none {p : Phase} : p.command = none ↔ p = .idle := by
  cases p <;> simp [Phase.command]

theorem resume_idle (hi : s.seq.phase = .idle) : resume s = .next s := by simp [resume, hi]

theorem hostTurn_reset {rest : List HostMove} (h : s.host = .reset :: rest) :
    hostTurn s = .next (applyReset { s with host := rest }) := by
  simp only [hostTurn, h, hostMove]
  exact resume_idle rfl

/-- An idle block has nothing to take up; a busy one takes up its command. -/
theorem resume_cases (h : resume s = .next t) :
    s.seq.phase = .idle ∧ t = s ∨ ∃ c, s.seq.phase.command = some c ∧ Outcome c s t := by
  cases hc : s.seq.phase.command with
  | none =>
    have hidle := command_eq_none.mp hc
    rw [resume_idle hidle] at h
    exact .inl ⟨hidle, (Host.Outcome.next.inj h).symm⟩
  | some c => exact .inr ⟨c, rfl, resume_outcome hc h⟩

/-- The host's turn, reset apart: a move that keeps the command, and then what the command comes to. -/
theorem hostTurn_keeps (hr : s.host.head? ≠ some .reset) (h : hostTurn s = .next t) :
    ∃ m, HostKeeps s m ∧ resume m = .next t := by
  rcases hostTurn_cases h with h | ⟨a, rest, m, hhost, hm, h⟩
  · exact ⟨s, {}, h⟩
  · have hkeeps := hostMove_keeps hm (by rintro rfl; simp [hhost] at hr)
    exact ⟨m, { hkeeps with }, h⟩

/-- A step of a busy block, reset apart. -/
theorem step_busy_cases (hb : s.seq.phase ≠ .idle) (hr : s.host.head? ≠ some .reset) (h : step s = .next t) :
    ∃ c m, HostKeeps s m ∧ Outcome c m t := by
  obtain ⟨m, hm, hres⟩ := hostTurn_keeps hr (step_busy hb ▸ h)
  rcases resume_cases hres with ⟨hidle, -⟩ | ⟨c, -, ho⟩
  · exact absurd (hm.phase ▸ hidle) hb
  · exact ⟨c, m, hm, ho⟩

/-- A step that sets `VERIFIED` is the end of a `DECODE`, from a state `m` with the names and the `MODE` of `s`. -/
theorem step_verifies (h : step s = .next t) (h0 : s.regs.flags = 0#1) (h1 : t.regs.flags = 1#1) :
    ∃ m, Verifies m t ∧ m.ports.nout = s.ports.nout ∧ m.regs.mode = s.regs.mode ∧ (s.Sinks → m.Sinks) := by
  have hne {m : State} (hm : m.regs.flags = 0#1) : t.regs.flags ≠ m.regs.flags := by simp [h1, hm]
  rcases step_cases h with ⟨c, hidle, hexec⟩ | ⟨hidle, rfl⟩ | hturn
  · refine ⟨_, ((exec_outcome hexec).flags.resolve_left (hne ?_)).2, ?_, start_mode _ _,
      fun hs => start_sinks c { s with ports.cmd := none } hs⟩
    · rcases start_cases c { s with ports.cmd := none } with hs | ⟨p, -, hs⟩ | ⟨-, hs⟩ <;> rw [hs]
      · exact h0
      · exact h0
      · rfl
    · rw [start_ports]
  · exact absurd rfl (hne h0)
  · by_cases hr : s.host.head? = some .reset
    · obtain ⟨rest, hhost⟩ : ∃ rest, s.host = .reset :: rest := by
        cases hs : s.host <;> simp_all
      obtain rfl := Host.Outcome.next.inj ((hostTurn_reset hhost).symm.trans hturn)
      exact absurd h1 (by simp [freeLaunch, Launch.regs])
    · obtain ⟨m, hm, hres⟩ := hostTurn_keeps hr hturn
      have hflags : m.regs.flags = 0#1 := hm.regs ▸ h0
      rcases resume_cases hres with ⟨-, rfl⟩ | ⟨c, -, ho⟩
      · exact absurd rfl (hne hflags)
      · exact ⟨m, (ho.flags.resolve_left (hne hflags)).2, hm.nout, hm.regs ▸ rfl,
          fun hs h7 => hm.regs ▸ hs (hm.phase ▸ h7)⟩

end

/-! ## The invariant -/

section
variable {c : Instr} {s t : State}

theorem State.Inv.settled (h : s.Inv) : s.Settled where
  nameBuf := h.nameBuf
  err := h.err
  codes := h.codes
  ipos := h.ipos
  eos := h.eos
  names := h.names

/-- Inside a command the invariant holds where nothing stands at the command port. -/
theorem State.Inv.sound (h : s.Inv) (hp : s.ports.cmd = none) : s.Sound where
  toSettled := h.settled
  port := hp
  verified := h.verified
  got := h.got
  pend := h.pend
  units := h.units

theorem State.Sound.inv (h : s.Sound) (hk : s.Sinks) (hr : s.seq.phase.restful = true) : s.Inv where
  nameBuf := h.nameBuf
  err := h.err
  codes := h.codes
  ipos := h.ipos
  phase := hr
  port _ := h.port
  eos := h.eos
  verified := h.verified
  sink := hk
  got := h.got
  pend := h.pend
  units := h.units
  names := h.names

/-- An answer leaves an idle block with nothing in transfer. -/
theorem inv_respond {code : Byte} {data : Word} (h : s.Settled) (hc : code ≤ 8#8) : (respond code data s).Inv where
  nameBuf := h.nameBuf
  err := h.err
  codes r hr := by
    rcases List.mem_append.mp hr with hr | hr
    · exact h.codes r hr
    · rw [List.mem_singleton.mp hr]
      exact hc
  ipos := h.ipos
  phase := rfl
  port hb := absurd rfl hb
  eos := h.eos
  verified hd := by cases hd
  sink h7 := by cases h7
  got := Nat.zero_le _
  pend := Nat.zero_le _
  units _ := rfl
  names := h.names

theorem inv_finish (h : s.Settled) : (finish s).Inv :=
  inv_respond { h with err := Nat.zero_le _ } (Nat.zero_le _)

theorem Cause.code_le (cause : Cause) : cause.code ≤ 8#8 := by cases cause <;> decide

theorem inv_raise (h : s.Settled) (cause : Cause) : (raise cause s).Inv :=
  inv_respond { h with err := cause.code_le } cause.code_le

theorem settled_noutMsg {us : List CodeUnit} (h : s.Settled) (hus : us.length ≤ 64 ∧ 0#16 ∉ us) :
    (noutMsg us s).Settled :=
  { h with
    names := fun vs hvs => by
      rcases List.mem_append.mp hvs with hvs | hvs
      · exact h.names vs hvs
      · rw [List.mem_singleton.mp hvs]
        exact hus }

/-- A well-formed command leaves a sound state in one that meets the invariant. -/
theorem Outcome.inv (h : Outcome c s t) (hc : c.wf = true) (hs : s.Sound) (hk : s.Sinks) : t.Inv := by
  cases h with
  | waits h hr => exact (h.sound hs).inv (h.sinks hk) (hr hc)
  | quiet h => exact inv_respond (h.settled hs) (by decide)
  | ends h _ => exact inv_finish (h.settled hs)
  | faults h _ => exact inv_raise (h.settled hs) _
  | names h _ hus => exact inv_finish (settled_noutMsg (h.settled hs) (hus hs))
  | verifies h _ _ _ _ hus => exact inv_finish (settled_noutMsg { h.settled hs with } (hus hs))

theorem start_sound (c : Instr) (h : s.Sound) : (start c s).Sound := by
  rcases start_cases c s with hs | ⟨p, hp, hs⟩ | ⟨-, hs⟩ <;> rw [hs]
  · exact h
  · exact sound_begin h fun hd => Bool.noConfusion (hp.symm.trans hd)
  · exact sound_begin (s := clearVerified s) { h with verified := fun _ => rfl } fun _ => rfl

/-- A command whose register its row does not allow is illegal (30_encoding.md R70; log 23). -/
theorem exec_of_not_wf (h : c.wf = false) : exec c s = .next (raise .illegalCommand s) := by
  cases c <;> simp_all [Instr.wf, exec, execRegWr, execFldIn, execFldOut, ifLegal]

/-- A command that waits in a phase a step can end in is one its row allows. -/
theorem wf_of_restful {p : Phase} (hr : p.restful = true) (hc : p.command = some c) : c.wf = true := by
  cases p with
  | prim i =>
    obtain rfl : i = c := Option.some.inj hc
    cases i <;> simp_all [Phase.restful, waits, Instr.wf]
  | idle => cases hc
  | _ => cases hc; rfl

theorem exec_keeps_inv (hs : s.Inv) (hp : s.ports.cmd = none) (h : exec c s = .next t) : t.Inv := by
  cases hc : c.wf with
  | true => exact (exec_outcome h).inv hc (start_sound c (hs.sound hp)) (start_sinks c s hs.sink)
  | false =>
    rw [exec_of_not_wf hc] at h
    obtain rfl := Host.Outcome.next.inj h
    exact inv_raise hs.settled _

theorem resume_keeps_inv (hs : s.Inv) (h : resume s = .next t) : t.Inv := by
  rcases resume_cases h with ⟨-, rfl⟩ | ⟨c, hc, ho⟩
  · exact hs
  · have hbusy : s.seq.phase ≠ .idle := fun hi => by simp [command_eq_none.mpr hi] at hc
    exact ho.inv (wf_of_restful hs.phase hc) (hs.sound (hs.port hbusy)) hs.sink

theorem applyReset_inv (hs : s.Inv) : (applyReset s).Inv where
  nameBuf := length_freeBytes _
  err := by simp [freeLaunch, Launch.regs]
  codes := hs.codes
  ipos := Nat.zero_le _
  phase := rfl
  port hb := absurd rfl hb
  eos he := by cases he
  verified hd := by cases hd
  sink h7 := by cases h7
  got := Nat.zero_le _
  pend := Nat.zero_le _
  units _ := rfl
  names := hs.names

/-- Before the end of the stream no end of stream has been returned. -/
theorem State.Inv.inEos_of_pending (hs : s.Inv) (hp : s.ports.inEnd = .pending) : s.ports.inEos ≠ true :=
  fun he => (hs.eos he).2 hp

theorem hostMove_keeps_inv {a : HostMove} (hs : s.Inv) (h : hostMove a s = .next t) : t.Inv := by
  cases a <;>
    simp only [hostMove, unlessDuty_eq_next, decide_eq_true_eq, Bool.not_eq_true', Host.Outcome.next.injEq] at h
  case issue w =>
    obtain ⟨⟨hidle, -⟩, rfl⟩ := h
    exact { hs with port := fun hb => absurd hidle hb }
  case openIn =>
    obtain ⟨-, rfl⟩ := h
    exact { hs with ipos := Nat.zero_le _, eos := fun he => by cases he }
  case deliver =>
    obtain ⟨hpend, rfl⟩ := h
    exact { hs with
            ipos := by rw [List.length_append]; exact Nat.le_add_right_of_le hs.ipos
            eos := fun he => absurd he (hs.inEos_of_pending hpend) }
  case endIn =>
    obtain ⟨hpend, rfl⟩ := h
    exact { hs with eos := fun he => absurd he (hs.inEos_of_pending hpend) }
  case failIn =>
    subst h
    exact { hs with
            ipos := by rw [List.length_take]; exact Nat.le_min.mpr ⟨Nat.le_refl _, hs.ipos⟩
            eos := fun _ => ⟨by simp [unread], by simp⟩ }
  case openOut | openNin | sendNin =>
    obtain ⟨-, rfl⟩ := h
    exact { hs with }
  case setRewind | setRoom | failNin =>
    subst h
    exact { hs with }
  case reset => subst h; exact applyReset_inv hs

theorem hostTurn_keeps_inv (hs : s.Inv) (h : hostTurn s = .next t) : t.Inv := by
  rcases hostTurn_cases h with h | ⟨a, rest, m, -, hm, h⟩
  · exact resume_keeps_inv hs h
  · exact resume_keeps_inv (hostMove_keeps_inv (s := { s with host := rest }) { hs with } hm) h

theorem step_keeps_inv (hs : s.Inv) (h : step s = .next t) : t.Inv := by
  have htaken : State.Inv { s with ports.cmd := none } := { hs with port := fun _ => rfl }
  rcases step_cases h with ⟨c, -, h⟩ | ⟨-, rfl⟩ | h
  · exact exec_keeps_inv htaken rfl h
  · exact inv_raise htaken.settled _
  · exact hostTurn_keeps_inv hs h

end

end Sys2Proof.Machine
end

section
/-! SUPPORT. Reads and writes of the register index space, and the obligations of 10_state.md settled. -/
namespace Sys2Proof.Machine

/-! ## Register reads -/

theorem part_injective : Function.Injective Reg.part := by
  intro r r' h
  cases r <;> cases r' <;> simp_all [Reg.part]

/-- A read answers the piece of state at its index. -/
theorem readReg_eq_of_same {r : Reg} {s t : State} (h : (Reg.part r).same s t) :
    readReg r t.regs = readReg r s.regs := by
  cases r <;> simp_all [Reg.part, Part.same, readReg]

theorem setWidth_modeOf (v : Word) : (modeOf v).setWidth 32 = v &&& 1#32 := by
  apply BitVec.eq_of_toNat_eq
  simp [modeOf, Nat.and_one_is_mod]
  omega

theorem readReg_writeReg_same {r : Reg} (hr : r.writable = true) (v : Word) (x : Regs) :
    readReg r (writeReg r v x) = if r = .mode then v &&& 1#32 else v := by
  cases r
  case mode => exact setWidth_modeOf v
  case namelen => cases hr
  case flags => cases hr
  case err => cases hr
  all_goals rfl

/-! ## The obligations -/

/-- No wait is one of `NAME.UNPACK`. -/
theorem resume_nameUnpack {s t : State} (hc : s.seq.phase.command = some .nameUnpack) : resume s ≠ .next t := by
  cases hp : s.seq.phase <;> simp_all [Phase.command, resume, resumePrim]

/-- The conclusions of `Obligations.AccessTableFrame`. -/
theorem Frame.access {c : Instr} {s t : State} (h : Frame c s t) :
    (∀ p : Part, p ∉ writes c → p.same s t) ∧ t.ports.cmd = s.ports.cmd ∧ t.host = s.host ∧
      t.ports.inEnd = s.ports.inEnd ∧ t.ports.inRewind = s.ports.inRewind ∧ t.ports.ninFailed = s.ports.ninFailed ∧
      (c ≠ .namePack → c ≠ .encode → t.ports.nin = s.ports.nin) :=
  ⟨h.parts, h.cmd, h.host, h.inEnd, h.inRewind, h.ninFailed, h.nin⟩

/-- Settles O54, from what each way of making a step keeps: `exec_keeps_inv`, `inv_raise` and `hostTurn_keeps_inv`. -/
theorem stepKeepsInvariant : Obligations.StepKeepsInvariant := fun _ _ hs h => step_keeps_inv hs h

/-- Settles O5: on a busy block a host move other than a reset keeps the port, and no command writes it. -/
theorem busyBlockTakesNoWord : Obligations.BusyBlockTakesNoWord := by
  refine ⟨fun s t hb hr h => ?_, fun s w rest hb hhost => ?_⟩
  · obtain ⟨c, m, hm, ho⟩ := step_busy_cases hb hr h
    exact ho.frame.cmd.trans (hm.busy hb).2
  · simp [step_busy hb, hostTurn, hhost, hostMove, unlessDuty, hb]

/-- Settles O8, from `Outcome.nout`; a waiting command is never `NAME.UNPACK`. -/
theorem faultGivesNoName : Obligations.FaultGivesNoName := by
  refine ⟨fun i s t h => ?_, fun s t h => ?_⟩
  · rw [← start_ports i s]
    exact (exec_outcome h).nout.imp_right fun ⟨us, hout, hc, hend⟩ => ⟨us, hout, hc.imp_right And.left, hend⟩
  · rcases resume_cases h with ⟨-, rfl⟩ | ⟨c, hc, ho⟩
    · exact .inl rfl
    · refine ho.nout.imp_right fun ⟨us, hout, hname, hend⟩ => ⟨us, hout, ?_, hend⟩
      rcases hname with rfl | ⟨-, hd⟩
      · exact absurd h (resume_nameUnpack hc)
      · exact hd

/-- Settles O20: a write changes only the piece of state at its index, and no two indices share one. -/
theorem noTwoRegistersAlias : Obligations.NoTwoRegistersAlias := by
  intro r v x hr
  have hsame {p : Part} (hp : p ≠ Reg.part r) := writeReg_same { State.reset with regs := x } v hp
  refine ⟨readReg_writeReg_same hr v x, fun r' hne => ?_, ?_⟩
  · exact readReg_eq_of_same (hsame (part_injective.ne hne))
  · exact hsame (p := .nameBuf) (by cases r <;> decide)

/-- Settles O47, from `Outcome.frame`; the start of a command stays in its row too. -/
theorem accessTableFrame : Obligations.AccessTableFrame :=
  ⟨fun i s _ h => ((start_frame i s).trans (exec_outcome h).frame).access,
    fun _ _ _ hc h => (resume_outcome hc h).frame.access⟩

/-- Settles O49: the host keeps the phase, and from there `Outcome.phase` says how it goes on. -/
theorem phasesAscend : Obligations.PhasesAscend := by
  intro s t hr h
  have hphase (hb : s.seq.phase ≠ .idle) :
      t.seq.phase = .idle ∨
        t.seq.phase.ofDecode = s.seq.phase.ofDecode ∧ t.seq.phase.ofEncode = s.seq.phase.ofEncode ∧
          s.seq.phase.rank ≤ t.seq.phase.rank := by
    obtain ⟨c, m, hm, ho⟩ := step_busy_cases hb hr h
    exact hm.phase ▸ ho.phase
  constructor
  · intro hd
    exact (hphase fun hi => by simp [hi, Phase.ofDecode] at hd).imp_right fun ⟨hd', _, hrank⟩ => ⟨hd'.trans hd, hrank⟩
  · intro he
    exact (hphase fun hi => by simp [hi, Phase.ofEncode] at he).imp_right fun ⟨_, he', hrank⟩ => ⟨he'.trans he, hrank⟩

/-- Settles O50, from `step_verifies` and `Outcome.flags`. -/
theorem verifiedMeansVerified : Obligations.VerifiedMeansVerified := by
  refine ⟨fun s t h h0 h1 => ?_, fun s t hs h h0 h1 => ?_, fun i s t h hne => ?_, fun s t h h1 => ?_⟩
  · obtain ⟨m, hv, hnout, -, -⟩ := step_verifies h h0 h1
    exact ⟨hv.phase, hv.acc, hv.err, hnout ▸ hv.nout⟩
  · obtain ⟨m, hv, -, hmode, hsinks⟩ := step_verifies h h0 h1
    have hsink : t.regs.mode = 1#1 := hv.sink (hsinks hs.sink)
    exact ⟨hmode.symm.trans (hv.mode.symm.trans hsink), hsink⟩
  · refine Decidable.byContradiction fun hi => ?_
    rcases (exec_outcome h).flags with hflags | ⟨hc, -⟩
    · exact hne (hflags.trans (by rw [start_regs_of_ne_decode s hi]))
    · exact hi hc
  · rcases (exec_outcome h).flags with hflags | ⟨-, hv⟩
    · cases hflags.symm.trans h1
    · exact (hv.mode.trans (start_mode _ s)).symm.trans (hv.sink fun h7 => by cases h7)

/-- Settles O3: what `step` does on its first branch. -/
theorem stepRunsDecodedCommand : Obligations.StepRunsDecodedCommand := by
  intro s w i hidle hw hdecode
  simp [step, hidle, hw, hdecode]

/-- Settles O6, command by command. -/
theorem everyCommandGoesOn : Obligations.EveryCommandGoesOn := fun i _ => by
  cases i <;> exact ⟨_, rfl⟩

/-- Settles O53: nothing is in transfer, nothing has been answered and nothing delivered. -/
theorem resetMeetsInvariant : Obligations.ResetMeetsInvariant where
  nameBuf := rfl
  err := by decide
  codes r hr := by cases hr
  ipos := Nat.le_refl _
  phase := rfl
  port hb := absurd rfl hb
  eos he := by cases he
  verified hd := by cases hd
  sink h7 := by cases h7
  got := Nat.le_refl _
  pend := Nat.le_refl _
  units _ := rfl
  names us hus := by cases hus

end Sys2Proof.Machine
end

section
/-! SUPPORT. The rules of the stream accesses (20_memory.md R47 to R50): when each goes on, when it waits, and what a step of
each loop does. -/
namespace Sys2Proof.Machine

section
variable {s t : State}

/-! ## `OUT` -/

/-- `OutWrite` goes on exactly when the host accepts all its bytes (20_memory.md R49). -/
theorem flush_eq_go {a : Unit} :
    flush s = .go a t ↔ s.ports.outRoom.takes s.seq.pend.length = true ∧
      t = accept s.seq.pend.length (s.ports.outRoom.less s.seq.pend.length) s := by
  unfold flush
  cases s.ports.outRoom with
  | all => simp [Room.takes, Room.less, eq_comm]
  | upTo n fails =>
    simp only [Room.takes, Room.less, decide_eq_true_eq]
    split
    · simp [*, eq_comm]
    · split <;> simp [*]

theorem flush_takes (h : s.ports.outRoom.takes s.seq.pend.length = true) :
    flush s = .go () (accept s.seq.pend.length (s.ports.outRoom.less s.seq.pend.length) s) :=
  flush_eq_go.mpr ⟨h, rfl⟩

/-- `OutWrite` waits exactly when the host accepts fewer bytes and lets the block wait after them. -/
theorem flush_eq_wait :
    flush s = .wait t ↔ ∃ n, s.ports.outRoom = .upTo n false ∧ n < s.seq.pend.length ∧
      t = accept n (.upTo 0 false) s := by
  unfold flush
  cases s.ports.outRoom with
  | all => simp
  | upTo n fails =>
    simp only [Room.upTo.injEq]
    split
    · simp; omega
    · cases fails <;> simp [eq_comm]; omega

/-- A host that takes nothing and does not fail keeps the bytes waiting. -/
theorem flush_waits (hp : s.seq.pend ≠ []) (hr : s.ports.outRoom = .upTo 0 false) : flush s = .wait s := by
  refine flush_eq_wait.mpr ⟨0, hr, List.length_pos_iff.mpr hp, ?_⟩
  simp [accept, ← hr]

/-- Behind the first `n` bytes the rest goes as `more` says, as it does from the first when the host takes `n` bytes more. -/
theorem flush_accept {n : Nat} (hn : n ≤ s.seq.pend.length) (more : Room) :
    flush (accept n more s) = flush { s with ports.outRoom := (Room.upTo n false).then more } := by
  have hall : s.seq.pend.take n ++ (s.seq.pend.drop n).take (s.seq.pend.length - n) = s.seq.pend := by
    rw [← List.length_drop, List.take_length, List.take_append_drop]
  cases more with
  | all => simp [flush, Room.then, accept, hall]; omega
  | upTo m fails =>
    simp only [flush, Room.then, accept, List.length_drop]
    by_cases hm : s.seq.pend.length - n ≤ m
    · have hm' : s.seq.pend.length ≤ n + m := by omega
      simp [hm, hm', hall]
      omega
    · have hm' : ¬ s.seq.pend.length ≤ n + m := by omega
      cases fails <;> simp [hm, hm', List.take_add] <;> omega

theorem takes_add {room : Room} {n m : Nat} (h : room.takes (n + m) = true) :
    room.takes n = true ∧ (room.less n).takes m = true := by
  cases room <;> simp_all [Room.takes, Room.less]; omega

theorem less_less (room : Room) (n m : Nat) : (room.less n).less m = room.less (n + m) := by
  cases room <;> simp [Room.less, Nat.sub_sub]

/-! ## `IN` and `NIN` -/

theorem inByte_of_cons {b : Byte} {rest : List Byte} (hu : unread s = b :: rest) : inByte s = .byte b := by
  simp [inByte, hu]

/-- The byte after the next is the next once that is consumed. -/
theorem unread_consume {b : Byte} {rest : List Byte} (hu : unread s = b :: rest) : unread (consume s) = rest := by
  have := congrArg List.tail hu
  simpa [unread, List.tail_drop] using this

theorem unread_of_inByte {b : Byte} (hb : inByte s = .byte b) : ∃ rest, unread s = b :: rest := by
  cases hu : unread s with
  | nil => cases ht : inTail s.ports <;> simp [inByte, hu, ht] at hb
  | cons b' rest =>
    obtain rfl : b' = b := by simpa [inByte, hu] using hb
    exact ⟨rest, rfl⟩

theorem readExact_done {k : Nat} (c : Cause) (hk : k ≤ s.seq.got.length) :
    readExact k c s = .go s.seq.got { s with seq.got := [] } := by
  simp [readExact, Nat.sub_eq_zero_of_le hk, collect]

/-- The pseudocode of `ReadExact` (20_memory.md R48), while bytes are wanted. -/
theorem readExact_loop {k : Nat} (c : Cause) (hk : s.seq.got.length < k) :
    readExact k c s =
      match inByte s with
      | .byte b => readExact k c { consume s with seq.got := s.seq.got ++ [b] }
      | .eos => .fail c (endSeen s)
      | .ioerr => .fail .ioError s
      | .wait => .wait s := by
  obtain ⟨n, hn⟩ : ∃ n, k - s.seq.got.length = n + 1 := ⟨k - s.seq.got.length - 1, by omega⟩
  have hn' (b : Byte) : k - (s.seq.got ++ [b]).length = n := by simp; omega
  unfold readExact
  rw [hn, collect]
  cases inByte s <;> simp only [hn']

theorem atEnd_ended (ht : inTail s.ports = .ended) : atEnd s = .go () (endSeen s) := by simp [atEnd, ht]

theorem atEnd_eq_wait (h : atEnd s = .wait t) : t = s := by
  unfold atEnd at h
  split at h <;> cases h
  rfl

theorem inTail_of_atEnd {a : Unit} (h : atEnd s = .go a t) : inTail s.ports = .ended := by
  unfold atEnd at h
  split at h
  case h_2 ht => exact ht
  all_goals cases h

theorem feedAll_nil (hu : unread s = []) : feedAll (unread s) s = atEnd s := by rw [hu, feedAll]

/-- What a rewind leaves (20_memory.md R50). -/
def rewound (bytes : List Byte) (s : State) : State :=
  { s with seq.ipos := 0, ports.inEos := false, ports.inData := bytes }

theorem rewindIn_rewound (hd : inDown s = false) {bytes : List Byte}
    (hr : s.ports.inRewind = .other bytes ∨ s.ports.inRewind = .same ∧ bytes = s.ports.inData) :
    rewindIn s = .go () (rewound bytes s) := by
  rcases hr with hr | ⟨hr, rfl⟩ <;> simp [rewindIn, hd, hr, rewound]

/-! ## Copies -/

theorem copyInHand_nil {sum : Bool} (hp : s.seq.pend = []) : copyInHand sum s = .go () s := by
  simp [copyInHand, hp]

theorem copyInHand_one {b : Byte} (sum : Bool) (hp : s.seq.pend = [b]) :
    copyInHand sum s =
      match flush s with
      | .go _ t => .go () (if sum then feedAcc b t else t)
      | .wait t => .wait t
      | .fail c t => .fail c t := by
  cases hf : flush s <;> simp [copyInHand, hp, hf]

theorem unread_copyInHand {sum : Bool} {a : Unit} (h : copyInHand sum s = .go a t) :
    unread t = unread s := by
  have hkeep := keeps_copyInHand (c := .payCopy) (s := s) (sum := sum) (by decide) (by decide)
  rw [h] at hkeep
  obtain ⟨-, -, hu⟩ := hkeep
  exact hu

/-- The copy loop takes the next byte in hand. -/
theorem copyAll_cons {sum : Bool} {b : Byte} {rest : List Byte} (hu : unread s = b :: rest) :
    copyAll sum (unread s) s = copyOn sum { consume s with seq.pend := [b] } := by
  rw [hu, copyAll, copyOn]
  cases hc : copyInHand sum { consume s with seq.pend := [b] } with
  | go _ t =>
    have ht : unread t = rest := (unread_copyInHand hc).trans (unread_consume hu)
    simp only [ht]
  | wait t => rfl
  | fail c t => rfl

theorem copyOn_nil {sum : Bool} (hp : s.seq.pend = []) : copyOn sum s = copyAll sum (unread s) s := by
  simp [copyOn, copyInHand_nil hp]

/-- No byte is in hand once it has been copied. -/
theorem copyInHand_pend {sum : Bool} {a : Unit} (h : copyInHand sum s = .go a t) : t.seq.pend = [] := by
  unfold copyInHand at h
  split at h
  · cases h
    assumption
  · split at h
    case h_1 hf =>
      obtain ⟨-, rfl⟩ := flush_eq_go.mp hf
      cases h
      cases sum <;> simp
    all_goals cases h

/-! ## Accesses that find nothing -/

theorem copyOn_waits_out {sum : Bool} (hp : s.seq.pend ≠ []) (hr : s.ports.outRoom = .upTo 0 false) :
    copyOn sum s = .wait s := by
  obtain ⟨b, rest, hb⟩ := List.exists_cons_of_ne_nil hp
  simp [copyOn, copyInHand, hb, flush_waits hp hr]

section
variable (hu : unread s = []) (ht : inTail s.ports = .pending)
include hu ht

theorem inByte_waits : inByte s = .wait := by simp [inByte, hu, ht]

theorem readExact_waits {k : Nat} (hk : s.seq.got.length < k) (c : Cause) : readExact k c s = .wait s := by
  rw [readExact_loop c hk, inByte_waits hu ht]

theorem feedAll_waits : feedAll (unread s) s = .wait s := by simp [feedAll_loop, inByte_waits hu ht]

theorem copyOn_waits_in {sum : Bool} (hp : s.seq.pend = []) : copyOn sum s = .wait s := by
  rw [copyOn_nil hp, hu, copyAll, atEnd, ht]

end

theorem takeName_waits (hn : s.ports.nin = []) (hf : s.ports.ninFailed = false) : takeName s = .wait s := by
  simp [takeName, hn, takeUnits, hf]

end

end Sys2Proof.Machine
end

section
/-! SUPPORT. A waiting block, kind of wait by kind of wait, and the obligations on waits and on a failed `IN` settled. -/
namespace Sys2Proof.Machine

theorem step_eq_resume {s : State} (hh : s.host = []) (h : s.seq.phase = .idle → s.ports.cmd = none) :
    step s = resume s := by
  have hturn : hostTurn s = resume s := by simp [hostTurn, hh]
  by_cases hp : s.seq.phase = .idle
  · simp [step, hp, h hp, hturn]
  · rw [step_busy hp, hturn]

/-! ## The waits of each kind, by phase -/

section
variable {s : State}

theorem resume_waits_readExact (hk : s.seq.got.length < s.seq.phase.reads) (hu : unread s = [])
    (ht : inTail s.ports = .pending) : resume s = .next s := by
  have hread (c : Cause) := readExact_waits hu ht hk c
  unfold Phase.reads at hk hread
  split at hk <;> rename_i hp <;> simp only [hp] at hread
  · simp [resume, hp, goD1, Config.hdrLen, hread]
  · simp [resume, hp, resumePrim, goHdrUnpack, Config.hdrLen, hread]
  · simp [resume, hp, goD2, Config.ckLen, hread]
  · simp [resume, hp, goD4, Config.ckLen, hread]
  · simp [resume, hp, resumePrim, goFldIn, Config.ckLen, hread]
  · simp [resume, hp, goD5, readName, Config.nameLen, hread]
  · simp [resume, hp, resumePrim, goNameIn, readName, Config.nameLen, hread]
  · exact absurd hk (Nat.not_lt_zero _)

/-- The loops over `IN`, with no byte in hand. -/
theorem resume_waits_loop
    (hp : s.seq.phase = .prim .crcFeeds ∨ s.seq.phase = .prim .payCopy ∨ s.seq.phase = .d7 ∨ s.seq.phase = .e4 ∨
      s.seq.phase = .e7)
    (hpend : s.seq.pend = []) (hu : unread s = []) (ht : inTail s.ports = .pending) : resume s = .next s := by
  have hfeed := feedAll_waits hu ht
  have hcopy (sum : Bool) := copyOn_waits_in (sum := sum) hu ht hpend
  rcases hp with hp | hp | hp | hp | hp
  · simp [resume, hp, resumePrim, goCrcFeeds, hfeed]
  · simp [resume, hp, resumePrim, goPayCopy, hcopy]
  · simp [resume, hp, goD7, hcopy]
  · simp [resume, hp, goE4, hpend, feedE4, hfeed]
  · simp [resume, hp, goE7, hcopy]

theorem resume_waits_out (hk : 0 < s.seq.phase.hands) (hp : s.seq.pend ≠ []) (hr : s.ports.outRoom = .upTo 0 false) :
    resume s = .next s := by
  have hflush := flush_waits hp hr
  have hcopy (sum : Bool) := copyOn_waits_out (sum := sum) hp hr
  unfold Phase.hands at hk
  split at hk <;> rename_i hphase
  · simp [resume, hphase, goE2, hflush]
  · simp [resume, hphase, resumePrim, goWrite, hflush]
  · simp [resume, hphase, goE3, hflush]
  · simp [resume, hphase, goE4, hp, writePck, hflush]
  · simp [resume, hphase, resumePrim, goWrite, hflush]
  · simp [resume, hphase, goE5, hflush]
  · simp [resume, hphase, resumePrim, goWrite, hflush]
  · simp [resume, hphase, goD7, hcopy]
  · simp [resume, hphase, goE7, hcopy]
  · simp [resume, hphase, resumePrim, goPayCopy, hcopy]
  · exact absurd hk (Nat.not_lt_zero _)

theorem resume_waits_name (hk : s.seq.phase.takesName = true) (hn : s.ports.nin = [])
    (hf : s.ports.ninFailed = false) : resume s = .next s := by
  have htake := takeName_waits hn hf
  unfold Phase.takesName at hk
  split at hk <;> rename_i hp
  · simp [resume, hp, goE1, htake]
  · simp [resume, hp, resumePrim, goNamePack, htake]
  · cases hk

end

/-! ## The obligations on waits and on a failed `IN` -/

/-- Settles O51: with no move left a step takes the command up again (`step_eq_resume`), and each kind of access that
waits leaves the state as it is. -/
theorem waitingBlockStaysPut : Obligations.WaitingBlockStaysPut := by
  intro s hh
  have hbusy (h : s.seq.phase ≠ .idle) : step s = resume s := step_eq_resume hh fun hi => absurd hi h
  refine ⟨fun hi hc => ?_, fun hk hu ht => ?_, fun hp hpend hu ht => ?_, fun hk hp hr => ?_, fun hk hn hf => ?_⟩
  · rw [step_eq_resume hh fun _ => hc, resume_idle hi]
  · rw [hbusy fun hi => by simp [hi, Phase.reads] at hk, resume_waits_readExact hk hu ht]
  · rw [hbusy fun hi => by simp [hi] at hp, resume_waits_loop hp hpend hu ht]
  · rw [hbusy fun hi => by simp [hi, Phase.hands] at hk, resume_waits_out hk hp hr]
  · rw [hbusy fun hi => by simp [hi, Phase.takesName] at hk, resume_waits_name hk hn hf]

/-- Settles O60: the failure takes back what was not yet read, so that both a read and a rewind meet it. -/
theorem failureOfInIsMetAtTheNextAccess : Obligations.FailureOfInIsMetAtTheNextAccess := by
  intro s t h
  obtain rfl := Host.Outcome.next.inj h
  generalize ht : { s with ports.inData := s.ports.inData.take s.seq.ipos, ports.inEnd := .failed } = t
  have hu : unread t = [] := by simp [← ht, unread]
  have hend : t.ports.inEnd = .failed := by simp [← ht]
  have heos : t.ports.inEos = s.ports.inEos := by simp [← ht]
  constructor
  · cases he : s.ports.inEos <;> simp [inByte, hu, inTail, heos, he, hend]
  · have hrewind : rewindIn t = .fail .ioError t := by simp [rewindIn, inDown, hu, hend]
    simp only [exec, execInRewind, hrewind]
    rfl

end Sys2Proof.Machine
end

section
/-! SUPPORT. What the host may give a command in pieces (20_memory.md R47, R49, R50): `Gives` says what a host's gift must
be like for a command not to notice when it came, and `Seamless` that a stream access does not notice it. -/
namespace Sys2Proof.Machine

/-- The same state, the host having changed the ports by `τ`. -/
def State.onPorts (τ : Ports → Ports) (s : State) : State := { s with ports := τ s.ports }

/-- The stream access `f` comes to the same whether the host makes its gift `τ` beforehand or, if `f` waits, while it
waits; where `f` goes on, `P` holds of `IPOS` and the ports. Nothing is claimed of an access that fails. -/
def Seamless {α : Type} (τ : Ports → Ports) (P : Nat → Ports → Prop) (f : State → Flow α) (s : State) : Prop :=
  match f s with
  | .go a t => f (s.onPorts τ) = .go a (t.onPorts τ) ∧ t.seq.phase = s.seq.phase ∧ P t.seq.ipos t.ports
  | .wait t => f (t.onPorts τ) = f (s.onPorts τ) ∧ t.seq.phase = s.seq.phase
  | .fail _ _ => True

/-- A gift of the host, made where `P` holds of `IPOS` and the ports, comes behind what the host has given already: bytes
behind those on `IN`, items behind those on `NIN`, acceptance on `OUT` behind that which is there; and a command that goes
on keeps `P`. -/
structure Gives (τ : Ports → Ports) (P : Nat → Ports → Prop) : Prop where
  /-- The next byte of `IN` stays the next. -/
  byte {s : State} {b : Byte} {rest : List Byte} (hP : P s.seq.ipos s.ports) (hu : unread s = b :: rest) :
    (∃ rest', unread (s.onPorts τ) = b :: rest') ∧ P (s.seq.ipos + 1) s.ports
  /-- A stream that has ended stays so. -/
  ended {s : State} (hP : P s.seq.ipos s.ports) (hu : unread s = []) (ht : inTail s.ports = .ended) :
    (unread (s.onPorts τ) = [] ∧ atEnd (s.onPorts τ) = .go () ((endSeen s).onPorts τ)) ∧
      P s.seq.ipos (endSeen s).ports
  /-- Bytes go to `OUT` as if all the acceptance had been there from the first. -/
  out {s : State} (hP : P s.seq.ipos s.ports) : Seamless τ P flush s
  /-- The items of `NIN` stay the first. -/
  nin : ∃ items, ∀ i p, P i p → ∀ left,
    (τ p).nin = p.nin ++ items ∧ { τ p with nin := left ++ items } = τ { p with nin := left } ∧ P i { p with nin := left }
  /-- A rewind does not notice the gift, if `P` lets the stream come to its end: `ENCODE` feeds all of `IN` before it. -/
  rewind (he : ∃ i p, P i p ∧ inTail p = .ended) {s : State} (hP : P s.seq.ipos s.ports) : Seamless τ P rewindIn s

section
variable {τ : Ports → Ports} {P : Nat → Ports → Prop} {s : State}

/-! ## Stream accesses -/

/-- An access that has taken a step towards its outcome. -/
theorem Seamless.of_step {α : Type} {f : State → Flow α} {m : State} (h : f s = f m)
    (hτ : f (s.onPorts τ) = f (m.onPorts τ)) (hp : m.seq.phase = s.seq.phase) (hm : Seamless τ P f m) :
    Seamless τ P f s := by
  unfold Seamless at hm ⊢
  rwa [h, hτ, ← hp]

theorem Seamless.go {α : Type} {f : State → Flow α} {a : α} {t : State} (hf : Seamless τ P f s) (h : f s = .go a t) :
    f (s.onPorts τ) = .go a (t.onPorts τ) ∧ t.seq.phase = s.seq.phase ∧ P t.seq.ipos t.ports := by
  unfold Seamless at hf
  rwa [h] at hf

theorem Seamless.wait {α : Type} {f : State → Flow α} {t : State} (hf : Seamless τ P f s) (h : f s = .wait t) :
    f (t.onPorts τ) = f (s.onPorts τ) ∧ t.seq.phase = s.seq.phase := by
  unfold Seamless at hf
  rwa [h] at hf

theorem Seamless.of_wait_in {α : Type} {f : State → Flow α} {t : State} (h : f s = .wait t)
    (hτ : f (t.onPorts τ) = f (s.onPorts τ)) (hp : t.seq.phase = s.seq.phase) : Seamless τ P f s := by
  simp [Seamless, h, hτ, hp]

theorem Seamless.of_wait {α : Type} {f : State → Flow α} (h : f s = .wait s) : Seamless τ P f s :=
  .of_wait_in h rfl rfl

theorem Seamless.of_fail {α : Type} {f : State → Flow α} {c : Cause} {t : State} (h : f s = .fail c t) :
    Seamless τ P f s := by
  simp [Seamless, h]

theorem Seamless.of_go {α : Type} {f : State → Flow α} {a : α} {t : State} (h : f s = .go a t)
    (hτ : f (s.onPorts τ) = .go a (t.onPorts τ)) (hp : t.seq.phase = s.seq.phase) (hP : P t.seq.ipos t.ports) :
    Seamless τ P f s := by
  simp [Seamless, h, hτ, hp, hP]

theorem Gives.inByte_byte (h : Gives τ P) (hP : P s.seq.ipos s.ports) {b : Byte} {rest : List Byte}
    (hu : unread s = b :: rest) : inByte (s.onPorts τ) = .byte b :=
  have ⟨⟨_, hu'⟩, _⟩ := h.byte hP hu
  inByte_of_cons hu'

/-! ### `ReadExact` -/

theorem seamless_readExact (h : Gives τ P) (hP : P s.seq.ipos s.ports) (k : Nat) (c : Cause) :
    Seamless τ P (readExact k c) s := by
  induction hn : k - s.seq.got.length generalizing s with
  | zero =>
    have hk : k ≤ s.seq.got.length := Nat.le_of_sub_eq_zero hn
    exact .of_go (readExact_done c hk) (readExact_done (s := s.onPorts τ) c hk) rfl hP
  | succ n ih =>
    have hk : s.seq.got.length < k := by omega
    have hloop := readExact_loop c hk
    cases hb : inByte s <;> rw [hb] at hloop
    case byte b =>
      obtain ⟨rest, hu⟩ := unread_of_inByte hb
      have hτ := readExact_loop (s := s.onPorts τ) c hk
      rw [h.inByte_byte hP hu] at hτ
      exact .of_step hloop hτ rfl (ih (h.byte hP hu).2 (by simp; omega))
    case eos => exact .of_fail hloop
    case ioerr => exact .of_fail hloop
    case wait => exact .of_wait hloop

/-! ### The loops over `IN` -/

/-- What a loop over `IN` comes to when no byte is left. -/
theorem seamless_atEnd (h : Gives τ P) (hP : P s.seq.ipos s.ports) (hu : unread s = []) {f : State → Flow Unit}
    (hf : f s = atEnd s) (hτ : unread (s.onPorts τ) = [] → f (s.onPorts τ) = atEnd (s.onPorts τ)) :
    Seamless τ P f s := by
  cases ht : inTail s.ports <;> simp only [atEnd, ht] at hf
  · exact .of_wait hf
  · obtain ⟨⟨hu', hend⟩, hP'⟩ := h.ended hP hu ht
    exact .of_go hf ((hτ hu').trans hend) rfl hP'
  · exact .of_fail hf

theorem seamless_feedAll (h : Gives τ P) (hP : P s.seq.ipos s.ports) :
    Seamless τ P (fun s => feedAll (unread s) s) s := by
  induction hu : unread s generalizing s with
  | nil => exact seamless_atEnd h hP hu (feedAll_nil hu) feedAll_nil
  | cons b rest ih =>
    have hloop := feedAll_loop s
    have hτ := feedAll_loop (s.onPorts τ)
    rw [inByte_of_cons hu] at hloop
    rw [h.inByte_byte hP hu] at hτ
    exact .of_step (m := feedAcc b (consume s)) hloop hτ rfl (ih (h.byte hP hu).2 (unread_consume hu))

theorem seamless_copyInHand (h : Gives τ P) (hP : P s.seq.ipos s.ports) (sum : Bool) (h1 : s.seq.pend.length ≤ 1) :
    Seamless τ P (copyInHand sum) s := by
  rcases Nat.le_one_iff_eq_zero_or_eq_one.mp h1 with h0 | h1
  · have hp := List.length_eq_zero_iff.mp h0
    exact .of_go (copyInHand_nil hp) (copyInHand_nil (s := s.onPorts τ) hp) rfl hP
  · obtain ⟨b, hp⟩ := List.length_eq_one_iff.mp h1
    have hs := copyInHand_one sum hp
    have hτ := copyInHand_one (s := s.onPorts τ) sum hp
    cases hf : flush s <;> rw [hf] at hs
    case go a t =>
      obtain ⟨hgo, hphase, hPt⟩ := (h.out hP).go hf
      rw [hgo] at hτ
      cases sum <;> exact .of_go hs hτ hphase hPt
    case wait t =>
      obtain ⟨hwait, hphase⟩ := (h.out hP).wait hf
      obtain ⟨n, -, hn, rfl⟩ := flush_eq_wait.mp hf
      obtain rfl : n = 0 := by simpa [hp] using hn
      refine .of_wait_in hs ?_ hphase
      rw [copyInHand_one sum (b := b) (by simpa [State.onPorts] using hp), hwait, hτ]
    case fail c t => exact .of_fail hs

/-- A copy goes on with the byte in hand, if there is one, and then with none. -/
theorem seamless_copyOn_of_nil (h : Gives τ P) (hP : P s.seq.ipos s.ports) {sum : Bool} (h1 : s.seq.pend.length ≤ 1)
    (hnil : ∀ t, unread t = unread s → t.seq.pend = [] → P t.seq.ipos t.ports → Seamless τ P (copyOn sum) t) :
    Seamless τ P (copyOn sum) s := by
  have hhand := seamless_copyInHand h hP sum h1
  cases hc : copyInHand sum s with
  | go a t =>
    obtain ⟨hτ, hphase, hPt⟩ := hhand.go hc
    have hpend := copyInHand_pend hc
    refine .of_step (m := t) ?_ ?_ hphase (hnil t (unread_copyInHand hc) hpend hPt)
    · simp only [copyOn, hc, copyInHand_nil hpend]
    · simp only [copyOn, hτ, copyInHand_nil (s := t.onPorts τ) hpend]
  | wait t =>
    obtain ⟨hτ, hphase⟩ := hhand.wait hc
    exact .of_wait_in (t := t) (by simp only [copyOn, hc]) (by simp only [copyOn, hτ]) hphase
  | fail c t => exact .of_fail (c := c) (t := t) (by simp only [copyOn, hc])

theorem seamless_copyOn (h : Gives τ P) (hP : P s.seq.ipos s.ports) (sum : Bool) (h1 : s.seq.pend.length ≤ 1) :
    Seamless τ P (copyOn sum) s := by
  induction hu : unread s generalizing s with
  | nil =>
    refine seamless_copyOn_of_nil h hP h1 fun t ht hp hPt => seamless_atEnd h hPt (ht.trans hu) ?_ fun hu' => ?_
    · rw [copyOn_nil hp, ht.trans hu, copyAll]
    · rw [copyOn_nil (s := t.onPorts τ) hp, hu', copyAll]
  | cons b rest ih =>
    refine seamless_copyOn_of_nil h hP h1 fun t ht hp hPt => ?_
    have hut := ht.trans hu
    obtain ⟨⟨rest', hτ⟩, hPb⟩ := h.byte hPt hut
    refine .of_step (m := { consume t with seq.pend := [b] }) ?_ ?_ rfl (ih hPb (Nat.le_refl _) (unread_consume hut))
    · rw [copyOn_nil hp, copyAll_cons hut]
    · rw [copyOn_nil (s := t.onPorts τ) hp, copyAll_cons hτ]
      rfl

/-! ### Names -/

theorem seamless_takeName (h : Gives τ P) (hP : P s.seq.ipos s.ports) : Seamless τ P takeName s := by
  obtain ⟨items, hnin⟩ := h.nin
  induction hn : s.ports.nin generalizing s with
  | nil =>
    cases hf : s.ports.ninFailed with
    | false => exact .of_wait (takeName_waits hn hf)
    | true => exact .of_fail (t := s) (c := .ioError) (by simp [takeName, hn, takeUnits, hf])
  | cons item rest ih =>
    obtain ⟨hitems, hleft, hP'⟩ := hnin _ _ hP rest
    have hτ : (s.onPorts τ).ports.nin = item :: (rest ++ items) := by simp [State.onPorts, hitems, hn]
    cases item with
    | unit u =>
      refine .of_step (m := { s with ports.nin := rest, seq.units := s.seq.units ++ [u] }) ?_ ?_ rfl (ih hP' rfl)
      · simp [takeName, hn, takeUnits]
      · rw [takeName, hτ, takeUnits]
        simp [takeName, State.onPorts, ← hleft]
    | done =>
      refine .of_go (t := { s with ports.nin := rest, seq.units := [] }) (a := s.seq.units) ?_ ?_ rfl hP'
      · simp [takeName, hn, takeUnits]
      · rw [takeName, hτ, takeUnits]
        simp [State.onPorts, ← hleft]

end
end Sys2Proof.Machine
end

section
/-! SUPPORT. Every command that waits, whatever the host gives it in between, comes to what it comes to when the host has
given it all from the first. -/
namespace Sys2Proof.Machine

/-- If `g` leaves a command waiting, then, taken up again after the host's gift `τ`, that command comes to what `g` comes to
with the gift made beforehand. -/
def TakenUp (τ : Ports → Ports) (g : State → State) (s : State) : Prop :=
  (g s).seq.phase ≠ .idle → resume ((g s).onPorts τ) = .next (g (s.onPorts τ))

section
variable {τ : Ports → Ports} {P : Nat → Ports → Prop} {s : State}

theorem TakenUp.of_idle {g : State → State} (h : (g s).seq.phase = .idle) : TakenUp τ g s := fun hne => absurd h hne

/-- A stream access and what follows it: where the access waits, the command is to be taken up at the access. -/
theorem takenUp_andThen {α : Type} {f : State → Flow α} {k : α → State → State} (hf : Seamless τ P f s)
    (hwait : ∀ t, f s = .wait t → t.seq.phase = s.seq.phase →
      resume (t.onPorts τ) = .next ((f (t.onPorts τ)).andThen k))
    (hgo : ∀ a t, f s = .go a t → t.seq.phase = s.seq.phase → P t.seq.ipos t.ports → TakenUp τ (k a) t) :
    TakenUp τ (fun s => (f s).andThen k) s := by
  intro hne
  cases hs : f s with
  | go a t =>
    obtain ⟨hτ, hp, hP⟩ := hf.go hs
    simp only [hs, hτ, andThen_go] at hne ⊢
    exact hgo a t hs hp hP hne
  | wait t =>
    obtain ⟨hτ, hp⟩ := hf.wait hs
    simp only [hs, andThen_wait, ← hτ]
    exact hwait t hs hp
  | fail c t => simp [hs] at hne

/-- The usual case: `g` is an access and what follows it, and `resume` takes the command up at `g`. -/
theorem takenUp_access {α : Type} {f : State → Flow α} {k : α → State → State} {g : State → State}
    (hg : ∀ m, g m = (f m).andThen k) (hf : Seamless τ P f s)
    (hr : ∀ m, m.seq.phase = s.seq.phase → resume m = .next (g m))
    (hgo : ∀ a t, t.seq.phase = s.seq.phase → P t.seq.ipos t.ports → TakenUp τ (k a) t) : TakenUp τ g s := by
  obtain rfl : g = fun m => (f m).andThen k := funext hg
  exact takenUp_andThen hf (fun t _ ht => hr _ ht) fun a t _ => hgo a t

/-- The read of a name field as an access, the failure of which leaves `NAMEBUF` unspecified. -/
def readField (s : State) : Flow (List Byte) :=
  match readExact Config.nameLen .nameFieldTruncated s with
  | .fail c t => .fail c (scrambleName t)
  | f => f

theorem readName_eq (k : State → State) (s : State) :
    readName k s = (readField s).andThen fun bytes t => k { t with regs.nameBuf := bytes } := by
  unfold readName readField
  cases readExact Config.nameLen .nameFieldTruncated s <;> rfl

theorem seamless_readField (h : Gives τ P) (hP : P s.seq.ipos s.ports) : Seamless τ P readField s := by
  have hread := seamless_readExact h hP Config.nameLen .nameFieldTruncated
  cases hs : readExact Config.nameLen .nameFieldTruncated s with
  | go bytes t =>
    obtain ⟨hτ, hp, hPt⟩ := hread.go hs
    exact .of_go (by rw [readField, hs]) (by rw [readField, hτ]) hp hPt
  | wait t =>
    obtain ⟨hτ, hp⟩ := hread.wait hs
    exact .of_wait_in (t := t) (by rw [readField, hs]) (by rw [readField, readField, hτ]) hp
  | fail c t => exact .of_fail (c := c) (t := scrambleName t) (by rw [readField, hs])

section
variable (h : Gives τ P) (hP : P s.seq.ipos s.ports)
include h hP

/-! ## Commands with one stream access -/

theorem takenUp_goCrcFeeds (hp : s.seq.phase = .prim .crcFeeds) : TakenUp τ goCrcFeeds s :=
  takenUp_access (fun _ => rfl) (seamless_feedAll h hP) (fun m hm => by simp [resume, hm, hp, resumePrim])
    fun _ _ _ _ => .of_idle rfl

theorem takenUp_goFldIn {r : Reg} (hp : s.seq.phase = .prim (.fldIn r)) : TakenUp τ (goFldIn r) s :=
  takenUp_access (fun _ => rfl) (seamless_readExact h hP _ _) (fun m hm => by simp [resume, hm, hp, resumePrim])
    fun _ _ _ _ => .of_idle rfl

theorem takenUp_goHdrUnpack (hp : s.seq.phase = .prim .hdrUnpack) : TakenUp τ goHdrUnpack s :=
  takenUp_access (fun _ => rfl) (seamless_readExact h hP _ _) (fun m hm => by simp [resume, hm, hp, resumePrim])
    fun _ _ _ _ => .of_idle rfl

/-- `FLD.OUT`, `HDR.PACK` and `NAME.OUT`. -/
theorem takenUp_goWrite (hr : ∀ m, m.seq.phase = s.seq.phase → resume m = .next (goWrite m)) : TakenUp τ goWrite s :=
  takenUp_access (fun _ => rfl) (h.out hP) hr fun _ _ _ _ => .of_idle rfl

theorem takenUp_writeOut {c : Instr} (bytes : List Byte)
    (hr : ∀ m, m.seq.phase = .prim c → resume m = .next (goWrite m)) : TakenUp τ (writeOut c bytes) s :=
  takenUp_goWrite (s := { begin (.prim c) s with seq.pend := bytes }) h hP hr

theorem takenUp_goNameIn (hp : s.seq.phase = .prim .nameIn) : TakenUp τ goNameIn s :=
  takenUp_access (readName_eq finish) (seamless_readField h hP) (fun m hm => by simp [resume, hm, hp, resumePrim])
    fun _ _ _ _ => .of_idle rfl

theorem takenUp_goNamePack (hp : s.seq.phase = .prim .namePack) : TakenUp τ goNamePack s :=
  takenUp_access (fun _ => rfl) (seamless_takeName h hP) (fun m hm => by simp [resume, hm, hp, resumePrim])
    fun _ _ _ _ => .of_idle rfl

theorem takenUp_goPayCopy (hp : s.seq.phase = .prim .payCopy) (h1 : s.seq.pend.length ≤ 1) : TakenUp τ goPayCopy s :=
  takenUp_access (fun _ => rfl) (seamless_copyOn h hP true h1) (fun m hm => by simp [resume, hm, hp, resumePrim])
    fun _ _ _ _ => .of_idle rfl

/-! ## `DECODE`, last phase first (44_codec.md R137) -/

theorem takenUp_goD7 (hp : s.seq.phase = .d7) (h1 : s.seq.pend.length ≤ 1) : TakenUp τ goD7 s :=
  takenUp_access (fun _ => rfl) (seamless_copyOn h hP true h1) (fun m hm => by simp [resume, hm, hp])
    fun _ t _ _ => .of_idle (by unfold checkPayload; split <;> rfl)

theorem takenUp_enterD7 : TakenUp τ enterD7 s := by
  cases hsink : sinkOn s with
  | false => exact .of_idle (by simp [enterD7, hsink, enterD8])
  | true =>
    have hgo (m : State) (hm : sinkOn m = true) : enterD7 m = goD7 { begin .d7 m with regs.acc := 0#32 } := by
      simp [enterD7, hm]
    unfold TakenUp
    rw [hgo s hsink, hgo (s.onPorts τ) hsink]
    exact takenUp_goD7 (s := { begin .d7 s with regs.acc := 0#32 }) h hP rfl (Nat.zero_le _)

theorem takenUp_enterD6 : TakenUp τ enterD6 s :=
  takenUp_enterD7 (s := setNameLen (nameUnpack s.regs.nameBuf).length (begin .d6 s)) h hP

theorem takenUp_goD5 (hp : s.seq.phase = .d5) : TakenUp τ goD5 s :=
  takenUp_access (readName_eq enterD6) (seamless_readField h hP) (fun m hm => by simp [resume, hm, hp])
    fun bytes t _ hPt => takenUp_enterD6 (s := { t with regs.nameBuf := bytes }) h hPt

theorem takenUp_goD4 (hp : s.seq.phase = .d4) : TakenUp τ goD4 s :=
  takenUp_access (fun _ => rfl) (seamless_readExact h hP _ _) (fun m hm => by simp [resume, hm, hp])
    fun bytes t _ hPt => takenUp_goD5 (s := begin .d5 { t with regs.pck := u32le bytes }) h hPt rfl

theorem takenUp_enterD3 : TakenUp τ enterD3 s := by
  by_cases hck : hdrCk (pack s.regs.hf) = s.regs.hck
  · have hgo (m : State) (hm : m.regs = s.regs) :
        enterD3 m = goD4 (begin .d4 { begin .d3 m with regs.acc := hdrCk (pack m.regs.hf) }) := by
      simp [enterD3, hm, hck]
    unfold TakenUp
    rw [hgo s rfl, hgo (s.onPorts τ) rfl]
    exact takenUp_goD4 (s := begin .d4 { begin .d3 s with regs.acc := hdrCk (pack s.regs.hf) }) h hP rfl
  · exact .of_idle (by simp [enterD3, hck])

theorem takenUp_goD2 (hp : s.seq.phase = .d2) : TakenUp τ goD2 s :=
  takenUp_access (fun _ => rfl) (seamless_readExact h hP _ _) (fun m hm => by simp [resume, hm, hp])
    fun bytes t _ hPt => takenUp_enterD3 (s := { t with regs.hck := u32le bytes }) h hPt

theorem takenUp_goD1 (hp : s.seq.phase = .d1) : TakenUp τ goD1 s :=
  takenUp_access (fun _ => rfl) (seamless_readExact h hP _ _) (fun m hm => by simp [resume, hm, hp])
    fun bytes t _ hPt => takenUp_goD2 (s := begin .d2 { t with regs.hf := unpack bytes }) h hPt rfl

/-! ## `ENCODE`, last phase first (44_codec.md R144) -/

theorem takenUp_goE7 (hp : s.seq.phase = .e7) (h1 : s.seq.pend.length ≤ 1) : TakenUp τ goE7 s :=
  takenUp_access (fun _ => rfl) (seamless_copyOn h hP false h1) (fun m hm => by simp [resume, hm, hp])
    fun _ _ _ _ => .of_idle rfl

section
variable (he : ∃ i p, P i p ∧ inTail p = .ended)
include he

theorem takenUp_enterE6 : TakenUp τ enterE6 s :=
  takenUp_andThen (s := begin .e6 s) (h.rewind he hP) (fun t ht _ => absurd ht (rewindIn_ne_wait _ t))
    fun _ t _ _ hPt => takenUp_goE7 (s := begin .e7 t) h hPt rfl (Nat.zero_le _)

theorem takenUp_goE5 (hp : s.seq.phase = .e5) : TakenUp τ goE5 s :=
  takenUp_access (fun _ => rfl) (h.out hP) (fun m hm => by simp [resume, hm, hp])
    fun _ _ _ hPt => takenUp_enterE6 h hPt he

theorem takenUp_enterE5 : TakenUp τ enterE5 s :=
  takenUp_goE5 (s := { begin .e5 s with seq.pend := s.regs.nameBuf }) h hP he rfl

/-- E4 waits in its write with bytes in hand. -/
theorem takenUp_writePck (hp : s.seq.phase = .e4) : TakenUp τ writePck s := by
  refine takenUp_andThen (h.out hP) (fun t hw ht => ?_) fun _ _ _ _ hPt => takenUp_enterE5 h hPt he
  obtain ⟨n, -, hn, rfl⟩ := flush_eq_wait.mp hw
  have hpend : s.seq.pend.drop n ≠ [] := by simpa using hn
  simp [resume, State.onPorts, hp, goE4, hpend, writePck]

end

/-- E4 waits in its feed with none. -/
theorem takenUp_feedE4 (hp : s.seq.phase = .e4) (hpend : s.seq.pend = []) : TakenUp τ feedE4 s := by
  refine takenUp_andThen (seamless_feedAll h hP) (fun t hw ht => ?_) fun _ t hgo ht hPt => ?_
  · simp only [feedAll_eq] at hw
    have hnone : t.seq.pend = [] := by rw [atEnd_eq_wait hw, hpend]
    simp [resume, State.onPorts, ht, hp, goE4, hnone, feedE4]
  · simp only [feedAll_eq] at hgo
    have hend := inTail_of_atEnd hgo
    exact takenUp_writePck (s := { t with regs.pck := t.regs.acc, seq.pend := le32 t.regs.acc }) h hPt
      ⟨_, _, hP, hend⟩ (ht.trans hp)

theorem takenUp_enterE4 : TakenUp τ enterE4 s :=
  takenUp_feedE4 (s := { begin .e4 s with regs.acc := 0#32 }) h hP rfl rfl

theorem takenUp_goE3 (hp : s.seq.phase = .e3) : TakenUp τ goE3 s :=
  takenUp_access (fun _ => rfl) (h.out hP) (fun m hm => by simp [resume, hm, hp]) fun _ _ _ hPt => takenUp_enterE4 h hPt

theorem takenUp_enterE3 : TakenUp τ enterE3 s :=
  let ck := hdrCk (pack s.regs.hf)
  takenUp_goE3 (s := { begin .e3 s with regs.acc := ck, regs.hck := ck, seq.pend := le32 ck }) h hP rfl

theorem takenUp_goE2 (hp : s.seq.phase = .e2) : TakenUp τ goE2 s :=
  takenUp_access (fun _ => rfl) (h.out hP) (fun m hm => by simp [resume, hm, hp]) fun _ _ _ hPt => takenUp_enterE3 h hPt

theorem takenUp_enterE2 : TakenUp τ enterE2 s :=
  takenUp_goE2 (s := { begin .e2 s with regs.hf := Header.constants, seq.pend := pack Header.constants }) h hP rfl

theorem takenUp_goE1 (hp : s.seq.phase = .e1) : TakenUp τ goE1 s :=
  takenUp_access (fun _ => rfl) (seamless_takeName h hP) (fun m hm => by simp [resume, hm, hp])
    fun us t _ hPt => takenUp_enterE2 (s := storeName us t) h hPt

/-! ## Every command -/

omit h hP in
theorem idle_of_inRewind : ((rewindIn s).andThen fun _ t => finish t).seq.phase = .idle := by
  cases hs : rewindIn s with
  | go a t => rfl
  | wait t => exact absurd hs (rewindIn_ne_wait s t)
  | fail c t => rfl

/-- Any command that waits is taken up again as if the host had made its gift before it started. -/
theorem exec_takenUp {i : Instr} {a : State} (hexec : exec i s = .next a) (ha : a.seq.phase ≠ .idle) :
    resume (a.onPorts τ) = exec i (s.onPorts τ) := by
  have hbegin {p : Phase} : P (begin p s).seq.ipos (begin p s).ports := hP
  cases i <;> obtain rfl := Host.Outcome.next.inj hexec
  case nop => exact absurd rfl ha
  case crcLoad v => exact absurd rfl ha
  case crcFeed b => exact absurd rfl ha
  case crcFeeds => exact takenUp_goCrcFeeds h hbegin rfl ha
  case regRd r => exact absurd rfl ha
  case regWr r v => exact absurd (by cases r <;> rfl) ha
  case fldIn r =>
    cases hr : r.fieldIn <;> simp only [exec, execFldIn, ifLegal, hr, if_true, if_false, Bool.false_eq_true] at ha ⊢
    · exact absurd rfl ha
    · exact takenUp_goFldIn h hbegin rfl ha
  case fldOut r =>
    cases hr : r.fieldOut <;> simp only [exec, execFldOut, ifLegal, hr, if_true, if_false, Bool.false_eq_true] at ha ⊢
    · exact absurd rfl ha
    · exact takenUp_writeOut h hP _ (fun m hm => by simp [resume, hm, resumePrim]) ha
  case hdrDflt => exact absurd rfl ha
  case hdrUnpack => exact takenUp_goHdrUnpack h hbegin rfl ha
  case hdrPack => exact takenUp_writeOut h hP _ (fun m hm => by simp [resume, hm, resumePrim]) ha
  case hdrCrc => exact absurd rfl ha
  case nameIn => exact takenUp_goNameIn h hbegin rfl ha
  case nameOut => exact takenUp_writeOut h hP _ (fun m hm => by simp [resume, hm, resumePrim]) ha
  case namePack => exact takenUp_goNamePack h hbegin rfl ha
  case nameUnpack => exact absurd rfl ha
  case payCopy => exact takenUp_goPayCopy (s := { begin (.prim .payCopy) s with regs.acc := 0#32 }) h hP rfl (Nat.zero_le _) ha
  case decode => exact takenUp_goD1 (s := clearVerified (begin .d1 s)) h hP rfl ha
  case encode => exact takenUp_goE1 (s := begin .e1 s) h hP rfl ha
  case inRewind => exact absurd idle_of_inRewind ha

end
end

end Sys2Proof.Machine
end

section
/-! SUPPORT. The three gifts of the host, and the obligations on cuts settled. -/
namespace Sys2Proof.Machine

section
variable {τ : Ports → Ports} {P : Nat → Ports → Prop} {s : State}

/-- A gift that changes at most the room on `OUT`, by `g`. -/
theorem seamless_flush {g : Room → Room} (hP : P s.seq.ipos s.ports)
    (hτ : ∀ p, (τ p).out = p.out ∧ (τ p).outRoom = g p.outRoom ∧
      ∀ out room, τ { p with out := out, outRoom := room } = { τ p with out := out, outRoom := g room })
    (hgo : ∀ room n, room.takes n = true → (g room).takes n = true ∧ (g room).less n = g (room.less n))
    (hwait : ∀ n, g (.upTo n false) = (Room.upTo n false).then (g (.upTo 0 false)))
    (hkeep : ∀ i p out room, P i p → P i { p with out := out, outRoom := room }) : Seamless τ P flush s := by
  obtain ⟨hout, hroom, hset⟩ := hτ s.ports
  have haccept (n : Nat) (room : Room) : (accept n room s).onPorts τ = accept n (g room) (s.onPorts τ) := by
    simp only [accept, State.onPorts]
    rw [hset, hout]
  cases hf : flush s with
  | go a t =>
    obtain ⟨htakes, rfl⟩ := flush_eq_go.mp hf
    obtain ⟨htakes', hless⟩ := hgo _ _ htakes
    refine .of_go hf ?_ rfl (hkeep _ _ _ _ hP)
    rw [haccept, flush_eq_go]
    simp only [State.onPorts, hroom]
    exact ⟨htakes', by rw [hless]⟩
  | wait t =>
    obtain ⟨n, hn, hlt, rfl⟩ := flush_eq_wait.mp hf
    refine .of_wait_in hf ?_ rfl
    rw [haccept, flush_accept (s := s.onPorts τ) (Nat.le_of_lt hlt), ← hwait, ← hn, ← hroom]
    rfl
  | fail c t => exact .of_fail hf

/-- A gift that changes nothing of `IN`. -/
theorem seamless_rewindIn
    (hτ : ∀ p, (τ p).inData = p.inData ∧ (τ p).inEnd = p.inEnd ∧ (τ p).inRewind = p.inRewind ∧
      ∀ bytes, τ { p with inEos := false, inData := bytes } = { τ p with inEos := false, inData := bytes })
    (hP : ∀ p, P 0 p) : Seamless τ P rewindIn s := by
  obtain ⟨hdata, hend, hrewind, hset⟩ := hτ s.ports
  have hdown : inDown (s.onPorts τ) = inDown s := by simp [inDown, unread, State.onPorts, hdata, hend]
  cases hd : inDown s with
  | true => exact .of_fail (c := .ioError) (t := s) (by simp [rewindIn, hd])
  | false =>
    have hgo {bytes : List Byte}
        (hr : s.ports.inRewind = .other bytes ∨ s.ports.inRewind = .same ∧ bytes = s.ports.inData) :
        Seamless τ P rewindIn s := by
      have hτ := rewindIn_rewound (hdown.trans hd) (bytes := bytes) (by simpa only [State.onPorts, hrewind, hdata] using hr)
      refine .of_go (rewindIn_rewound hd hr) (hτ.trans ?_) rfl (hP _)
      simp only [State.onPorts, rewound]
      rw [hset]
    cases hr : s.ports.inRewind with
    | same => exact hgo (.inr ⟨hr, rfl⟩)
    | other bytes => exact hgo (.inl hr)
    | unable => exact .of_fail (c := .ioError) (t := s) (by simp [rewindIn, hd, hr])

theorem room_then_takes (more : Room) {room : Room} {n : Nat} (h : room.takes n = true) :
    (room.then more).takes n = true ∧ (room.then more).less n = (room.less n).then more := by
  cases room <;> cases more <;> simp_all [Room.then, Room.takes, Room.less]; omega

theorem room_then_more (more : Room) (n : Nat) :
    (Room.upTo n false).then more = (Room.upTo n false).then ((Room.upTo 0 false).then more) := by
  cases more <;> simp [Room.then]

theorem room_then_none (n : Nat) : Room.upTo n false = (Room.upTo n false).then (.upTo 0 false) := rfl

/-- Bytes delivered on an open `IN` (20_memory.md R47), and what follows them. -/
theorem gives_fill (ys : List Byte) (ending : StreamEnd) :
    Gives (fun p => { p with inData := p.inData ++ ys, inEnd := ending })
      fun ipos p => inTail p = .pending ∧ ipos ≤ p.inData.length where
  byte {s b rest} hP hu := by
    obtain ⟨ht, hi⟩ := hP
    have hlen : s.seq.ipos < s.ports.inData.length := by
      have : unread s ≠ [] := by simp [hu]
      simpa [unread] using this
    refine ⟨⟨rest ++ ys, ?_⟩, ht, hlen⟩
    rw [← List.cons_append, ← hu]
    exact List.drop_append_of_le_length hi
  ended hP _ ht := by simp [hP.1] at ht
  out hP := seamless_flush (g := id) hP (fun _ => ⟨rfl, rfl, fun _ _ => rfl⟩) (fun _ _ h => ⟨h, rfl⟩) room_then_none
    fun _ _ _ _ h => h
  nin := ⟨[], fun _ _ hP _ => ⟨by simp, by simp, hP⟩⟩
  rewind he := by
    obtain ⟨i, p, ⟨ht, -⟩, ht'⟩ := he
    simp [ht] at ht'

/-- Further acceptance on `OUT` (20_memory.md R49). -/
theorem gives_widen (more : Room) : Gives (fun p => { p with outRoom := p.outRoom.then more }) fun _ _ => True where
  byte _ hu := ⟨⟨_, hu⟩, trivial⟩
  ended _ hu ht := ⟨⟨hu, atEnd_ended ht⟩, trivial⟩
  out hP := seamless_flush (g := (·.then more)) hP (fun _ => ⟨rfl, rfl, fun _ _ => rfl⟩)
    (fun _ _ => room_then_takes more) (room_then_more more) fun _ _ _ _ h => h
  nin := ⟨[], fun _ _ _ _ => ⟨by simp, by simp, trivial⟩⟩
  rewind _ _ _ := seamless_rewindIn (fun _ => ⟨rfl, rfl, rfl, fun _ => rfl⟩) fun _ => trivial

/-- Further items on `NIN` (20_memory.md R50), and whether it fails behind them. -/
theorem gives_supply (items : List NinItem) (failed : Bool) :
    Gives (fun p => { p with nin := p.nin ++ items, ninFailed := failed }) fun _ _ => True where
  byte _ hu := ⟨⟨_, hu⟩, trivial⟩
  ended _ hu ht := ⟨⟨hu, atEnd_ended ht⟩, trivial⟩
  out hP := seamless_flush (g := id) hP (fun _ => ⟨rfl, rfl, fun _ _ => rfl⟩) (fun _ _ h => ⟨h, rfl⟩) room_then_none
    fun _ _ _ _ h => h
  nin := ⟨items, fun _ _ _ _ => ⟨rfl, rfl, trivial⟩⟩
  rewind _ _ _ := seamless_rewindIn (fun _ => ⟨rfl, rfl, rfl, fun _ => rfl⟩) fun _ => trivial

end

/-- Settles O52: the bytes are a gift that every command takes up (`exec_takenUp`). -/
theorem deliveryCutsAreInvisible : Obligations.DeliveryCutsAreInvisible :=
  fun _ _ _ ys ending ht hi hexec ha => exec_takenUp (gives_fill ys ending) ⟨ht, hi⟩ hexec ha

/-- Settles O59: so are further acceptance on `OUT` and further items on `NIN`. -/
theorem outAndNameCutsAreInvisible : Obligations.OutAndNameCutsAreInvisible :=
  ⟨fun _ _ _ _ more _ hexec ha => exec_takenUp (gives_widen more) trivial hexec ha,
    fun _ _ _ items failed _ hexec ha => exec_takenUp (gives_supply items failed) trivial hexec ha⟩

end Sys2Proof.Machine
end

section
/-! SUPPORT. `ENCODE` up to its rewind, to a host with room for the first 156 bytes (44_codec.md R144). -/
namespace Sys2Proof.Machine

/-- `bytes` have been written to `OUT` (20_memory.md R49). -/
def written (bytes : List Byte) (s : State) : State :=
  { s with ports.out := s.ports.out ++ bytes, ports.outRoom := s.ports.outRoom.less bytes.length,
           seq.opos := s.seq.opos + bytes.length }

/-- The registers when `ENCODE` comes to its rewind, `ck` being the checksum of the first pass. -/
def encodedRegs (us : List CodeUnit) (ck : Word) (x : Regs) : Regs :=
  { x with hf := Header.constants, hck := hdrCk (pack Header.constants), acc := ck, pck := ck, nameBuf := (namePack us).1,
           nameLen := BitVec.ofNat 7 (namePack us).2 }

/-- The first 156 bytes of a container. -/
def containerHead (us : List CodeUnit) (ck : Word) : List Byte :=
  pack Header.constants ++ le32 (hdrCk (pack Header.constants)) ++ le32 ck ++ (namePack us).1

theorem length_le32 (v : Word) : (le32 v).length = 4 := rfl

theorem length_pack (f : Header) : (pack f).length = 20 := rfl

theorem length_containerHead (us : List CodeUnit) (ck : Word) : (containerHead us ck).length = 156 := by
  simp [containerHead, length_pack, length_le32, length_namePack]

section
variable {s : State}

theorem written_written (xs ys : List Byte) : written ys (written xs s) = written (xs ++ ys) s := by
  simp [written, less_less, Nat.add_assoc]

/-- An `OutWrite` to a host with room for it, and what follows. -/
theorem outWrite_andThen {bytes : List Byte} {k : Unit → State → State}
    (h : s.ports.outRoom.takes bytes.length = true) :
    (outWrite bytes s).andThen k = k () { written bytes s with seq.pend := [] } := by
  rw [outWrite, flush_takes (s := { s with seq.pend := bytes }) h]
  simp [accept, written]

/-! ## The phases E1 to E5 -/

theorem goE1_message {us : List CodeUnit} {rest : List NinItem} (hn : s.ports.nin = messageFirst us rest) :
    goE1 (begin .e1 s) = enterE2 (storeName us { s with ports.nin := rest }) := by
  simp only [goE1, takeName, begin_ports, hn, messageFirst, takeUnits_message]
  rfl

theorem enterE2_written (h : s.ports.outRoom.takes 20 = true) :
    enterE2 s = enterE3 (written (pack Header.constants) { s with regs.hf := Header.constants }) :=
  outWrite_andThen (bytes := pack Header.constants) (s := { begin .e2 s with regs.hf := Header.constants }) h

theorem enterE3_written (h : s.ports.outRoom.takes 4 = true) :
    let ck := hdrCk (pack s.regs.hf)
    enterE3 s = enterE4 (written (le32 ck) { s with regs.acc := ck, regs.hck := ck }) :=
  let ck := hdrCk (pack s.regs.hf)
  outWrite_andThen (bytes := le32 ck) (s := { begin .e3 s with regs.acc := ck, regs.hck := ck }) h

theorem enterE4_written (he : inTail s.ports = .ended) (h : s.ports.outRoom.takes 4 = true) :
    let ck := update (unread s) 0#32
    enterE4 s = enterE5 (written (le32 ck)
      { s with regs.acc := ck, regs.pck := ck, seq.ipos := s.seq.ipos + (unread s).length, ports.inEos := true }) := by
  intro ck
  have hfeed : feedAll (unread s) { begin .e4 s with regs.acc := 0#32 } =
      .go () { begin .e4 s with regs.acc := ck, seq.ipos := s.seq.ipos + (unread s).length, ports.inEos := true } := by
    rw [feedAll_eq]
    exact atEnd_ended he
  have hu : unread { begin .e4 s with regs.acc := 0#32 } = unread s := rfl
  rw [enterE4, feedE4, hu, hfeed]
  exact outWrite_andThen (bytes := le32 ck)
    (s := { begin .e4 s with regs.acc := ck, regs.pck := ck, seq.ipos := s.seq.ipos + (unread s).length,
                             ports.inEos := true }) h

theorem enterE5_written (h : s.ports.outRoom.takes s.regs.nameBuf.length = true) :
    enterE5 s = enterE6 (written s.regs.nameBuf s) :=
  outWrite_andThen (bytes := s.regs.nameBuf) (s := begin .e5 s) h

/-- With a name on `NIN`, an `IN` that ends and room for the head of the container, `ENCODE` comes to its rewind. -/
theorem exec_encode_to_rewind {us : List CodeUnit} {rest : List NinItem} (hn : s.ports.nin = messageFirst us rest)
    (he : inTail s.ports = .ended) (hroom : s.ports.outRoom.takes 156 = true) :
    let ck := update (unread s) 0#32
    exec .encode s = .next (enterE6 (written (containerHead us ck)
      { s with regs := encodedRegs us ck s.regs, seq.ipos := s.seq.ipos + (unread s).length, ports.nin := rest,
               ports.inEos := true })) := by
  obtain ⟨h20, h136⟩ := takes_add (n := 20) (m := 136) hroom
  obtain ⟨h4, h132⟩ := takes_add (n := 4) (m := 132) h136
  obtain ⟨h4', h128⟩ := takes_add (n := 4) (m := 128) h132
  simp only [exec, execEncode]
  rw [goE1_message hn, enterE2_written, enterE3_written, enterE4_written, enterE5_written, containerHead,
    ← written_written, ← written_written, ← written_written]
  · rfl
  · exact (length_namePack us).symm ▸ h128
  · exact he
  · exact h4'
  · exact h4
  · exact h20

theorem enterE6_unable (he : s.ports.inEnd = .ended) (hr : s.ports.inRewind = .unable) :
    enterE6 s = raise .ioError s := by
  simp only [enterE6, rewindIn, inDown, begin_ports, he, hr]
  rfl

end

/-- The checksum of the constant header (44_codec.md R144). -/
theorem hdrCk_constants : hdrCk (pack Header.constants) = 0x9E54D683#32 := by decide +kernel

/-- Settles O42: `ENCODE` comes to its rewind (`exec_encode_to_rewind`), and that fails. -/
theorem encodeNeedsTheRewind : Obligations.EncodeNeedsTheRewind := by
  intro s us rest hn hend hrew hroom ck
  have he : inTail s.ports = .ended := by simp [inTail, hend]
  rw [exec_encode_to_rewind hn he hroom, enterE6_unable, ← hdrCk_constants, written, length_containerHead]
  · rfl
  · exact hend
  · exact hrew

end Sys2Proof.Machine
end

section
/-! SUPPORT. The command word (30_encoding.md R62 to R66): its fields, what each shape of the decoder accepts, and the
obligations on the decoder and the encoder settled. -/
namespace Sys2Proof

open Sys2Proof.Machine

/-! ## The fields of a word -/

section
variable (op idx : Byte) (data : Word)

@[simp] theorem opField_append : opField (op ++ idx ++ data) = op := (Laws.assemble_fields op idx data).1
@[simp] theorem idxField_append : idxField (op ++ idx ++ data) = idx := (Laws.assemble_fields op idx data).2.1
@[simp] theorem dataField_append : dataField (op ++ idx ++ data) = data := (Laws.assemble_fields op idx data).2.2

end

/-- A word is its three fields (30_encoding.md R62). -/
theorem append_fields (w : CommandWord) : opField w ++ idxField w ++ dataField w = w := by
  have hhigh : opField w ++ idxField w = w.extractLsb' 32 16 := BitVec.extractLsb'_append_extractLsb'_eq_extractLsb' rfl
  have hword : w.extractLsb' 32 16 ++ dataField w = w.extractLsb' 0 48 :=
    BitVec.extractLsb'_append_extractLsb'_eq_extractLsb' rfl
  rw [hhigh, hword, BitVec.extractLsb'_eq_self]

/-- A masked word is a pattern exactly when each masked field is the pattern's. -/
theorem append_and_eq {op idx op' idx' mo mi : Byte} {data data' md : Word} :
    (op ++ idx ++ data) &&& (mo ++ mi ++ md) = op' ++ idx' ++ data' ↔
      op &&& mo = op' ∧ idx &&& mi = idx' ∧ data &&& md = data' := by
  rw [BitVec.and_append, BitVec.and_append]
  constructor
  · intro h
    exact ⟨by simpa using congrArg opField h, by simpa using congrArg idxField h, by simpa using congrArg dataField h⟩
  · rintro ⟨rfl, rfl, rfl⟩
    rfl

/-- A command whose fields are those of a word is encoded as that word. -/
theorem encode_eq {i : Instr} {w : CommandWord} (hop : i.opcode = opField w) (hidx : i.idx = idxField w)
    (hdata : i.data = dataField w) : encode i = w := by
  rw [encode, assemble, hop, hidx, hdata, append_fields]

/-! ## Register indices -/

theorem ofIndex_eq (n : Byte) : Reg.ofIndex n = registers[n.toNat]? := by
  unfold Reg.ofIndex
  generalize n.toNat = k
  match k with
  | 0 | 1 | 2 | 3 | 4 | 5 | 6 | 7 | 8 | 9 | 10 | 11 => rfl
  | _ + 12 => rfl

/-- The registers stand in the list in the order of their indices (30_encoding.md R65). -/
theorem registers_index (r : Reg) : registers[r.index.toNat]? = some r := by cases r <;> rfl

theorem registers_eq_some {idx : Byte} {r : Reg} : registers[idx.toNat]? = some r ↔ r.index = idx := by
  constructor
  · intro h
    have hnodup : registers.Nodup := by decide
    obtain ⟨hlt, -⟩ := List.getElem?_eq_some_iff.mp (registers_index r)
    exact BitVec.eq_of_toNat_eq ((List.getElem?_inj hlt hnodup).mp ((registers_index r).trans h.symm))
  · rintro rfl
    exact registers_index r

theorem registerIn_eq_some {legal : List Nat} {idx : Byte} {r : Reg} :
    registerIn legal idx = some r ↔ r.index = idx ∧ idx.toNat ∈ legal := by
  unfold registerIn
  split <;> simp [registers_eq_some, *]

/-! ## What each shape accepts (30_encoding.md R66) -/

section
variable {idx : Byte} {data : Word} {j : Instr}

@[simp] theorem shapeC0_eq_ok {i : Instr} : shapeC0 i idx data = .ok j ↔ (idx = 0#8 ∧ data = 0#32) ∧ i = j := by
  unfold shapeC0
  split <;> simp [*]

@[simp] theorem shapeCD_eq_ok {f : Word → Instr} : shapeCD f idx data = .ok j ↔ idx = 0#8 ∧ f data = j := by
  unfold shapeCD
  split <;> simp [*]

@[simp] theorem shapeCB_eq_ok {f : Byte → Instr} :
    shapeCB f idx data = .ok j ↔
      (idx = 0#8 ∧ data.extractLsb' 8 24 = 0#24) ∧ f (data.extractLsb' 0 8) = j := by
  unfold shapeCB
  split <;> simp [*]

theorem indexed_eq_ok {f : Reg → Instr} :
    indexed f idx = .ok j ↔ ∃ r, r.index = idx ∧ (f r).wf = true ∧ f r = j := by
  unfold indexed
  simp only [ofIndex_eq, ← registers_eq_some]
  cases registers[idx.toNat]? with
  | none => simp
  | some r => by_cases hr : (f r).wf = true <;> simp [hr]

@[simp] theorem shapeCI_eq_ok {f : Reg → Instr} :
    shapeCI f idx data = .ok j ↔ data = 0#32 ∧ indexed f idx = .ok j := by
  unfold shapeCI
  split <;> simp [*]

@[simp] theorem noOperand_eq_some {i : Instr} :
    noOperand i idx data = some j ↔ (idx = 0#8 ∧ data = 0#32) ∧ i = j := by
  unfold noOperand
  split <;> simp [*]

/-- The index set of a row is that of the command's register operand. -/
theorem indexed_eq_ok_iff_registerIn {f : Reg → Instr} (legal : List Nat)
    (hf : ∀ r, (f r).wf = decide (r.index.toNat ∈ legal)) :
    indexed f idx = .ok j ↔ (registerIn legal idx).map f = some j := by
  simp only [indexed_eq_ok, hf, decide_eq_true_eq, Option.map_eq_some_iff, registerIn_eq_some]
  constructor
  · rintro ⟨r, rfl, hr, hj⟩
    exact ⟨r, ⟨rfl, hr⟩, hj⟩
  · rintro ⟨r, ⟨rfl, hr⟩, hj⟩
    exact ⟨r, rfl, hr, hj⟩

end

/-- A row's index set names registers, and the word with any of its indices is accepted. -/
theorem exists_indexed {f : Reg → Instr} {legal : List Nat} {idx : Byte}
    (hf : ∀ r, (f r).wf = decide (r.index.toNat ∈ legal)) (hl : legal ⊆ List.range 12) :
    (∃ j, indexed f idx = .ok j) ↔ idx.toNat ∈ legal := by
  simp only [indexed_eq_ok, hf, decide_eq_true_eq]
  constructor
  · rintro ⟨j, r, rfl, hr, -⟩
    exact hr
  · intro hidx
    have hlt : idx.toNat < registers.length := List.mem_range.mp (hl hidx)
    have hr := registers_eq_some.mp (List.getElem?_eq_getElem hlt)
    exact ⟨_, _, hr, hr.symm ▸ hidx, rfl⟩

theorem regRd_wf (r : Reg) : (Instr.regRd r).wf = decide (r.index.toNat ∈ [0, 1, 2, 3, 4, 5, 6, 7, 8, 9, 10, 11]) := by
  cases r <;> rfl

theorem regWr_wf (v : Word) (r : Reg) :
    (Instr.regWr r v).wf = decide (r.index.toNat ∈ [0, 1, 2, 3, 4, 5, 6, 7, 11]) := by
  cases r <;> rfl

theorem fldIn_wf (r : Reg) : (Instr.fldIn r).wf = decide (r.index.toNat ∈ [0, 1, 2, 3, 4, 5, 6]) := by
  cases r <;> rfl

theorem fldOut_wf (r : Reg) : (Instr.fldOut r).wf = decide (r.index.toNat ∈ [0, 1, 2, 3, 4, 5, 6, 7]) := by
  cases r <;> rfl

theorem append_low_byte (data : Word) : data.extractLsb' 8 24 ++ data.extractLsb' 0 8 = data := by
  have hword : data.extractLsb' 8 24 ++ data.extractLsb' 0 8 = data.extractLsb' 0 32 :=
    BitVec.extractLsb'_append_extractLsb'_eq_extractLsb' rfl
  rw [hword, BitVec.extractLsb'_eq_self]

/-- A byte immediate is the low byte of a data field whose other bits are zero (30_encoding.md R68). -/
theorem setWidth_low_byte {data : Word} (h : data.extractLsb' 8 24 = 0#24) :
    (data.extractLsb' 0 8).setWidth 32 = data := by
  have hdata := append_low_byte data
  rw [h] at hdata
  exact (BitVec.setWidth_eq_append (by decide)).trans hdata

theorem low_byte_setWidth (b : Byte) :
    (b.setWidth 32).extractLsb' 8 24 = 0#24 ∧ (b.setWidth 32).extractLsb' 0 8 = b := by
  have hb : b.setWidth 32 = 0#24 ++ b := BitVec.setWidth_eq_append (by decide)
  rw [hb]
  exact ⟨BitVec.extractLsb'_append_eq_left, BitVec.extractLsb'_append_eq_right⟩

/-! ## Decoding and encoding -/

/-- The word of a well-formed command decodes to it, shape by shape. -/
theorem decode_encode {i : Instr} (h : i.wf = true) : decode (encode i) = .ok i := by
  simp only [encode, assemble, decode, opField_append, idxField_append, dataField_append]
  cases i
  case crcLoad v => simp [Instr.opcode, Instr.idx, Instr.data]
  case crcFeed b => simp [Instr.opcode, Instr.idx, Instr.data, low_byte_setWidth]
  case regRd r => exact shapeCI_eq_ok.mpr ⟨rfl, indexed_eq_ok.mpr ⟨r, rfl, h, rfl⟩⟩
  case regWr r v => exact indexed_eq_ok.mpr ⟨r, rfl, h, rfl⟩
  case fldIn r => exact shapeCI_eq_ok.mpr ⟨rfl, indexed_eq_ok.mpr ⟨r, rfl, h, rfl⟩⟩
  case fldOut r => exact shapeCI_eq_ok.mpr ⟨rfl, indexed_eq_ok.mpr ⟨r, rfl, h, rfl⟩⟩
  all_goals rfl

section
variable {w : CommandWord} {i : Instr}

theorem encode_of_shapeC0 {j : Instr} (h : shapeC0 j (idxField w) (dataField w) = .ok i)
    (hop : (opField w).toNat = j.opcode.toNat) (hj : j.wf = true ∧ j.idx = 0#8 ∧ j.data = 0#32) :
    i.wf = true ∧ encode i = w := by
  obtain ⟨⟨hidx, hdata⟩, rfl⟩ := shapeC0_eq_ok.mp h
  obtain ⟨hwf, hidx', hdata'⟩ := hj
  exact ⟨hwf, encode_eq (BitVec.eq_of_toNat_eq hop.symm) (hidx'.trans hidx.symm) (hdata'.trans hdata.symm)⟩

theorem encode_of_indexed {f : Reg → Instr} (h : indexed f (idxField w) = .ok i)
    (hop : ∀ r, (opField w).toNat = (f r).opcode.toNat) (hf : ∀ r, (f r).idx = r.index ∧ (f r).data = dataField w) :
    i.wf = true ∧ encode i = w := by
  obtain ⟨r, hr, hwf, rfl⟩ := indexed_eq_ok.mp h
  exact ⟨hwf, encode_eq (BitVec.eq_of_toNat_eq (hop r).symm) ((hf r).1.trans hr) (hf r).2⟩

theorem encode_of_shapeCI {f : Reg → Instr} (h : shapeCI f (idxField w) (dataField w) = .ok i)
    (hop : ∀ r, (opField w).toNat = (f r).opcode.toNat) (hf : ∀ r, (f r).idx = r.index ∧ (f r).data = 0#32) :
    i.wf = true ∧ encode i = w := by
  obtain ⟨hdata, h⟩ := shapeCI_eq_ok.mp h
  exact encode_of_indexed h hop fun r => ⟨(hf r).1, (hf r).2.trans hdata.symm⟩

/-- A word that decodes is the word of the command it decodes to, opcode by opcode. -/
theorem encode_of_decode (h : decode w = .ok i) : i.wf = true ∧ encode i = w := by
  unfold decode at h
  dsimp only at h
  split at h <;> rename_i hop
  case h_2 =>
    obtain ⟨hidx, rfl⟩ := shapeCD_eq_ok.mp h
    exact ⟨rfl, encode_eq (BitVec.eq_of_toNat_eq hop.symm) hidx.symm rfl⟩
  case h_3 =>
    obtain ⟨⟨hidx, hdata⟩, rfl⟩ := shapeCB_eq_ok.mp h
    exact ⟨rfl, encode_eq (BitVec.eq_of_toNat_eq hop.symm) hidx.symm (setWidth_low_byte hdata)⟩
  case h_5 => exact encode_of_shapeCI h (fun _ => hop) fun _ => ⟨rfl, rfl⟩
  case h_6 => exact encode_of_indexed h (fun _ => hop) fun _ => ⟨rfl, rfl⟩
  case h_7 => exact encode_of_shapeCI h (fun _ => hop) fun _ => ⟨rfl, rfl⟩
  case h_8 => exact encode_of_shapeCI h (fun _ => hop) fun _ => ⟨rfl, rfl⟩
  case h_21 => cases h
  all_goals exact encode_of_shapeC0 h hop ⟨rfl, rfl, rfl⟩

end

/-- Settles O9, from `decode_encode`. -/
theorem decodeEncodeRoundTrip : Obligations.DecodeEncodeRoundTrip := fun _ => decode_encode

/-- Settles O10, from `encode_of_decode`. -/
theorem decodedWordIsTheEncoding : Obligations.DecodedWordIsTheEncoding := fun _ _ => encode_of_decode

/-! ## The opcode map, word by word -/

/-- The words of an opcode stand for what `meaning` says when the decoder accepts exactly the fields it accepts. -/
theorem wordsOf_of_decode {op : Byte} {meaning : Byte → Word → Option Instr}
    (h : ∀ idx data i, decode (op ++ idx ++ data) = .ok i ↔ meaning idx data = some i) : wordsOf op meaning := by
  intro idx data
  cases hm : meaning idx data with
  | some i => exact (h idx data i).mpr hm
  | none =>
    intro s hidle hcmd
    cases hd : decode (op ++ idx ++ data) with
    | ok i => cases hm.symm.trans ((h idx data i).mp hd)
    | error e => simp [step, hidle, hcmd, hd]

theorem wordsOf_noOperand {op : Byte} {i : Instr}
    (hd : ∀ idx data, decode (op ++ idx ++ data) = shapeC0 i idx data := by simp [decode]) :
    wordsOf op (noOperand i) :=
  wordsOf_of_decode fun idx data j => by rw [hd, shapeC0_eq_ok, noOperand_eq_some]

/-- A command whose one operand is a register of an index set. -/
theorem wordsOf_register {op : Byte} {f : Reg → Instr} (legal : List Nat)
    (hf : ∀ r, (f r).wf = decide (r.index.toNat ∈ legal))
    (hd : ∀ idx data, decode (op ++ idx ++ data) = shapeCI f idx data := by simp [decode]) :
    wordsOf op fun idx data => if data = 0#32 then (registerIn legal idx).map f else none :=
  wordsOf_of_decode fun idx data j => by
    rw [hd, shapeCI_eq_ok, indexed_eq_ok_iff_registerIn legal hf]
    split <;> simp [*]

theorem opcode_lt (i : Instr) : i.opcode < 0x14#8 := by cases i <;> simp [Instr.opcode]

theorem opcode_of_decode {w : CommandWord} {i : Instr} (h : decode w = .ok i) : i.opcode = opField w := by
  obtain ⟨-, rfl⟩ := encode_of_decode h
  exact (opField_append ..).symm

/-- Settles O13: for each opcode the decoder accepts exactly the fields that `meaning` names, by the shape of its row. -/
theorem commandEncodings : Obligations.CommandEncodings := by
  refine ⟨wordsOf_noOperand, ?crcLoad, ?crcFeed, wordsOf_noOperand, wordsOf_register _ regRd_wf, ?regWr,
    wordsOf_register _ fldIn_wf, wordsOf_register _ fldOut_wf, wordsOf_noOperand, wordsOf_noOperand, wordsOf_noOperand,
    wordsOf_noOperand, wordsOf_noOperand, wordsOf_noOperand, wordsOf_noOperand, wordsOf_noOperand, wordsOf_noOperand,
    wordsOf_noOperand, wordsOf_noOperand, wordsOf_noOperand, ?reserved⟩
  case crcLoad => exact wordsOf_of_decode fun idx data i => by simp [decode]
  case crcFeed => exact wordsOf_of_decode fun idx data i => by simp [decode]
  case regWr =>
    refine wordsOf_of_decode fun idx data i => ?_
    rw [← indexed_eq_ok_iff_registerIn _ (regWr_wf data)]
    simp [decode, shapeCID]
  case reserved =>
    intro op hop
    refine wordsOf_of_decode fun idx data i => ⟨fun hd => ?_, fun hm => by cases hm⟩
    have hi : i.opcode = op := by simpa using opcode_of_decode hd
    exact absurd (opcode_lt i) (BitVec.not_lt.mpr (hi ▸ hop))

/-! ## The opcode table -/

section
variable {w : CommandWord} {i : Instr} {row : OpcodeRow}

theorem and_full_byte {b : Byte} : b &&& 0xFF#8 = b := BitVec.and_allOnes

theorem and_full_word {v : Word} : v &&& 0xFFFFFFFF#32 = v := BitVec.and_allOnes

/-- The mask of `CRC.FEED` leaves out the low byte of `data`. -/
theorem and_high_bytes {data : Word} : data &&& 0xFFFFFF00#32 = 0#32 ↔ data.extractLsb' 8 24 = 0#24 := by
  have hmask : 0xFFFFFF00#32 = BitVec.allOnes 24 ++ 0#8 := by decide
  have hzero : 0#32 = 0#24 ++ 0#8 := by decide
  have hand : data &&& 0xFFFFFF00#32 = data.extractLsb' 8 24 ++ 0#8 :=
    calc data &&& 0xFFFFFF00#32
      _ = (data.extractLsb' 8 24 ++ data.extractLsb' 0 8) &&& (BitVec.allOnes 24 ++ 0#8) := by
        rw [append_low_byte, hmask]
      _ = data.extractLsb' 8 24 ++ 0#8 := by rw [BitVec.and_append, BitVec.and_allOnes, BitVec.and_zero]
  rw [hand, hzero, BitVec.append_left_inj]

/-- A row holds exactly the words of its opcode that decode, when its masks and its index set accept exactly the fields that
the decoder accepts. -/
theorem holds_iff {op mi : Byte} {md : Word} (hp : row.pattern = op ++ 0#8 ++ 0#32)
    (hm : row.mask = 0xFF#8 ++ mi ++ md)
    (hd : ∀ idx data, (idx &&& mi = 0#8 ∧ data &&& md = 0#32) ∧ (row.legal = [] ∨ idx.toNat ∈ row.legal) ↔
      ∃ j, decode (op ++ idx ++ data) = .ok j) :
    row.holds w ↔ opField w = op ∧ ∃ j, decode w = .ok j := by
  rw [← append_fields w]
  simp only [OpcodeRow.holds, hp, hm, append_and_eq, opField_append, idxField_append, and_full_byte]
  refine and_assoc.trans (and_congr_right ?_)
  rintro rfl
  exact hd _ _

/-- A row of a command without operands. -/
theorem holds_iff_noOperand {op : Byte} (hp : row.pattern = op ++ 0#8 ++ 0#32) (hm : row.mask = 0xFFFFFFFFFFFF#48)
    (hl : row.legal = [])
    (hd : ∀ idx data, (∃ j, decode (op ++ idx ++ data) = .ok j) ↔ idx = 0#8 ∧ data = 0#32 := by simp [decode]) :
    row.holds w ↔ opField w = op ∧ ∃ j, decode w = .ok j :=
  holds_iff (mi := 0xFF#8) (md := 0xFFFFFFFF#32) hp hm fun idx data => by
    simp [hl, hd, and_full_byte, and_full_word]

/-- A row with a register index and, in `data`, no operand. -/
theorem holds_iff_register {op : Byte} {f : Reg → Instr} (hp : row.pattern = op ++ 0#8 ++ 0#32)
    (hm : row.mask = 0xFF00FFFFFFFF#48) (hne : row.legal ≠ [])
    (hl : row.legal ⊆ List.range 12) (hf : ∀ r, (f r).wf = decide (r.index.toNat ∈ row.legal))
    (hd : ∀ idx data, decode (op ++ idx ++ data) = shapeCI f idx data := by simp [decode]) :
    row.holds w ↔ opField w = op ∧ ∃ j, decode w = .ok j :=
  holds_iff (mi := 0#8) (md := 0xFFFFFFFF#32) hp hm fun idx data => by
    simp [hne, hd, and_full_word, exists_indexed hf hl]

/-- The row at a command's opcode holds exactly the words of that opcode that decode. -/
theorem row_holds (h : opcodeRows[i.opcode.toNat]? = some row) :
    row.holds w ↔ opField w = i.opcode ∧ ∃ j, decode w = .ok j := by
  cases i <;> cases h <;> simp only [Instr.opcode]
  case crcLoad v =>
    exact holds_iff (mi := 0xFF#8) (md := 0#32) (by decide) (by decide) fun idx data => by simp [decode, and_full_byte]
  case crcFeed b =>
    exact holds_iff (mi := 0xFF#8) (md := 0xFFFFFF00#32) (by decide) (by decide) fun idx data => by
      simp [decode, and_full_byte, and_high_bytes]
  case regRd r => exact holds_iff_register (by decide) (by decide) (by decide) (by decide) regRd_wf
  case regWr r v =>
    exact holds_iff (mi := 0#8) (md := 0#32) (by decide) (by decide) fun idx data => by
      simp [decode, shapeCID, exists_indexed (regWr_wf data) (by decide)]
  case fldIn r => exact holds_iff_register (by decide) (by decide) (by decide) (by decide) fldIn_wf
  case fldOut r => exact holds_iff_register (by decide) (by decide) (by decide) (by decide) fldOut_wf
  all_goals exact holds_iff_noOperand (by decide) (by decide) (by decide)

/-- One command of each opcode, in opcode order. -/
def commands : List Instr :=
  [.nop, .crcLoad 0#32, .crcFeed 0#8, .crcFeeds, .regRd .magic, .regWr .magic 0#32, .fldIn .magic, .fldOut .magic, .hdrDflt,
    .hdrUnpack, .hdrPack, .hdrCrc, .nameIn, .nameOut, .namePack, .nameUnpack, .payCopy, .decode, .encode, .inRewind]

/-- Every row stands at the opcode of some command. -/
theorem exists_command_of_row (h : row ∈ opcodeRows) : ∃ i : Instr, opcodeRows[i.opcode.toNat]? = some row := by
  have hall : commands.map (fun i => opcodeRows[i.opcode.toNat]?) = opcodeRows.map some := rfl
  obtain ⟨i, -, hi⟩ := List.mem_map.mp (hall.symm ▸ List.mem_map_of_mem (f := some) h)
  exact ⟨i, hi⟩

/-- Every command has a row at its opcode, which bears its mnemonic. -/
theorem exists_row (i : Instr) : ∃ row, opcodeRows[i.opcode.toNat]? = some row ∧ row.mnemonic = i.mnemonic := by
  cases i <;> exact ⟨_, rfl, rfl⟩

theorem row_eq_of_mnemonic {row' : OpcodeRow} (h : row ∈ opcodeRows) (h' : row' ∈ opcodeRows)
    (hm : row.mnemonic = row'.mnemonic) : row = row' := by
  have hnodup : (opcodeRows.map OpcodeRow.mnemonic).Nodup := by decide
  obtain ⟨k, hk⟩ := List.mem_iff_getElem?.mp h
  obtain ⟨k', hk'⟩ := List.mem_iff_getElem?.mp h'
  have hlt : k < (opcodeRows.map OpcodeRow.mnemonic).length := by
    rw [List.length_map]
    exact (List.getElem?_eq_some_iff.mp hk).1
  obtain rfl : k = k' := (List.getElem?_inj hlt hnodup).mp (by
    rw [List.getElem?_map, List.getElem?_map, hk, hk', Option.map_some, Option.map_some, hm])
  exact Option.some.inj (hk.symm.trans hk')

end

/-- Settles O11: the row at an opcode holds its words that decode (`row_holds`), and a mnemonic has one row. -/
theorem decoderTestsTheTable : Obligations.DecoderTestsTheTable := by
  have hrow {w : CommandWord} {i : Instr} (hd : decode w = .ok i) :
      ∃ row ∈ opcodeRows, row.mnemonic = i.mnemonic ∧ row.holds w := by
    obtain ⟨row, hi, hm⟩ := exists_row i
    exact ⟨row, List.mem_of_getElem? hi, hm, (row_holds hi).mpr ⟨(opcode_of_decode hd).symm, i, hd⟩⟩
  refine ⟨fun w row hmem => ⟨fun hw => ?_, ?_⟩, fun w i hd => ?_⟩
  · obtain ⟨c, hc⟩ := exists_command_of_row hmem
    obtain ⟨hop, i, hd⟩ := (row_holds hc).mp hw
    obtain ⟨row', hi, hm⟩ := exists_row i
    rw [opcode_of_decode hd, hop, hc] at hi
    obtain rfl := Option.some.inj hi
    exact ⟨i, hd, hm.symm⟩
  · rintro ⟨i, hd, hi⟩
    obtain ⟨row', hmem', hm, hw⟩ := hrow hd
    obtain rfl := row_eq_of_mnemonic hmem hmem' (hi.symm.trans hm.symm)
    exact hw
  · obtain ⟨row, hmem, -, hw⟩ := hrow hd
    exact ⟨row, hmem, hw⟩

/-- Settles O12, word by word. -/
theorem writtenWordsDecode : Obligations.WrittenWordsDecode := by
  and_intros <;> rfl

end Sys2Proof
end

section
/-! SUPPORT. Responses (30_encoding.md R64): a running command gives none, and its end gives one. -/
namespace Sys2Proof.Machine

/-! ## A stream access gives no response -/

/-- No response has been given and the phase is the same. -/
structure Quiet (s t : State) : Prop where
  responses : t.ports.responses = s.ports.responses := by rfl
  phase : t.seq.phase = s.seq.phase := by rfl

theorem Quiet.trans {s t u : State} (h₁ : Quiet s t) (h₂ : Quiet t u) : Quiet s u where
  responses := h₂.responses.trans h₁.responses
  phase := h₂.phase.trans h₁.phase

/-- The state in which a stream primitive leaves the block, however it comes out. -/
def Flow.state {α : Type} (f : Flow α) : State :=
  match f with
  | .go _ t | .wait t | .fail _ t => t

section
variable {s : State}

theorem quiet_atEnd : Quiet s (atEnd s).state := by
  unfold atEnd
  cases inTail s.ports <;> exact {}

theorem quiet_readExact {k : Nat} {c : Cause} : Quiet s (readExact k c s).state := by
  unfold readExact
  rcases Nat.lt_or_ge (unread s).length (k - s.seq.got.length) with hshort | henough
  · rw [collect_short _ _ _ hshort]
    cases inTail s.ports <;> exact {}
  · rw [collect_enough _ _ _ henough]
    exact {}

theorem quiet_feedAll (bytes : List Byte) : Quiet s (feedAll bytes s).state := by
  rw [feedAll_eq]
  exact { quiet_atEnd with }

theorem quiet_flush : Quiet s (flush s).state := by
  unfold flush
  split
  · exact {}
  · split
    · exact {}
    · split <;> exact {}

theorem quiet_copyInHand {sum : Bool} : Quiet s (copyInHand sum s).state := by
  unfold copyInHand
  split
  · exact {}
  · have hflush : Quiet s (flush s).state := quiet_flush
    split <;> rename_i hf <;> rw [hf] at hflush
    · cases sum <;> exact { hflush with }
    · exact hflush
    · exact hflush

theorem quiet_copyAll {sum : Bool} (bytes : List Byte) : Quiet s (copyAll sum bytes s).state := by
  induction bytes generalizing s with
  | nil => exact quiet_atEnd
  | cons b rest ih =>
    have hcopy : Quiet s (copyInHand sum { consume s with seq.pend := [b] }).state := { quiet_copyInHand with }
    unfold copyAll
    split <;> rename_i hf <;> rw [hf] at hcopy
    · exact hcopy.trans ih
    · exact hcopy
    · exact hcopy

theorem quiet_copyOn {sum : Bool} : Quiet s (copyOn sum s).state := by
  have hcopy : Quiet s (copyInHand sum s).state := quiet_copyInHand
  unfold copyOn
  split <;> rename_i hf <;> rw [hf] at hcopy
  · exact hcopy.trans (quiet_copyAll _)
  · exact hcopy
  · exact hcopy

theorem quiet_takeUnits (items : List NinItem) : Quiet s (takeUnits items s).state := by
  induction items generalizing s with
  | nil =>
    unfold takeUnits
    split <;> exact {}
  | cons item rest ih =>
    cases item with
    | unit u => exact { (ih (s := { s with ports.nin := rest, seq.units := s.seq.units ++ [u] })) with }
    | done => exact {}

theorem quiet_rewindIn : Quiet s (rewindIn s).state := by
  unfold rewindIn
  split
  · exact {}
  · split <;> exact {}

end

/-! ## How a command answers -/

/-- From the responses `rs` the command has ended with one more, `(ERR, ACC)`, or it waits and has given none. -/
def Answered (rs : List Response) (t : State) : Prop :=
  if t.seq.phase = .idle then t.ports.responses = rs ++ [{ code := t.regs.err, data := t.regs.acc }]
  else t.ports.responses = rs

section
variable {s t : State}

theorem answered_finish (s : State) : Answered s.ports.responses (finish s) := by simp [Answered]

theorem answered_raise (c : Cause) (s : State) : Answered s.ports.responses (raise c s) := by simp [Answered]

theorem answered_of_busy (hq : Quiet s t) (hb : s.seq.phase ≠ .idle) : Answered s.ports.responses t := by
  rw [Answered, if_neg (hq.phase ▸ hb)]
  exact hq.responses

theorem Quiet.answered (hq : Quiet s t) {u : State} (h : Answered t.ports.responses u) : Answered s.ports.responses u :=
  hq.responses ▸ h

/-- A stream access and what follows it: only the case in which the access goes on is left to show. -/
theorem answered_andThen {α : Type} {f : Flow α} {k : α → State → State} (hf : Quiet s f.state)
    (hb : s.seq.phase ≠ .idle) (hk : ∀ a m, m.seq.phase = s.seq.phase → Answered m.ports.responses (k a m)) :
    Answered s.ports.responses (f.andThen k) := by
  match f, hf with
  | .go a m, hf => exact hf.answered (hk a m hf.phase)
  | .wait m, hf => exact answered_of_busy hf hb
  | .fail c m, hf => exact hf.answered (answered_raise c m)

/-- A rewind (which never waits) and what follows it. -/
theorem answered_rewindIn {k : Unit → State → State}
    (hk : ∀ m, m.seq.phase = s.seq.phase → Answered m.ports.responses (k () m)) :
    Answered s.ports.responses ((rewindIn s).andThen k) := by
  have hf : Quiet s (rewindIn s).state := quiet_rewindIn
  match hr : rewindIn s, hf with
  | .go _ m, hf => exact hf.answered (hk m hf.phase)
  | .wait m, _ => exact absurd hr (rewindIn_ne_wait s m)
  | .fail c m, hf => exact hf.answered (answered_raise c m)

/-- The read of a name field and what follows it. -/
theorem answered_readName {k : State → State} (hb : s.seq.phase ≠ .idle)
    (hk : ∀ m, m.seq.phase = s.seq.phase → Answered m.ports.responses (k m)) :
    Answered s.ports.responses (readName k s) := by
  have hread : Quiet s (readExact Config.nameLen .nameFieldTruncated s).state := quiet_readExact
  unfold readName
  split <;> rename_i hf <;> rw [hf] at hread
  · exact hread.answered (hk _ hread.phase)
  · exact answered_of_busy hread hb
  · exact hread.answered (answered_raise _ (scrambleName _))

theorem answered_ifLegal {legal : Bool} {k : State → State} (hk : Answered s.ports.responses (k s)) :
    Answered s.ports.responses (ifLegal legal k s) := by
  cases legal
  · exact answered_raise _ s
  · exact hk

/-! ## Commands with one stream access -/

section
variable (hb : s.seq.phase ≠ .idle)
include hb

theorem answered_goCrcFeeds : Answered s.ports.responses (goCrcFeeds s) :=
  answered_andThen (quiet_feedAll _) hb fun _ m _ => answered_finish m

theorem answered_goFldIn (r : Reg) : Answered s.ports.responses (goFldIn r s) :=
  answered_andThen quiet_readExact hb fun bytes m _ => answered_finish { m with regs := writeReg r (u32le bytes) m.regs }

theorem answered_goHdrUnpack : Answered s.ports.responses (goHdrUnpack s) :=
  answered_andThen quiet_readExact hb fun bytes m _ => answered_finish { m with regs.hf := unpack bytes }

theorem answered_goWrite : Answered s.ports.responses (goWrite s) :=
  answered_andThen quiet_flush hb fun _ m _ => answered_finish m

theorem answered_goNameIn : Answered s.ports.responses (goNameIn s) :=
  answered_readName hb fun m _ => answered_finish m

theorem answered_goNamePack : Answered s.ports.responses (goNamePack s) :=
  answered_andThen (quiet_takeUnits _) hb fun us m _ => answered_finish (storeName us m)

theorem answered_goPayCopy : Answered s.ports.responses (goPayCopy s) :=
  answered_andThen quiet_copyOn hb fun _ m _ => answered_finish m

end

theorem answered_writeOut (c : Instr) (bytes : List Byte) : Answered s.ports.responses (writeOut c bytes s) :=
  answered_goWrite (s := { begin (.prim c) s with seq.pend := bytes }) (by simp)

/-! ## `DECODE` and `ENCODE`, last phase first -/

theorem answered_enterD8 : Answered s.ports.responses (enterD8 s) :=
  answered_finish (noutMsg (nameUnpack s.regs.nameBuf) (begin .d8 s))

theorem answered_checkPayload : Answered s.ports.responses (checkPayload s) := by
  unfold checkPayload
  split
  · exact answered_raise _ s
  · exact answered_enterD8 (s := setVerified s)

theorem answered_goD7 (hb : s.seq.phase ≠ .idle) : Answered s.ports.responses (goD7 s) :=
  answered_andThen quiet_copyOn hb fun _ _ _ => answered_checkPayload

theorem answered_enterD7 : Answered s.ports.responses (enterD7 s) := by
  unfold enterD7
  split
  · exact answered_goD7 (s := { begin .d7 s with regs.acc := 0#32 }) (by simp)
  · exact answered_enterD8 (s := begin .d7 s)

theorem answered_enterD6 : Answered s.ports.responses (enterD6 s) :=
  answered_enterD7 (s := setNameLen (nameUnpack s.regs.nameBuf).length (begin .d6 s))

theorem answered_goD5 (hb : s.seq.phase ≠ .idle) : Answered s.ports.responses (goD5 s) :=
  answered_readName hb fun _ _ => answered_enterD6

theorem answered_goD4 (hb : s.seq.phase ≠ .idle) : Answered s.ports.responses (goD4 s) :=
  answered_andThen quiet_readExact hb fun bytes m _ =>
    answered_goD5 (s := begin .d5 { m with regs.pck := u32le bytes }) (by simp)

theorem answered_enterD3 : Answered s.ports.responses (enterD3 s) := by
  unfold enterD3
  dsimp only
  split
  · exact answered_raise _ { begin .d3 s with regs.acc := hdrCk (pack s.regs.hf) }
  · exact answered_goD4 (s := begin .d4 { begin .d3 s with regs.acc := hdrCk (pack s.regs.hf) }) (by simp)

theorem answered_goD2 (hb : s.seq.phase ≠ .idle) : Answered s.ports.responses (goD2 s) :=
  answered_andThen quiet_readExact hb fun bytes m _ => answered_enterD3 (s := { m with regs.hck := u32le bytes })

theorem answered_goD1 (hb : s.seq.phase ≠ .idle) : Answered s.ports.responses (goD1 s) :=
  answered_andThen quiet_readExact hb fun bytes m _ =>
    answered_goD2 (s := begin .d2 { m with regs.hf := unpack bytes }) (by simp)

theorem answered_goE7 (hb : s.seq.phase ≠ .idle) : Answered s.ports.responses (goE7 s) :=
  answered_andThen quiet_copyOn hb fun _ m _ => answered_finish m

theorem answered_enterE6 : Answered s.ports.responses (enterE6 s) :=
  answered_rewindIn (s := begin .e6 s) fun m _ => answered_goE7 (s := begin .e7 m) (by simp)

theorem answered_goE5 (hb : s.seq.phase ≠ .idle) : Answered s.ports.responses (goE5 s) :=
  answered_andThen quiet_flush hb fun _ _ _ => answered_enterE6

theorem answered_enterE5 : Answered s.ports.responses (enterE5 s) :=
  answered_goE5 (s := { begin .e5 s with seq.pend := s.regs.nameBuf }) (by simp)

theorem answered_writePck (hb : s.seq.phase ≠ .idle) : Answered s.ports.responses (writePck s) :=
  answered_andThen quiet_flush hb fun _ _ _ => answered_enterE5

theorem answered_feedE4 (hb : s.seq.phase ≠ .idle) : Answered s.ports.responses (feedE4 s) :=
  answered_andThen (quiet_feedAll _) hb fun _ m hm =>
    answered_writePck (s := { m with regs.pck := m.regs.acc, seq.pend := le32 m.regs.acc }) (hm ▸ hb)

theorem answered_goE4 (hb : s.seq.phase ≠ .idle) : Answered s.ports.responses (goE4 s) := by
  unfold goE4
  split
  · exact answered_feedE4 hb
  · exact answered_writePck hb

theorem answered_enterE4 : Answered s.ports.responses (enterE4 s) :=
  answered_feedE4 (s := { begin .e4 s with regs.acc := 0#32 }) (by simp)

theorem answered_goE3 (hb : s.seq.phase ≠ .idle) : Answered s.ports.responses (goE3 s) :=
  answered_andThen quiet_flush hb fun _ _ _ => answered_enterE4

theorem answered_enterE3 : Answered s.ports.responses (enterE3 s) :=
  let ck := hdrCk (pack s.regs.hf)
  answered_goE3 (s := { begin .e3 s with regs.acc := ck, regs.hck := ck, seq.pend := le32 ck }) (by simp)

theorem answered_goE2 (hb : s.seq.phase ≠ .idle) : Answered s.ports.responses (goE2 s) :=
  answered_andThen quiet_flush hb fun _ _ _ => answered_enterE3

theorem answered_enterE2 : Answered s.ports.responses (enterE2 s) :=
  answered_goE2 (s := { begin .e2 s with regs.hf := Header.constants, seq.pend := pack Header.constants }) (by simp)

theorem answered_goE1 (hb : s.seq.phase ≠ .idle) : Answered s.ports.responses (goE1 s) :=
  answered_andThen (quiet_takeUnits _) hb fun us m _ => answered_enterE2 (s := storeName us m)

/-! ## Every command, started and taken up again -/

theorem exec_answered {i : Instr} (h : exec i s = .next t) (hnop : i ≠ .nop) (hrd : ∀ r, i ≠ .regRd r) :
    Answered s.ports.responses t := by
  cases i <;> obtain rfl := Host.Outcome.next.inj h
  case nop => exact absurd rfl hnop
  case regRd r => exact absurd rfl (hrd r)
  case crcLoad v => exact answered_finish { s with regs.acc := v }
  case crcFeed b => exact answered_finish (feedAcc b s)
  case crcFeeds => exact answered_goCrcFeeds (s := begin (.prim .crcFeeds) s) (by simp)
  case regWr r v => exact answered_ifLegal (answered_finish { s with regs := writeReg r v s.regs })
  case fldIn r => exact answered_ifLegal (answered_goFldIn (s := begin (.prim (.fldIn r)) s) (by simp) r)
  case fldOut r => exact answered_ifLegal (answered_writeOut ..)
  case hdrDflt => exact answered_finish { s with regs.hf := Header.constants }
  case hdrUnpack => exact answered_goHdrUnpack (s := begin (.prim .hdrUnpack) s) (by simp)
  case hdrPack => exact answered_writeOut ..
  case hdrCrc => exact answered_finish { s with regs.acc := hdrCk (pack s.regs.hf) }
  case nameIn => exact answered_goNameIn (s := begin (.prim .nameIn) s) (by simp)
  case nameOut => exact answered_writeOut ..
  case namePack => exact answered_goNamePack (s := begin (.prim .namePack) s) (by simp)
  case nameUnpack =>
    let us := nameUnpack s.regs.nameBuf
    exact answered_finish (noutMsg us (setNameLen us.length s))
  case payCopy => exact answered_goPayCopy (s := { begin (.prim .payCopy) s with regs.acc := 0#32 }) (by simp)
  case decode => exact answered_goD1 (s := clearVerified (begin .d1 s)) (by simp)
  case encode => exact answered_goE1 (s := begin .e1 s) (by simp)
  case inRewind => exact answered_rewindIn fun m _ => answered_finish m

theorem resumePrim_answered {c : Instr} (hb : s.seq.phase ≠ .idle) (h : resumePrim c s = .next t) :
    Answered s.ports.responses t := by
  cases c <;> simp only [resumePrim, Host.Outcome.next.injEq, reduceCtorEq] at h <;> subst h
  case crcFeeds => exact answered_goCrcFeeds hb
  case fldIn r => exact answered_goFldIn hb r
  case fldOut r => exact answered_goWrite hb
  case hdrUnpack => exact answered_goHdrUnpack hb
  case hdrPack => exact answered_goWrite hb
  case nameIn => exact answered_goNameIn hb
  case nameOut => exact answered_goWrite hb
  case namePack => exact answered_goNamePack hb
  case payCopy => exact answered_goPayCopy hb

theorem resume_answered (hb : s.seq.phase ≠ .idle) (h : resume s = .next t) : Answered s.ports.responses t := by
  unfold resume at h
  cases hp : s.seq.phase <;> simp only [hp, Host.Outcome.next.injEq, reduceCtorEq] at h
  case idle => exact absurd hp hb
  case prim c => exact resumePrim_answered hb h
  all_goals subst h
  case d1 => exact answered_goD1 hb
  case d2 => exact answered_goD2 hb
  case d4 => exact answered_goD4 hb
  case d5 => exact answered_goD5 hb
  case d7 => exact answered_goD7 hb
  case e1 => exact answered_goE1 hb
  case e2 => exact answered_goE2 hb
  case e3 => exact answered_goE3 hb
  case e4 => exact answered_goE4 hb
  case e5 => exact answered_goE5 hb
  case e7 => exact answered_goE7 hb

end

/-- Settles O7: a `NOP` or `REG.RD` answers at once, and every other command as `Answered` says. -/
theorem oneResponsePerCommand : Obligations.OneResponsePerCommand := by
  refine ⟨fun i s t h => ?_, fun s t hb h => resume_answered hb h, fun r => ?_⟩
  · cases i
    case nop =>
      obtain rfl := Host.Outcome.next.inj h
      simp
    case regRd r =>
      obtain rfl := Host.Outcome.next.inj h
      simp
    all_goals exact exec_answered h (by simp) (by simp)
  · exact ⟨BitVec.extractLsb'_append_eq_left, BitVec.extractLsb'_append_eq_right⟩

end Sys2Proof.Machine
end

section
/-! SUPPORT. The pseudo-commands (30_encoding.md R75). -/
namespace Sys2Proof.Machine

section
variable {s : State}

theorem execAll_singleton (i : Instr) : execAll [i] s = exec i s := by
  rw [execAll]
  cases exec i s <;> rfl

/-- A run of `CRC.FEED` continues the checksum over its bytes, with one response each. -/
theorem execAll_crcFeed (b : Byte) (rest : List Byte) :
    ∃ t, execAll ((b :: rest).map .crcFeed) s = .next t ∧
      t.regs = { s.regs with acc := update (b :: rest) s.regs.acc, err := 0#8 } ∧
      t.ports.responses.length = s.ports.responses.length + (rest.length + 1) := by
  induction rest generalizing b s with
  | nil => exact ⟨_, rfl, rfl, by simp⟩
  | cons c rest ih =>
    obtain ⟨t, hrun, hregs, hlen⟩ := ih (s := finish (feedAcc b s)) c
    refine ⟨t, hrun, hregs, ?_⟩
    simp only [hlen, finish_ports, feedAcc_ports, List.length_append, List.length_cons, List.length_nil]
    omega

end

/-- Settles O56. -/
theorem pseudoCommandsExpand : Obligations.PseudoCommandsExpand := fun _ =>
  ⟨execAll_crcFeed, execAll_singleton _, execAll_singleton _, execAll_singleton _, execAll_singleton _,
    execAll_singleton _⟩

end Sys2Proof.Machine
end

section
/-! SUPPORT. The container's layout (30_encoding.md R76) and the verified `DECODE` of a good container
(44_codec.md R137, R138). -/
namespace Sys2Proof.Machine

/-! ## Bytes, fields and the layout -/

theorem byteAt_append (xs ys : List Byte) (i : Nat) :
    byteAt (xs ++ ys) i = if i < xs.length then byteAt xs i else byteAt ys (i - xs.length) := by
  simp only [byteAt, List.getD_eq_getElem?_getD, List.getElem?_append]
  split <;> rfl

theorem byteAt_le32 (v : Word) {k : Nat} (hk : k < 4) : byteAt (le32 v) k = lane v k := by
  match k, hk with
  | 0, _ | 1, _ | 2, _ | 3, _ => rfl

theorem byteAt_pack (f : Header) {o : Nat} (ho : o < 20) : byteAt (pack f) o = lane (f.field (o / 4)) (o % 4) := by
  match o, ho with
  | 0, _ | 1, _ | 2, _ | 3, _ | 4, _ | 5, _ | 6, _ | 7, _ | 8, _ | 9, _ => rfl
  | 10, _ | 11, _ | 12, _ | 13, _ | 14, _ | 15, _ | 16, _ | 17, _ | 18, _ | 19, _ => rfl
  | n + 20, h => exact absurd h (by omega)

/-- The container that registers and a payload make up: the header, the two checksum fields, the name field, the
payload. -/
def layout (x : Regs) (payload : List Byte) : List Byte :=
  pack x.hf ++ (le32 x.hck ++ (le32 x.pck ++ (x.nameBuf ++ payload)))

/-- `Sel` names the place of every byte of a container (30_encoding.md R76). -/
theorem byteAt_layout {x : Regs} (hname : x.nameBuf.length = 128) (payload : List Byte) (o : Nat) :
    byteAt (layout x payload) o = destByte x payload (sel o) := by
  simp only [layout, byteAt_append, length_pack, length_le32, hname, sel]
  by_cases h20 : o < 20
  · simp [h20, destByte, byteAt_pack]
  by_cases h24 : o < 24
  · have hlane : o - 20 < 4 := by omega
    simp [h20, h24, hlane, destByte, byteAt_le32]
  by_cases h28 : o < 28
  · have hfield : ¬ o - 20 < 4 ∧ o - 20 - 4 = o - 24 ∧ o - 24 < 4 := by omega
    simp [h20, h24, h28, hfield, destByte, byteAt_le32]
  have hfield : ¬ o - 20 < 4 ∧ o - 20 - 4 = o - 24 ∧ ¬ o - 24 < 4 ∧ o - 24 - 4 = o - 28 := by omega
  by_cases h156 : o < 156
  · have hbyte : o - 28 < 128 := by omega
    simp [h20, h24, h28, h156, hfield, hbyte, destByte]
  · have hbyte : ¬ o - 28 < 128 ∧ o - 28 - 128 = o - 156 := by omega
    simp [h20, h24, h28, h156, hfield, hbyte, destByte]

theorem length_slice {s : List Byte} {a b : Nat} (hb : b ≤ s.length) : (slice s a b).length = b - a := by
  rw [slice, List.length_take, List.length_drop]
  omega

/-- A little-endian field is its four bytes, the first lowest (30_encoding.md R67). -/
theorem u32le_eq_append (a b c d : Byte) : u32le [a, b, c, d] = d ++ c ++ b ++ a := by
  apply BitVec.eq_of_getLsbD_eq
  intro j hj
  simp only [u32le, byteAt, List.getD_cons_zero, List.getD_cons_succ, BitVec.getLsbD_or, BitVec.getLsbD_shiftLeft,
    BitVec.getLsbD_setWidth, BitVec.getLsbD_append]
  by_cases h8 : j < 8
  · have hj' : j < 16 ∧ j < 24 := by omega
    simp [hj, h8, hj']
  have ha : a.getLsbD j = false := BitVec.getLsbD_of_ge a j (Nat.le_of_not_lt h8)
  by_cases h16 : j < 16
  · have hj' : j < 24 ∧ j - 8 < 8 ∧ j - 8 < 32 := by omega
    simp [hj, h8, h16, hj', ha]
  have hb : b.getLsbD (j - 8) = false := BitVec.getLsbD_of_ge b _ (by omega)
  by_cases h24 : j < 24
  · have hj' : ¬ j - 8 < 8 ∧ j - 8 - 8 = j - 16 ∧ j - 16 < 8 ∧ j - 16 < 32 := by omega
    simp [hj, h8, h16, h24, hj', ha, hb]
  · have hc : c.getLsbD (j - 16) = false := BitVec.getLsbD_of_ge c _ (by omega)
    have hj' : ¬ j - 8 < 8 ∧ j - 8 - 8 = j - 16 ∧ ¬ j - 16 < 8 ∧ j - 16 - 8 = j - 24 ∧ j - 24 < 32 := by omega
    simp [hj, h8, h16, h24, hj', ha, hb, hc]

theorem le32_u32le {s : List Byte} (h : s.length = 4) : le32 (u32le s) = s := by
  match s, h with
  | [a, b, c, d], _ =>
    simp only [u32le_eq_append, le32, BitVec.extractLsb'_append_eq_of_le, BitVec.extractLsb'_append_eq_right,
      BitVec.extractLsb'_eq_self, Nat.reduceLeDiff, Nat.reduceSub]

theorem le32_slice {s : List Byte} {a : Nat} (h : a + 4 ≤ s.length) :
    le32 (u32le (slice s a (a + 4))) = slice s a (a + 4) :=
  le32_u32le ((length_slice h).trans (Nat.add_sub_cancel_left a 4))

theorem drop_drop_sub {s : List Byte} {a b : Nat} (hab : a ≤ b) : (s.drop a).drop (b - a) = s.drop b := by
  rw [List.drop_drop, Nat.add_sub_cancel' hab]

theorem slice_append {s : List Byte} {a b c : Nat} (hab : a ≤ b) (hbc : b ≤ c) :
    slice s a b ++ slice s b c = slice s a c := by
  rw [slice, slice, slice, ← drop_drop_sub hab, ← List.take_add]
  congr 1
  omega

/-- The bytes from `a` on, cut at `b`. -/
theorem slice_append_drop {s : List Byte} {a b : Nat} (hab : a ≤ b) : slice s a b ++ s.drop b = s.drop a := by
  rw [slice, ← drop_drop_sub hab, List.take_append_drop]

/-- Packing an unpacked header gives its bytes back (42_fields.md R107). -/
theorem pack_unpack_slice {s : List Byte} (h : 20 ≤ s.length) : pack (unpack (slice s 0 20)) = slice s 0 20 := by
  have hlen : (slice s 0 20).length = 20 := length_slice h
  have hfield {a : Nat} (ha : a + 4 ≤ 20) := le32_slice (s := slice s 0 20) (a := a) (hlen.symm ▸ ha)
  have hwhole : slice (slice s 0 20) 0 20 = slice s 0 20 := List.take_of_length_le (Nat.le_of_eq hlen)
  calc pack (unpack (slice s 0 20))
    _ = slice (slice s 0 20) 0 4 ++ slice (slice s 0 20) 4 8 ++ slice (slice s 0 20) 8 12
        ++ slice (slice s 0 20) 12 16 ++ slice (slice s 0 20) 16 20 := by
      simp only [pack, unpack]
      rw [hfield (a := 0) (by decide), hfield (a := 4) (by decide), hfield (a := 8) (by decide),
        hfield (a := 12) (by decide), hfield (a := 16) (by decide)]
    _ = slice s 0 20 := by
      rw [slice_append (by decide) (by decide), slice_append (by decide) (by decide), slice_append (by decide) (by decide),
        slice_append (by decide) (by decide), hwhole]

/-! ## The verified `DECODE` of a good container -/

/-- The registers when `DECODE` has read the first 156 bytes of `S` (44_codec.md R138). -/
def readRegs (S : List Byte) (x : Regs) : Regs :=
  { x with flags := 0#1, hf := unpack (slice S 0 20), hck := u32le (slice S 20 24), acc := hdrCk (slice S 0 20),
           pck := u32le (slice S 24 28), nameBuf := slice S 28 156 }

/-- What `DECODE` has read makes up the bytes it has read it from. -/
theorem layout_readRegs {S : List Byte} (h : 156 ≤ S.length) (x : Regs) :
    layout (readRegs S x) (S.drop 156) = S := by
  simp only [layout, readRegs]
  rw [pack_unpack_slice (by omega), le32_slice (a := 20) (by omega), le32_slice (a := 24) (by omega),
    slice_append_drop (by decide), slice_append_drop (by decide), slice_append_drop (by decide),
    slice_append_drop (by decide), List.drop_zero]

/-- When `DecodeFn` gives a payload (44_codec.md R142): on its last branch only. -/
theorem decodeFn_eq_full {S P : List Byte} {us : List CodeUnit} (h : decodeFn S true = .full us P) :
    156 ≤ S.length ∧ hdrCk (slice S 0 20) = u32le (slice S 20 24) ∧
      update (S.drop 156) 0#32 = u32le (slice S 24 28) := by
  unfold decodeFn at h
  iterate 7
    split at h
    · cases h
  rename_i hck _ hlen _ hsum
  exact ⟨Nat.le_of_not_lt hlen, Decidable.not_not.mp hck, Decidable.not_not.mp hsum⟩

section
variable {s : State}

theorem unread_of_ipos_add {m : State} (n : Nat) (hdata : m.ports.inData = s.ports.inData)
    (hi : m.seq.ipos = s.seq.ipos + n) : unread m = (unread s).drop n := by
  simp [unread, hdata, hi]

/-- A `ReadExact` from its start that finds its bytes: those of `S` from `a` to `b` (20_memory.md R48). -/
theorem readExact_slice {S : List Byte} {a b : Nat} (c : Cause) (hg : s.seq.got = []) (hu : unread s = S.drop a)
    (hb : b ≤ S.length) : readExact (b - a) c s = .go (slice S a b) (advanced (b - a) [] s) := by
  have hk : b - a ≤ (unread s).length := by
    rw [hu, List.length_drop]
    omega
  rw [readExact, hg, List.length_nil, Nat.sub_zero, collect_enough c _ s hk, hg, hu, List.nil_append, slice]

theorem goD1_reads {S : List Byte} (hu : unread s = S) (h : 20 ≤ S.length) :
    goD1 (begin .d1 s) = goD2 (begin .d2 { s with seq.ipos := s.seq.ipos + 20, regs.hf := unpack (slice S 0 20) }) := by
  have hread := readExact_slice (s := begin .d1 s) (S := S) (a := 0) .headerTruncated rfl hu h
  simp only [goD1, Config.hdrLen]
  rw [hread]
  rfl

theorem goD2_reads {S : List Byte} (hu : unread s = S.drop 20) (h : 24 ≤ S.length) :
    goD2 (begin .d2 s) =
      enterD3 { begin .d2 s with seq.ipos := s.seq.ipos + 4, regs.hck := u32le (slice S 20 24) } := by
  have hread := readExact_slice (s := begin .d2 s) .checksumFieldTruncated rfl hu h
  simp only [goD2, Config.ckLen]
  rw [hread]
  rfl

theorem enterD3_sums (h : hdrCk (pack s.regs.hf) = s.regs.hck) :
    enterD3 s = goD4 (begin .d4 { s with regs.acc := s.regs.hck }) := by
  rw [← h]
  exact if_neg (Decidable.not_not.mpr h)

theorem goD4_reads {S : List Byte} (hu : unread s = S.drop 24) (h : 28 ≤ S.length) :
    goD4 (begin .d4 s) =
      goD5 (begin .d5 { s with seq.ipos := s.seq.ipos + 4, regs.pck := u32le (slice S 24 28) }) := by
  have hread := readExact_slice (s := begin .d4 s) .payloadChecksumFieldTruncated rfl hu h
  simp only [goD4, Config.ckLen]
  rw [hread]
  rfl

theorem goD5_reads {S : List Byte} (hu : unread s = S.drop 28) (h : 156 ≤ S.length) :
    goD5 (begin .d5 s) =
      enterD6 { begin .d5 s with seq.ipos := s.seq.ipos + 128, regs.nameBuf := slice S 28 156 } := by
  have hread := readExact_slice (s := begin .d5 s) .nameFieldTruncated rfl hu h
  simp only [goD5, readName, Config.nameLen]
  rw [hread]
  rfl

/-- The state in which `DECODE` has read the 156 bytes before the payload. -/
def payloadNext (s : State) : State :=
  { begin .d5 s with seq.ipos := s.seq.ipos + 156, regs := readRegs (unread s) s.regs }

theorem unread_payloadNext (s : State) : unread (payloadNext s) = (unread s).drop 156 := unread_of_ipos_add 156 rfl rfl

/-- With a good header and the whole name field on `IN`, `DECODE` comes to phase D6. -/
theorem exec_decode_to_d6 (hlen : 156 ≤ (unread s).length)
    (hck : hdrCk (slice (unread s) 0 20) = u32le (slice (unread s) 20 24)) :
    exec .decode s = .next (enterD6 (payloadNext s)) := by
  change Host.Outcome.next (goD1 (begin .d1 (clearVerified s))) = _
  rw [goD1_reads (s := clearVerified s) (S := unread s), goD2_reads (S := unread s), enterD3_sums,
    goD4_reads (S := unread s), goD5_reads (S := unread s), payloadNext, readRegs, hck]
  · rfl
  · exact unread_of_ipos_add 28 rfl rfl
  · exact hlen
  · exact unread_of_ipos_add 24 rfl rfl
  · omega
  · exact (congrArg hdrCk (pack_unpack_slice (by omega))).trans hck
  · exact unread_of_ipos_add 20 rfl rfl
  · omega
  · rfl
  · omega

/-- The copy loop from its start, to a host that accepts everything, on an `IN` that ends. -/
theorem copyOn_all {sum : Bool} (hp : s.seq.pend = []) (hroom : s.ports.outRoom = .all) (he : inTail s.ports = .ended) :
    copyOn sum s = .go () (endSeen
      { s with seq.ipos := s.seq.ipos + (unread s).length, seq.opos := s.seq.opos + (unread s).length,
               ports.out := s.ports.out ++ unread s,
               regs.acc := if sum then update (unread s) s.regs.acc else s.regs.acc }) := by
  rw [copyOn_nil hp, copyAll_all sum (unread s) s hroom hp]
  exact atEnd_ended he

theorem checkPayload_sums (h : s.regs.acc = s.regs.pck) : checkPayload s = enterD8 (setVerified s) :=
  if_neg (Decidable.not_not.mpr h)

/-- With `SINK` set and a good payload checksum, `DECODE` copies the payload and ends in `VERIFIED`. -/
theorem enterD6_verifies (hmode : s.regs.mode = 1#1) (hroom : s.ports.outRoom = .all) (he : inTail s.ports = .ended)
    (hsum : update (unread s) 0#32 = s.regs.pck) :
    let us := nameUnpack s.regs.nameBuf
    enterD6 s = finish (noutMsg us
      { s with
        seq.ipos := s.seq.ipos + (unread s).length, seq.opos := s.seq.opos + (unread s).length,
        ports.out := s.ports.out ++ unread s, ports.inEos := true,
        regs.acc := update (unread s) 0#32, regs.nameLen := BitVec.ofNat 7 us.length, regs.flags := 1#1 }) := by
  intro us
  have hsink : sinkOn (setNameLen us.length (begin .d6 s)) = true := by simp [sinkOn, hmode]
  have hcopy := copyOn_all (sum := true)
    (s := { begin .d7 (setNameLen us.length (begin .d6 s)) with regs.acc := 0#32 }) rfl hroom he
  rw [enterD6, enterD7, if_pos hsink, goD7, hcopy, andThen_go, checkPayload_sums]
  · rfl
  · exact hsum

end

/-- `DECODE` of a good container leaves it in its registers and on `OUT`. -/
theorem decode_layout {s : State} {us : List CodeUnit} {P : List Byte} (hend : s.ports.inEnd = .ended)
    (hroom : s.ports.outRoom = .all) (hmode : s.regs.mode = 1#1) (hfull : decodeFn (unread s) true = .full us P) :
    ∃ t, exec .decode s = .next t ∧ t.regs.nameBuf.length = 128 ∧
      layout t.regs (t.ports.out.drop s.ports.out.length) = unread s := by
  obtain ⟨hlen, hck, hsum⟩ := decodeFn_eq_full hfull
  have hsum' : update (unread (payloadNext s)) 0#32 = (payloadNext s).regs.pck := unread_payloadNext s ▸ hsum
  refine ⟨_, (exec_decode_to_d6 hlen hck).trans (congrArg _ (enterD6_verifies hmode hroom ?_ hsum')),
    length_slice hlen, ?_⟩
  · simp [inTail, payloadNext, hend]
  · simp only [finish_ports, noutMsg_ports, unread_payloadNext]
    exact (congrArg _ (List.drop_left ..)).trans (layout_readRegs hlen s.regs)

/-! ## `ENCODE` of a payload -/

/-- From the rewind, `ENCODE` copies the whole of `IN` and ends. -/
theorem enterE6_rewinds {s : State} (hend : s.ports.inEnd = .ended) (hrew : s.ports.inRewind = .same)
    (hroom : s.ports.outRoom = .all) :
    enterE6 s = finish
      { s with
        seq.ipos := s.ports.inData.length, seq.opos := s.seq.opos + s.ports.inData.length,
        ports.out := s.ports.out ++ s.ports.inData, ports.inEos := true } := by
  have hdown : inDown (begin .e6 s) = false := by simp [inDown, hend]
  have hrewind := rewindIn_rewound hdown (.inr ⟨hrew, rfl⟩)
  have hcopy := copyOn_all (sum := false) (s := begin .e7 (rewound s.ports.inData (begin .e6 s))) rfl hroom
    (by simp [inTail, rewound, hend])
  rw [enterE6, hrewind, andThen_go, goE7, begin_ports, hcopy, andThen_go]
  simp [unread, rewound, endSeen, begin, finish, respond]

/-- `ENCODE` writes the container that its registers and the payload make up. -/
theorem encode_layout {s : State} {us : List CodeUnit} {rest : List NinItem} (hn : s.ports.nin = messageFirst us rest)
    (hend : s.ports.inEnd = .ended) (hrew : s.ports.inRewind = .same) (hroom : s.ports.outRoom = .all) :
    ∃ t, exec .encode s = .next t ∧ t.regs.nameBuf.length = 128 ∧
      t.ports.out.drop s.ports.out.length = layout t.regs s.ports.inData := by
  have he : inTail s.ports = .ended := by simp [inTail, hend]
  refine ⟨_, (exec_encode_to_rewind hn he ?_).trans (congrArg _ (enterE6_rewinds hend hrew ?_)), length_namePack us, ?_⟩
  · rw [hroom]
    rfl
  · simp [written, hroom, Room.less]
  · simp [written, layout, containerHead, encodedRegs]

/-- Settles O45: input and output are laid out as `Sel` says (`decode_layout`, `encode_layout`, `byteAt_layout`). -/
theorem selNamesEveryByte : Obligations.SelNamesEveryByte := by
  refine ⟨fun s t us P o hend hroom hmode hfull hexec _ => ?_, fun s t us rest o hn hend hrew hroom hi hexec _ => ?_⟩
  · obtain ⟨t', hexec', hname, hcont⟩ := decode_layout hend hroom hmode hfull
    obtain rfl := Host.Outcome.next.inj (hexec.symm.trans hexec')
    rw [← byteAt_layout hname, hcont]
  · obtain ⟨t', hexec', hname, hcont⟩ := encode_layout hn hend hrew hroom
    obtain rfl := Host.Outcome.next.inj (hexec.symm.trans hexec')
    rw [hcont, byteAt_layout hname]

end Sys2Proof.Machine
end

section
/-! SUPPORT. The arithmetic of the CRC unit (41_crc.md R80 to R92): the shift register is linear and loses nothing, and
so are the byte step and `Update`; the obligations on them settled. -/
namespace Sys2Proof.Machine

/-! ## The shift register (41_crc.md R80) -/

theorem xor_xor_xor_comm (a b c d : Word) : (a ^^^ b) ^^^ (c ^^^ d) = (a ^^^ c) ^^^ (b ^^^ d) := by ac_rfl

/-- A shift step is linear: whether it adds `POLY` is itself the exclusive or of the two bits shifted out. -/
theorem shiftStep_xor (v w : Word) : shiftStep (v ^^^ w) = shiftStep v ^^^ shiftStep w := by
  unfold shiftStep
  rw [BitVec.getLsbD_xor, BitVec.ushiftRight_xor_distrib]
  cases v.getLsbD 0 <;> cases w.getLsbD 0
  case false.false => rfl
  case false.true => exact BitVec.xor_assoc ..
  case true.false =>
    change (v >>> 1 ^^^ w >>> 1) ^^^ Config.poly = (v >>> 1 ^^^ Config.poly) ^^^ w >>> 1
    ac_rfl
  case true.true =>
    change v >>> 1 ^^^ w >>> 1 = (v >>> 1 ^^^ Config.poly) ^^^ (w >>> 1 ^^^ Config.poly)
    rw [xor_xor_xor_comm, BitVec.xor_self, BitVec.xor_zero]

theorem shiftSteps_xor (n : Nat) (v w : Word) : shiftSteps n (v ^^^ w) = shiftSteps n v ^^^ shiftSteps n w := by
  induction n generalizing v w with
  | zero => rfl
  | succ n ih => rw [shiftSteps, shiftStep_xor, ih, shiftSteps, shiftSteps]

/-- The bit shifted out is seen in the top bit, which is set in `POLY`. -/
theorem topBit_shiftStep (v : Word) : (shiftStep v).getLsbD 31 = v.getLsbD 0 := by
  unfold shiftStep
  cases h : v.getLsbD 0 <;> simp [Config.poly]

theorem shiftStep_of_lowBit {v : Word} (h : v.getLsbD 0 = false) : shiftStep v = v >>> 1 :=
  if_neg (Bool.eq_false_iff.mp h)

theorem shiftStep_eq_zero {v : Word} (h : shiftStep v = 0#32) : v = 0#32 := by
  have hlow : v.getLsbD 0 = false := by rw [← topBit_shiftStep, h]; rfl
  rw [shiftStep_of_lowBit hlow] at h
  apply BitVec.eq_of_getLsbD_eq
  intro i hi
  cases i with
  | zero => exact hlow
  | succ i => simpa [Nat.add_comm 1 i] using congrArg (·.getLsbD i) h

/-- A shift step loses nothing: it is linear, and only zero gives zero. -/
theorem shiftStep_injective : Function.Injective shiftStep := fun v w h =>
  BitVec.xor_eq_zero_iff.mp (shiftStep_eq_zero (by rw [shiftStep_xor, h, BitVec.xor_self]))

theorem shiftSteps_injective (n : Nat) : Function.Injective (shiftSteps n) := by
  induction n with
  | zero => exact fun _ _ h => h
  | succ n ih => exact ih.comp shiftStep_injective

/-- While only zeros are shifted out `POLY` is never added. -/
theorem shiftSteps_of_lowBits (n : Nat) {v : Word} (h : ∀ i < n, v.getLsbD i = false) : shiftSteps n v = v >>> n := by
  induction n generalizing v with
  | zero => simp [shiftSteps]
  | succ n ih =>
    rw [shiftSteps, shiftStep_of_lowBit (h 0 n.succ_pos), ih fun i hi => ?_, ← BitVec.shiftRight_add, Nat.add_comm]
    simpa [Nat.add_comm 1 i] using h (i + 1) (Nat.succ_lt_succ hi)

/-! ## The byte step (41_crc.md R82, R90) -/

/-- What the bit-serial step starts from is the table index below the upper bits of the accumulator. -/
theorem xor_byte_split (a : Word) (b : Byte) :
    a ^^^ b.setWidth 32 = (a.extractLsb' 0 8 ^^^ b).setWidth 32 ^^^ (a >>> 8) <<< 8 := by
  apply BitVec.eq_of_getLsbD_eq
  intro i hi
  rcases Nat.lt_or_ge i 8 with h8 | h8
  · simp [h8, hi]
  · simp [Nat.not_lt.mpr h8, hi, b.getLsbD_of_ge i h8, Nat.add_sub_cancel' h8, BitVec.getLsbD_eq_getElem]

/-- The table looks up what the eight steps make of the index; the upper bits are only shifted down. -/
theorem feed_eq_shiftSteps (a : Word) (b : Byte) : feed a b = shiftSteps 8 (a ^^^ b.setWidth 32) := by
  have hupper : shiftSteps 8 ((a >>> 8) <<< 8) = a >>> 8 := by
    rw [shiftSteps_of_lowBits 8 fun i hi => by simp [hi]]
    apply BitVec.eq_of_getLsbD_eq
    intro i hi
    simpa [hi] using BitVec.lt_of_getLsbD
  rw [xor_byte_split, shiftSteps_xor, hupper, feed, tblEntry]

theorem feed_xor (a c : Word) (b d : Byte) : feed (a ^^^ c) (b ^^^ d) = feed a b ^^^ feed c d := by
  simp only [feed_eq_shiftSteps, BitVec.setWidth_xor, xor_xor_xor_comm a c, shiftSteps_xor]

theorem feed_injective_acc (b : Byte) : Function.Injective (feed · b) := fun a c h => by
  simp only [feed_eq_shiftSteps] at h
  exact (BitVec.xor_left_inj _).mp (shiftSteps_injective 8 h)

theorem feed_injective_byte (a : Word) : Function.Injective (feed a) := fun b d h => by
  simp only [feed_eq_shiftSteps] at h
  have hwide : b.setWidth 32 = d.setWidth 32 := (BitVec.xor_right_inj _).mp (shiftSteps_injective 8 h)
  simpa using congrArg (BitVec.setWidth 8) hwide

theorem feed_zero : feed 0#32 0#8 = 0#32 := by decide

/-! ## `Update` (41_crc.md R83) -/

theorem update_eq_foldl (s : List Byte) (a : Word) : update s a = s.foldl feed a := by
  induction s generalizing a with
  | nil => rfl
  | cons b s ih => exact ih _

theorem update_append (s t : List Byte) (a : Word) : update (s ++ t) a = update t (update s a) := by
  simp only [update_eq_foldl, List.foldl_append]

theorem update_xor (s t : List Byte) (a c : Word) (h : s.length = t.length) :
    update (List.zipWith (· ^^^ ·) s t) (a ^^^ c) = update s a ^^^ update t c := by
  induction s generalizing t a c with
  | nil =>
    obtain rfl := List.length_eq_zero_iff.mp h.symm
    rfl
  | cons b s ih =>
    cases t with
    | nil => cases h
    | cons d t => rw [List.zipWith_cons_cons, update, feed_xor, ih _ _ _ (Nat.succ.inj h), update, update]

theorem update_zeros (n : Nat) : update (List.replicate n 0#8) 0#32 = 0#32 := by
  induction n with
  | zero => rfl
  | succ n ih => rw [List.replicate_succ, update, feed_zero, ih]

theorem update_injective (s : List Byte) : Function.Injective (update s) := by
  induction s with
  | nil => exact fun _ _ h => h
  | cons b s ih => exact ih.comp (feed_injective_acc b)

/-- The flipped byte makes the accumulators differ, and the bytes after it keep them apart (41_crc.md R92). -/
theorem update_flipBit_ne {s : List Byte} {m k : Nat} (hm : m < s.length) (hk : k < 8) (a : Word) :
    update (flipBit s m k) a ≠ update s a := by
  induction s generalizing m a with
  | nil => cases hm
  | cons b s ih =>
    cases m with
    | zero =>
      intro h
      have hbyte : b ^^^ 1#8 <<< k = b := feed_injective_byte a (update_injective s h)
      have hbit := congrArg (·.getLsbD k) hbyte
      simp [hk] at hbit
    | succ m => exact ih (Nat.lt_of_succ_lt_succ hm) (feed a b)

/-! ## The laws settled -/

/-- Settles O14, from the linearity of the shift register. -/
theorem feedIsBitSerial : Obligations.FeedIsBitSerial := feed_eq_shiftSteps

/-- Settles O15: `Update` is a fold over the bytes. -/
theorem updateChains : Obligations.UpdateChains :=
  ⟨fun s t a => (update_append s t a).symm, fun chunks a => by simp only [update_eq_foldl, List.foldl_flatten]⟩

/-- Settles O16; the trailing zero byte that matters is one behind a 1. -/
theorem updateIsLinear : Obligations.UpdateIsLinear := by
  refine ⟨fun i j => ?_, by decide, update_xor, fun n s => ⟨update_zeros n, ?_⟩, ?_, [1#8], ?_⟩
  · simp only [tblEntry, BitVec.setWidth_xor, shiftSteps_xor]
  · rw [update_append, update_zeros]
  · rw [hdrCk, List.replicate_append_replicate, update_zeros]
  · decide +kernel

/-- Settles O17, from `update_flipBit_ne`. -/
theorem checksumSeesEveryFlippedBit : Obligations.ChecksumSeesEveryFlippedBit :=
  fun _ a _ _ hm hk => update_flipBit_ne hm hk a

end Sys2Proof.Machine
end

section
/-! SUPPORT. What the commands of the CRC unit leave (41_crc.md R85 to R87). -/
namespace Sys2Proof.Machine

theorem setWidth_and_mask (a : Word) : (a &&& 0xFF#32).setWidth 8 = a.extractLsb' 0 8 := by
  rw [BitVec.setWidth_and, BitVec.setWidth_eq_extractLsb' (by decide)]
  exact BitVec.and_allOnes

/-- Settles O18: the words are those of `commandEncodings`, and the feed is `feed` with its low byte masked out. -/
theorem crcLoadAndFeedResults : Obligations.CrcLoadAndFeedResults := by
  obtain ⟨-, hload, hfeed, -⟩ := commandEncodings
  refine ⟨hload, hfeed, fun s => ⟨fun v => rfl, fun b => ?_⟩⟩
  rw [setWidth_and_mask]
  rfl

/-- The state in which `CRC.FEEDS` has fed every delivered byte (41_crc.md R87). -/
def restFed (s : State) : State :=
  { begin (.prim .crcFeeds) s with
    seq.ipos := s.seq.ipos + (unread s).length, regs.acc := update (unread s) s.regs.acc }

theorem exec_crcFeeds (s : State) : exec .crcFeeds s = .next ((atEnd (restFed s)).andThen fun _ t => finish t) := by
  change Host.Outcome.next (goCrcFeeds (begin (.prim .crcFeeds) s)) = _
  rw [goCrcFeeds, feedAll_eq]
  rfl

/-- Settles O19: every byte is fed (`exec_crcFeeds`), and then the stream's end decides. -/
theorem crcFeedsFeedsTheRest : Obligations.CrcFeedsFeedsTheRest := by
  intro s
  have htail : inTail (restFed s).ports = inTail s.ports := rfl
  dsimp only
  split <;> rename_i ht <;> rw [exec_crcFeeds, atEnd, htail, ht] <;> rfl

end Sys2Proof.Machine
end

section
/-! SUPPORT. Packing and unpacking (42_fields.md R106, R107): `u32le` and `le32`, `Unpack` and `Pack` are inverse to each
other. -/
namespace Sys2Proof.Machine

theorem u32le_le32 (v : Word) : u32le (le32 v) = v := by
  have hhigh : v.extractLsb' 24 8 ++ v.extractLsb' 16 8 = v.extractLsb' 16 16 :=
    BitVec.extractLsb'_append_extractLsb'_eq_extractLsb' rfl
  have hmid : v.extractLsb' 16 16 ++ v.extractLsb' 8 8 = v.extractLsb' 8 24 :=
    BitVec.extractLsb'_append_extractLsb'_eq_extractLsb' rfl
  rw [le32, u32le_eq_append, hhigh, hmid, append_low_byte]

/-- The five slices of a packed header are its five fields. -/
theorem unpack_pack (f : Header) : unpack (pack f) = f := by
  change Header.mk (u32le (le32 f.magic)) (u32le (le32 f.hsize)) (u32le (le32 f.version)) (u32le (le32 f.rsvd))
    (u32le (le32 f.subsize)) = f
  simp only [u32le_le32]

theorem pack_unpack {s : List Byte} (h : s.length = 20) : pack (unpack s) = s := by
  have hwhole : slice s 0 20 = s := List.take_of_length_le (Nat.le_of_eq h)
  have hpack := pack_unpack_slice (Nat.le_of_eq h.symm)
  rwa [hwhole] at hpack

/-- Settles O25; the packed constants are computed. -/
theorem packAndUnpackAreInverse : Obligations.PackAndUnpackAreInverse :=
  ⟨u32le_le32, fun _ => le32_u32le, fun f => ⟨unpack_pack f, length_pack f, rfl⟩, by decide, fun _ => pack_unpack⟩

end Sys2Proof.Machine
end

section
/-! SUPPORT. What the commands that touch no stream leave (42_fields.md R100 to R102, R105, R111). -/
namespace Sys2Proof.Machine

/-- Settles O21: the words are those of `commandEncodings`, and neither command writes a register. -/
theorem nopAndRegRdChangeNothing : Obligations.NopAndRegRdChangeNothing := by
  obtain ⟨hnop, -, -, -, hregRd, -⟩ := commandEncodings
  refine ⟨hnop, hregRd, fun s => ⟨rfl, fun r => ?_⟩⟩
  cases r <;> rfl

theorem modeOf_eq_setWidth (v : Word) : modeOf v = v.setWidth 1 := (BitVec.setWidth_eq_extractLsb' (by decide)).symm

/-- Settles O22: register by register; a read-only one makes the command illegal (`exec_of_not_wf`). -/
theorem regWrResults : Obligations.RegWrResults := by
  obtain ⟨-, -, -, -, -, hregWr, -⟩ := commandEncodings
  refine ⟨hregWr, fun r v s => ?_⟩
  cases r
  case namelen | flags | err => exact exec_of_not_wf rfl
  case mode =>
    rw [← modeOf_eq_setWidth]
    rfl
  all_goals rfl

/-- Settles O23: the words are those of `commandEncodings`, and each command is one write to its registers. -/
theorem hdrDfltAndHdrCrcResults : Obligations.HdrDfltAndHdrCrcResults := by
  obtain ⟨-, -, -, -, -, -, -, -, hdflt, -, -, hcrc, -⟩ := commandEncodings
  exact ⟨hdflt, hcrc, fun s => ⟨rfl, rfl⟩⟩

/-- Settles O29, from `exec_of_not_wf`. -/
theorem fldOutOfOtherRegistersIsIllegal : Obligations.FldOutOfOtherRegistersIsIllegal := fun _ _ hr => exec_of_not_wf hr

end Sys2Proof.Machine
end

section
/-! SUPPORT. `IN.REWIND` (42_fields.md R112), by how the host answers. -/
namespace Sys2Proof.Machine

section
variable {s : State}

theorem inDown_iff : inDown s = true ↔ s.ports.inEnd = .failed ∧ unread s = [] := by
  simp [inDown]

theorem exec_inRewind_refused (h : rewindIn s = .fail .ioError s) :
    exec .inRewind s = .next (s.ended 7#8 s.regs s.seq.ipos s.seq.opos s.ports) := by
  rw [exec, execInRewind, h]
  rfl

theorem exec_inRewind_rewound {bytes : List Byte} (h : rewindIn s = .go () (rewound bytes s)) :
    exec .inRewind s =
      .next (s.ended 0#8 s.regs 0 s.seq.opos { s.ports with inEos := false, inData := bytes }) := by
  rw [exec, execInRewind, h]
  rfl

end

/-- Settles O24: the host refuses the rewind (`exec_inRewind_refused`) or presents a sequence (`exec_inRewind_rewound`). -/
theorem inRewindResults : Obligations.InRewindResults := by
  intro s
  split
  case isTrue hdown => exact exec_inRewind_refused (by simp [rewindIn, inDown_iff.mpr hdown])
  case isFalse hup =>
    have hup : inDown s = false := Bool.eq_false_iff.mpr (mt inDown_iff.mp hup)
    split <;> rename_i hr
    · exact exec_inRewind_rewound (rewindIn_rewound hup (.inr ⟨hr, rfl⟩))
    · exact exec_inRewind_refused (by simp [rewindIn, hup, hr])
    · exact exec_inRewind_rewound (rewindIn_rewound hup (.inl hr))

end Sys2Proof.Machine
end

section
/-! SUPPORT. The commands that are one `ReadExact` (42_fields.md R103, R108), by what `IN` has left (20_memory.md R48). -/
namespace Sys2Proof.Machine

section
variable {s : State} {i : Instr} {k : Nat} {c : Cause} {cont : List Byte → State → State}

/-- A command whose `ReadExact` finds its bytes goes on with them. -/
theorem readExact_begin_enough (h : k ≤ (unread s).length) :
    (readExact k c (begin (.prim i) s)).andThen cont =
      cont ((unread s).take k) { begin (.prim i) s with seq.ipos := s.seq.ipos + k } := by
  have hread := readExact_slice (s := begin (.prim i) s) (S := unread s) (a := 0) c rfl rfl h
  rw [Nat.sub_zero] at hread
  rw [hread]
  rfl

/-- A command whose `ReadExact` finds too few bytes has consumed them, and the stream's end decides. -/
theorem readExact_begin_short (h : (unread s).length < k) :
    (readExact k c (begin (.prim i) s)).andThen cont =
      match inTail s.ports with
      | .pending =>
        s.held (.prim i) s.regs (s.seq.ipos + (unread s).length) s.seq.opos (unread s) [] [] s.ports
      | .ended =>
        s.ended c.code s.regs (s.seq.ipos + (unread s).length) s.seq.opos { s.ports with inEos := true }
      | .failed => s.ended 7#8 s.regs (s.seq.ipos + (unread s).length) s.seq.opos s.ports := by
  have hread : readExact k c (begin (.prim i) s) = collect c k (begin (.prim i) s) := rfl
  rw [hread, collect_short c k (begin (.prim i) s) h, begin_ports]
  cases inTail s.ports <;> rfl

end

/-! ## `FLD.IN` -/

theorem exec_fldIn {r : Reg} (hr : r.fieldIn = true) (s : State) :
    exec (.fldIn r) s = .next (goFldIn r (begin (.prim (.fldIn r)) s)) := by
  rw [exec, execFldIn, ifLegal, if_pos hr]

/-- The code of the fault of each field (42_fields.md R103). -/
theorem code_truncation {r : Reg} (hr : r.fieldIn = true) :
    (truncation r).code = if r = .hck then 2#8 else if r = .pck then 4#8 else 1#8 := by
  cases r
  case acc | namelen | flags | err | mode => cases hr
  all_goals rfl

/-- The field that the first four bytes give, the first lowest (30_encoding.md R67). -/
theorem u32le_take {bytes : List Byte} (h : 4 ≤ bytes.length) :
    u32le (bytes.take 4) = byteAt bytes 3 ++ byteAt bytes 2 ++ byteAt bytes 1 ++ byteAt bytes 0 := by
  match bytes, h with
  | a :: b :: c :: d :: _, _ => exact u32le_eq_append a b c d

/-- Settles O26: an illegal register, four bytes (`readExact_begin_enough`), or fewer (`readExact_begin_short`). -/
theorem fldInResults : Obligations.FldInResults := by
  intro r s
  dsimp only
  split
  case isTrue hr => exact exec_of_not_wf hr
  case isFalse hr =>
    have hr : r.fieldIn = true := eq_true_of_ne_false hr
    rw [exec_fldIn hr, ← code_truncation hr]
    split
    case isTrue henough =>
      rw [← u32le_take henough]
      exact congrArg _ (readExact_begin_enough henough)
    case isFalse hshort =>
      rw [goFldIn, readExact_begin_short (k := Config.ckLen) (Nat.lt_of_not_le hshort)]
      split <;> rename_i ht <;> rw [ht]

/-! ## `HDR.UNPACK` -/

/-- Settles O27: 20 bytes (`readExact_begin_enough`) or fewer (`readExact_begin_short`). -/
theorem hdrUnpackResults : Obligations.HdrUnpackResults := by
  intro s
  dsimp only
  split
  case isTrue henough => exact congrArg _ (readExact_begin_enough henough)
  case isFalse hshort =>
    rw [exec, execHdrUnpack, goHdrUnpack, readExact_begin_short (k := Config.hdrLen) (Nat.lt_of_not_le hshort)]
    split
    case h_1 ht => rw [ht, Cause.code]
    case h_2 ht => rw [ht]
    case h_3 ht => rw [ht]

end Sys2Proof.Machine
end

section
/-! SUPPORT. The commands that are one `OutWrite` (42_fields.md R104, R110; 43_name.md R121), by how much the host
accepts (20_memory.md R49). -/
namespace Sys2Proof.Machine

section
variable {s : State}

/-- `OutWrite` to a host that fails the stream within its bytes: those before the failure stay written. -/
theorem flush_fails {n : Nat} (hr : s.ports.outRoom = .upTo n true) (hn : n < s.seq.pend.length) :
    flush s = .fail .ioError (accept n (.upTo 0 true) s) := by
  simp [flush, hr, Nat.not_le_of_lt hn]

variable {c : Instr} {bytes : List Byte}

/-- With room for its bytes the command writes them all and ends. -/
theorem writeOut_takes (h : s.ports.outRoom.takes bytes.length = true) :
    writeOut c bytes s = s.ended 0#8 s.regs s.seq.ipos (s.seq.opos + bytes.length)
      { s.ports with out := s.ports.out ++ bytes, outRoom := s.ports.outRoom.less bytes.length } :=
  outWrite_andThen (s := begin (.prim c) s) h

section
variable {n : Nat} (hn : n < bytes.length)
include hn

theorem writeOut_fails (hr : s.ports.outRoom = .upTo n true) :
    writeOut c bytes s = s.ended 7#8 s.regs s.seq.ipos (s.seq.opos + n)
      { s.ports with out := s.ports.out ++ bytes.take n, outRoom := .upTo 0 true } := by
  have htake : (bytes.take n).length = n := List.length_take_of_le (Nat.le_of_lt hn)
  have hflush := flush_fails (s := { begin (.prim c) s with seq.pend := bytes }) hr hn
  rw [writeOut, outWrite, hflush, accept, htake]
  rfl

theorem writeOut_waits (hr : s.ports.outRoom = .upTo n false) :
    writeOut c bytes s = s.held (.prim c) s.regs s.seq.ipos (s.seq.opos + n) [] [] (bytes.drop n)
      { s.ports with out := s.ports.out ++ bytes.take n, outRoom := .upTo 0 false } := by
  have htake : (bytes.take n).length = n := List.length_take_of_le (Nat.le_of_lt hn)
  have hflush := (flush_eq_wait (s := { begin (.prim c) s with seq.pend := bytes })).mpr ⟨n, hr, hn, rfl⟩
  rw [writeOut, outWrite, hflush, accept, htake]
  rfl

end

/-- The commands that are one `OutWrite`, with the bytes they write. -/
theorem exec_eq_writeOut
    (h : (∃ r : Reg, r.fieldOut = true ∧ c = .fldOut r ∧ bytes = le32 (readReg r s.regs)) ∨
      (c = .hdrPack ∧ bytes = pack s.regs.hf) ∨ (c = .nameOut ∧ bytes = s.regs.nameBuf)) :
    exec c s = .next (writeOut c bytes s) := by
  obtain ⟨r, hr, rfl, rfl⟩ | ⟨rfl, rfl⟩ | ⟨rfl, rfl⟩ := h
  · rw [exec, execFldOut, ifLegal, if_pos hr]
  · rfl
  · rfl

end

/-- Settles O28: the command is one `OutWrite` (`exec_eq_writeOut`), and the host's acceptance decides. -/
theorem writeCommandsResults : Obligations.WriteCommandsResults := by
  intro s i bytes h
  rw [exec_eq_writeOut h]
  split
  case h_1 hr =>
    have hless : s.ports.outRoom.less bytes.length = s.ports.outRoom := by rw [hr]; rfl
    rw [writeOut_takes (by rw [hr]; rfl), hless]
  case h_2 n fails hr =>
    split
    case isTrue hn => rw [writeOut_takes (by simp [hr, Room.takes, hn]), hr, Room.less]
    case isFalse hn =>
      have hn : n < bytes.length := Nat.lt_of_not_le hn
      cases fails
      case true => exact congrArg _ (writeOut_fails hn hr)
      case false => exact congrArg _ (writeOut_waits hn hr)

end Sys2Proof.Machine
end

section
/-! SUPPORT. The units of a name field and their bytes (10_state.md R16; 43_name.md R122): `NameBytes` and `unitsOf` are
inverse to each other; and what the proofs need of lists. -/
namespace Sys2Proof.Machine

/-! ## Lists -/

theorem getD_of_length_le {α : Type} {l : List α} {i : Nat} {d : α} (h : l.length ≤ i) : l.getD i d = d := by
  rw [List.getD_eq_getElem?_getD, List.getElem?_eq_none h, Option.getD_none]

theorem getD_append_of_lt {α : Type} {l l' : List α} {i : Nat} {d : α} (h : i < l.length) :
    (l ++ l').getD i d = l.getD i d := by
  rw [List.getD_eq_getElem?_getD, List.getElem?_append_left h, ← List.getD_eq_getElem?_getD]

theorem takeWhile_eq_self_iff {α : Type} {p : α → Bool} {l : List α} :
    l.takeWhile p = l ↔ ∀ x ∈ l, p x = true := by
  constructor
  · intro h
    exact List.all_eq_true.mp (h ▸ List.all_takeWhile)
  · intro h
    have happ := List.takeWhile_append_of_pos (l₂ := []) h
    rwa [List.append_nil, List.takeWhile_nil, List.append_nil] at happ

/-- Padding with the default is not seen by a read that falls back on it. -/
theorem getD_append_replicate {α : Type} (l : List α) (n i : Nat) (d : α) :
    (l ++ List.replicate n d).getD i d = l.getD i d := by
  by_cases hi : i < l.length
  · exact getD_append_of_lt hi
  · have hi : l.length ≤ i := Nat.le_of_not_lt hi
    rw [getD_of_length_le hi, List.getD_eq_getElem?_getD, List.getElem?_append_right hi, List.getElem?_replicate]
    split <;> rfl

/-- A beginning cut at its first bad element is the whole list when nothing is missing and nothing is bad. -/
theorem takeWhile_eq_iff_of_prefix {α : Type} {p : α → Bool} {xs ys : List α} (h : xs <+: ys) :
    xs.takeWhile p = ys ↔ xs = ys ∧ ∀ y ∈ ys, p y = true := by
  constructor
  · intro hw
    obtain rfl : xs = ys := h.eq_of_length_le (hw ▸ (List.takeWhile_prefix p).length_le)
    exact ⟨rfl, takeWhile_eq_self_iff.mp hw⟩
  · rintro ⟨rfl, hall⟩
    exact takeWhile_eq_self_iff.mpr hall

/-- The element at which `takeWhile` stops. -/
theorem getD_length_takeWhile {α : Type} {p : α → Bool} {l : List α} (d : α)
    (h : (l.takeWhile p).length < l.length) : p (l.getD (l.takeWhile p).length d) = false := by
  induction l with
  | nil => simp at h
  | cons x xs ih =>
    cases hx : p x with
    | true => simpa [hx] using ih (by simpa [hx] using h)
    | false => simp [hx]

/-! ## Units and bytes -/

/-- A code unit is its two bytes, the first lower. -/
theorem u16le_eq_append (lo hi : Byte) : u16le lo hi = hi ++ lo := by
  apply BitVec.eq_of_getLsbD_eq
  intro j hj
  simp only [u16le, BitVec.getLsbD_or, BitVec.getLsbD_shiftLeft, BitVec.getLsbD_setWidth, BitVec.getLsbD_append]
  by_cases h8 : j < 8
  · simp [hj, h8]
  · have hj' : j - 8 < 16 := by omega
    simp [hj, h8, hj', BitVec.getLsbD_of_ge lo j (Nat.le_of_not_lt h8)]

theorem u16le_bytes (u : CodeUnit) : u16le (u.extractLsb' 0 8) (u.extractLsb' 8 8) = u := by
  have hword : u.extractLsb' 8 8 ++ u.extractLsb' 0 8 = u.extractLsb' 0 16 :=
    BitVec.extractLsb'_append_extractLsb'_eq_extractLsb' rfl
  rw [u16le_eq_append, hword, BitVec.extractLsb'_eq_self]

theorem length_nameBytes (us : List CodeUnit) : (nameBytes us).length = 2 * us.length := by
  induction us with
  | nil => rfl
  | cons u us ih => simp [nameBytes, le16, ih, Nat.mul_succ]

theorem take_nameBytes (us : List CodeUnit) (n : Nat) : (nameBytes us).take (2 * n) = nameBytes (us.take n) := by
  induction us generalizing n with
  | nil => simp [nameBytes]
  | cons u us ih =>
    cases n with
    | zero => rfl
    | succ n => simp [nameBytes, le16, Nat.mul_succ, ih]

/-- The high byte of a unit is the odd one (10_state.md R16). -/
theorem byteAt_nameBytes_odd (us : List CodeUnit) (i : Nat) :
    byteAt (nameBytes us) (2 * i + 1) = (us.getD i 0#16).extractLsb' 8 8 := by
  induction us generalizing i with
  | nil => simp [byteAt, nameBytes]
  | cons u us ih =>
    cases i with
    | zero => rfl
    | succ i => exact ih i

/-- The units of a sequence filled up with zero bytes (43_name.md R123). -/
theorem unitsOf_nameBytes_append (us : List CodeUnit) (n : Nat) :
    unitsOf (nameBytes us ++ List.replicate (2 * n) 0#8) = us ++ List.replicate n 0#16 := by
  induction us with
  | nil =>
    induction n with
    | zero => rfl
    | succ n ih => exact congrArg (0#16 :: ·) ih
  | cons u us ih =>
    change u16le _ _ :: unitsOf (nameBytes us ++ _) = _
    rw [ih, u16le_bytes, List.cons_append]

/-- Unit `i` of a sequence is its bytes `2i` and `2i + 1` (10_state.md R16). -/
theorem getD_unitsOf {field : List Byte} {i : Nat} (h : 2 * i + 1 < field.length) :
    (unitsOf field).getD i 0#16 = u16le (byteAt field (2 * i)) (byteAt field (2 * i + 1)) := by
  induction field using unitsOf.induct generalizing i with
  | case1 lo hi rest ih =>
    cases i with
    | zero => rfl
    | succ i => exact ih (by simp only [List.length_cons] at h; omega)
  | case2 b => simp at h
  | case3 => simp at h

/-- A high surrogate, by its high byte (00_scope.md R5). -/
theorem highSurrogate_iff (u : CodeUnit) :
    highSurrogate u ↔ Config.surrLo ≤ u.extractLsb' 8 8 ∧ u.extractLsb' 8 8 ≤ Config.surrHi := by
  simp only [highSurrogate, Config.surrLo, Config.surrHi, BitVec.le_def, BitVec.extractLsb'_toNat, BitVec.toNat_ofNat]
  omega

end Sys2Proof.Machine
end

section
/-! SUPPORT. `NamePack` (43_name.md R123, R127, R128) by the units it keeps, and the obligations on it settled. -/
namespace Sys2Proof.Machine

/-- The units that `NamePack` keeps (43_name.md R123): at most 64, and 63 when the 64th is a high surrogate. -/
def keptUnits (us : List CodeUnit) : List CodeUnit :=
  let first := us.take 64
  if first.length = 64 ∧ (0xD800#16 ≤ first.getD 63 0#16 ∧ first.getD 63 0#16 ≤ 0xDBFF#16) then us.take 63
  else first

theorem nameKept_eq (us : List CodeUnit) : nameKept us = nameBytes (keptUnits us) := by
  have hfirst : (nameBytes us).take Config.nameLen = nameBytes (us.take 64) := take_nameBytes us 64
  have hfull : (nameBytes (us.take 64)).length = Config.nameLen ↔ (us.take 64).length = 64 := by
    rw [length_nameBytes, Config.nameLen]
    omega
  have htop : byteAt (nameBytes (us.take 64)) Config.surrByte = ((us.take 64).getD 63 0#16).extractLsb' 8 8 :=
    byteAt_nameBytes_odd _ 63
  have htrim : (nameBytes (us.take 64)).take (Config.nameLen - 2) = nameBytes (us.take 63) := by
    rw [Config.nameLen, ← take_nameBytes us 64, List.take_take]
    exact take_nameBytes us 63
  simp only [nameKept, hfirst, hfull, htop, htrim, ← highSurrogate_iff, keptUnits, highSurrogate]
  split <;> rfl

/-- `NamePack` in units: the bytes of those kept, filled up with zero bytes (43_name.md R123). -/
theorem namePack_eq (us : List CodeUnit) :
    namePack us =
      (nameBytes (keptUnits us) ++ List.replicate (128 - 2 * (keptUnits us).length) 0#8, (keptUnits us).length) := by
  rw [namePack, nameKept_eq, length_nameBytes, Config.nameLen, Nat.mul_div_cancel_left _ (by decide)]

theorem keptUnits_prefix (us : List CodeUnit) : keptUnits us <+: us := by
  unfold keptUnits
  dsimp only
  split <;> exact List.take_prefix _ _

theorem length_keptUnits_le (us : List CodeUnit) : (keptUnits us).length ≤ 64 := by
  unfold keptUnits
  dsimp only
  split
  · exact Nat.le_trans (List.length_take_le 63 us) (by decide)
  · exact List.length_take_le 64 us

theorem not_highSurrogate_zero : ¬ highSurrogate 0#16 := by simp [highSurrogate]

/-- The place of the last unit never holds a high surrogate (43_name.md R127). -/
theorem keptUnits_last (us : List CodeUnit) : ¬ highSurrogate ((keptUnits us).getD 63 0#16) := by
  unfold keptUnits
  dsimp only
  split
  case isTrue =>
    rw [getD_of_length_le (List.length_take_le 63 us)]
    exact not_highSurrogate_zero
  case isFalse h =>
    intro hlast
    by_cases hfull : (us.take 64).length = 64
    · exact h ⟨hfull, hlast⟩
    · rw [getD_of_length_le (by have := List.length_take_le 64 us; omega)] at hlast
      exact not_highSurrogate_zero hlast

/-- When `NamePack` keeps the whole name (43_name.md R128). -/
theorem keptUnits_eq_self_iff (us : List CodeUnit) :
    keptUnits us = us ↔ us.length ≤ 64 ∧ ¬ (us.length = 64 ∧ highSurrogate (us.getD 63 0#16)) := by
  constructor
  · intro h
    refine ⟨h ▸ length_keptUnits_le us, fun hlast => keptUnits_last us ?_⟩
    rw [h]
    exact hlast.2
  · rintro ⟨hlen, hlast⟩
    have hfirst : us.take 64 = us := List.take_of_length_le hlen
    simp only [keptUnits, hfirst]
    exact if_neg hlast

/-- The units of a packed field: those kept, and then NUL units. -/
theorem unitsOf_namePack (us : List CodeUnit) :
    unitsOf (namePack us).1 = keptUnits us ++ List.replicate (64 - (keptUnits us).length) 0#16 := by
  have hfill : 128 - 2 * (keptUnits us).length = 2 * (64 - (keptUnits us).length) := by omega
  rw [namePack_eq, hfill]
  exact unitsOf_nameBytes_append _ _

theorem nameUnpack_namePack (us : List CodeUnit) :
    nameUnpack (namePack us).1 = (keptUnits us).takeWhile (· != 0#16) := by
  have hnul (n : Nat) : (List.replicate n 0#16).takeWhile (· != 0#16) = [] := by simp
  rw [nameUnpack, unitsOf_namePack, List.takeWhile_append, hnul, List.append_nil]
  split
  case isTrue hall => exact ((List.takeWhile_prefix _).eq_of_length hall).symm
  case isFalse => rfl

/-- Settles O30, from `namePack_eq`. -/
theorem namePackKeepsTrimsAndPads : Obligations.NamePackKeepsTrimsAndPads := namePack_eq

/-! ## What a field may hold -/

/-- `DecodeFn` of a container with a good header gives the name in its name field (44_codec.md R142). -/
theorem decodeFn_eq_name {S : List Byte} (hlen : 156 ≤ S.length)
    (hck : hdrCk (slice S 0 20) = u32le (slice S 20 24)) : decodeFn S false = .name (nameUnpack (slice S 28 156)) := by
  have hshort {n : Nat} (hn : n ≤ 156) : ¬ S.length < n := Nat.not_lt.mpr (Nat.le_trans hn hlen)
  simp [decodeFn, hshort, hck]

/-- A container with a good header, a given name field and no payload. -/
def containerOf (field : List Byte) : List Byte :=
  layout { State.reset.regs with hck := hdrCk (pack State.reset.regs.hf), nameBuf := field } []

/-- Every 128 bytes are the name field of a container that decodes (43_name.md R127). -/
theorem containerOf_decodes {field : List Byte} (h : field.length = 128) :
    slice (containerOf field) 28 156 = field ∧ decodeFn (containerOf field) false = .name (nameUnpack field) := by
  have hfield : slice (containerOf field) 28 156 = field := List.take_left' h
  have hck : hdrCk (slice (containerOf field) 0 20) = u32le (slice (containerOf field) 20 24) := (u32le_le32 _).symm
  have hlen : 156 ≤ (containerOf field).length := by simp [containerOf, layout, length_pack, length_le32, h]
  exact ⟨hfield, (decodeFn_eq_name hlen hck).trans (by rw [hfield])⟩

/-- Settles O31: the field by its units (`unitsOf_namePack`), and any field in a container (`containerOf_decodes`). -/
theorem packedNameField : Obligations.PackedNameField := by
  intro us
  refine ⟨length_namePack us, ?count, ?zeros, ?last, fun _ h => ⟨_, containerOf_decodes h⟩⟩
  case count => exact namePack_eq us ▸ length_keptUnits_le us
  case zeros =>
    intro i hi _
    rw [namePack_eq] at hi ⊢
    rw [byteAt, getD_append_replicate]
    exact getD_of_length_le (length_nameBytes _ ▸ hi)
  case last =>
    rw [← getD_unitsOf (i := 63) (by rw [length_namePack]; decide), unitsOf_namePack, getD_append_replicate]
    exact keptUnits_last us

/-- Settles O32, from `nameUnpack_namePack` and `keptUnits_eq_self_iff`. -/
theorem nameRoundTrip : Obligations.NameRoundTrip := by
  intro us
  have hkept : us.take (namePack us).2 = keptUnits us := by
    rw [namePack_eq]
    exact (List.prefix_iff_eq_take.mp (keptUnits_prefix us)).symm
  refine ⟨?_, by rw [nameUnpack_namePack, hkept]⟩
  have hnul : (∀ u ∈ us, (u != 0#16) = true) ↔ 0#16 ∉ us := by simp only [bne_iff_ne, List.forall_mem_ne']
  rw [nameUnpack_namePack, takeWhile_eq_iff_of_prefix (keptUnits_prefix us), keptUnits_eq_self_iff, hnul, and_assoc,
    and_comm (b := 0#16 ∉ us)]

end Sys2Proof.Machine
end

section
/-! SUPPORT. `NAME.IN`, `NAME.PACK` and `NAME.UNPACK` (43_name.md R120, R124, R126), by what their stream has left. -/
namespace Sys2Proof.Machine

/-! ## `NAME.IN` -/

section
variable {s : State}

/-- With a whole field on `IN` it goes to `NAMEBUF`. -/
theorem exec_nameIn_enough (h : 128 ≤ (unread s).length) :
    exec .nameIn s =
      .next (s.ended 0#8 { s.regs with nameBuf := (unread s).take 128 } (s.seq.ipos + 128) s.seq.opos s.ports) := by
  have hread := readExact_slice (s := begin (.prim .nameIn) s) (S := unread s) (a := 0) .nameFieldTruncated rfl rfl h
  rw [exec, execNameIn, goNameIn, readName, Config.nameLen, hread]
  rfl

/-- With too few bytes on `IN` they are consumed, and the stream's end decides; a fault leaves `NAMEBUF` free
(log 4). -/
theorem exec_nameIn_short (h : (unread s).length < 128) :
    exec .nameIn s = .next
      (let ipos := s.seq.ipos + (unread s).length
       let free := { s.regs with nameBuf := freeBytes s.fresh }
       match inTail s.ports with
       | .pending => s.held (.prim .nameIn) s.regs ipos s.seq.opos (unread s) [] [] s.ports
       | .ended =>
         { s.ended 5#8 free ipos s.seq.opos { s.ports with inEos := true } with fresh := s.fresh + 128 }
       | .failed => { s.ended 7#8 free ipos s.seq.opos s.ports with fresh := s.fresh + 128 }) := by
  have hread : readExact 128 .nameFieldTruncated (begin (.prim .nameIn) s) =
    collect .nameFieldTruncated 128 (begin (.prim .nameIn) s) := rfl
  rw [exec, execNameIn, goNameIn, readName, Config.nameLen, hread, collect_short _ _ (begin (.prim .nameIn) s) h,
    begin_ports]
  cases inTail s.ports <;> rfl

end

/-- Settles O33: 128 bytes (`exec_nameIn_enough`) or fewer (`exec_nameIn_short`). -/
theorem nameInResults : Obligations.NameInResults := by
  intro s
  dsimp only
  split
  case isTrue henough => exact exec_nameIn_enough henough
  case isFalse hshort =>
    rw [exec_nameIn_short (Nat.lt_of_not_le hshort)]
    cases inTail s.ports
    case pending => rfl
    case ended => exact ⟨_, _, length_freeBytes _, rfl⟩
    case failed => exact ⟨_, _, length_freeBytes _, rfl⟩

/-! ## `NAME.PACK` -/

theorem exec_namePack {s : State} {items : List NinItem} (h : s.ports.nin = items) :
    exec .namePack s =
      .next ((takeUnits items (begin (.prim .namePack) s)).andThen fun us t => finish (storeName us t)) := by
  rw [← h]
  rfl

/-- Settles O34: a whole message (`takeUnits_message`), or one whose end mark has not come (`takeUnits_open`). -/
theorem namePackResults : Obligations.NamePackResults := by
  intro s us
  refine ⟨fun rest hnin => ?message, fun hnin hfailed => ?failed, fun hnin hopen => ?waits⟩
  case message =>
    rw [exec_namePack hnin, messageFirst, takeUnits_message]
    rfl
  case failed =>
    rw [exec_namePack hnin, takeUnits_open us (begin (.prim .namePack) s) hnin, begin_ports, if_pos hfailed]
    rfl
  case waits =>
    rw [exec_namePack hnin, takeUnits_open us (begin (.prim .namePack) s) hnin, begin_ports,
      if_neg (Bool.eq_false_iff.mp hopen)]
    rfl

/-! ## `NAME.UNPACK` -/

/-- Settles O35: the units before the first NUL unit, each two bytes of the field (`getD_unitsOf`). -/
theorem nameUnpackResults : Obligations.NameUnpackResults := by
  refine ⟨wordsOf_noOperand, fun s hbuf => ?_⟩
  obtain ⟨hlen, hnul⟩ := nameUnpack_bounds hbuf
  have hunit {i : Nat} (hi : i < 64) := getD_unitsOf (field := s.regs.nameBuf) (i := i) (by omega)
  obtain ⟨rest, hrest⟩ : nameUnpack s.regs.nameBuf <+: unitsOf s.regs.nameBuf := List.takeWhile_prefix _
  refine ⟨_, hlen, _, rfl, fun i hi => ⟨?unit, ?notNul⟩, fun hn => ?nul, rfl⟩
  case unit => rw [← hunit (Nat.lt_of_lt_of_le hi hlen), ← hrest, getD_append_of_lt hi]
  case notNul =>
    intro hzero
    rw [← List.getElem_eq_getD (h := hi)] at hzero
    exact hnul (hzero ▸ List.getElem_mem hi)
  case nul =>
    have hstop := getD_length_takeWhile (p := (· != 0#16)) (l := unitsOf s.regs.nameBuf) 0#16
      (by rw [length_unitsOf, hbuf]; exact hn)
    exact (hunit hn).symm.trans (bne_eq_false_iff_eq.mp hstop)

end Sys2Proof.Machine
end

section
/-! SUPPORT. What an `OutWrite` and a copy come to by how much the host accepts (20_memory.md R49; 44_codec.md R135): all
of it, or a first part. -/
namespace Sys2Proof.Machine

/-- An access to an `OUT` that has stopped accepting: the host fails the stream, or the block waits (20_memory.md R49). -/
def stopOut (fails : Bool) (s : State) : Flow Unit := if fails then .fail .ioError s else .wait s

/-- A command that an `OUT` has stopped: it ends in `IoError`, or waits. -/
def halted (fails : Bool) (s : State) : State := if fails then raise .ioError s else s

/-- `bytes` have been copied from `IN` to `OUT`, and fed if the copy is checksummed (44_codec.md R135). -/
def copied (sum : Bool) (bytes : List Byte) (s : State) : State :=
  { written bytes s with seq.ipos := s.seq.ipos + bytes.length,
                         regs.acc := if sum then update bytes s.regs.acc else s.regs.acc }

/-- The state in which an `OutWrite` of `bytes` stops behind the first `n` (20_memory.md R49). -/
def writtenUpTo (n : Nat) (fails : Bool) (bytes : List Byte) (s : State) : State :=
  { s with ports.out := s.ports.out ++ bytes.take n, ports.outRoom := .upTo 0 fails, seq.opos := s.seq.opos + n,
           seq.pend := bytes.drop n }

/-- The state in which a copy stops behind the first `n` of the bytes that are left, with the next one in hand
(44_codec.md R135; log 21). -/
def copiedUpTo (sum : Bool) (n : Nat) (fails : Bool) (s : State) : State :=
  { s with ports.out := s.ports.out ++ (unread s).take n, ports.outRoom := .upTo 0 fails,
           seq.ipos := s.seq.ipos + n + 1, seq.opos := s.seq.opos + n, seq.pend := [byteAt (unread s) n],
           regs.acc := if sum then update ((unread s).take n) s.regs.acc else s.regs.acc }

theorem andThen_stopOut (fails : Bool) (s : State) (k : Unit → State → State) :
    (stopOut fails s).andThen k = halted fails s := by
  cases fails <;> rfl

theorem less_zero (room : Room) : room.less 0 = room := by cases room <;> rfl

section
variable {s : State}

/-! ## `OutWrite` -/

theorem flush_stops {n : Nat} {fails : Bool} (hr : s.ports.outRoom = .upTo n fails) (hn : n < s.seq.pend.length) :
    flush s = stopOut fails (accept n (.upTo 0 fails) s) := by
  rw [flush, hr]
  exact if_neg (Nat.not_le_of_lt hn)

/-- An `OutWrite` that the host stops after `n` of its bytes. -/
theorem outWrite_stops {bytes : List Byte} {n : Nat} {fails : Bool} {k : Unit → State → State}
    (hr : s.ports.outRoom = .upTo n fails) (hn : n < bytes.length) :
    (outWrite bytes s).andThen k = halted fails (writtenUpTo n fails bytes s) := by
  have htake : (bytes.take n).length = n := List.length_take_of_le (Nat.le_of_lt hn)
  rw [outWrite, flush_stops (s := { s with seq.pend := bytes }) hr hn, andThen_stopOut, accept, writtenUpTo,
    htake]

/-! ## Copies -/

theorem copied_nil (sum : Bool) : copied sum [] s = s := by
  cases sum <;> simp [copied, written, less_zero, update]

theorem copied_copied (sum : Bool) (xs ys : List Byte) :
    copied sum ys (copied sum xs s) = copied sum (xs ++ ys) s := by
  cases sum <;> simp [copied, written, less_less, update_append, Nat.add_assoc]

/-- One byte goes through the copy loop. -/
theorem copyInHand_takes {sum : Bool} {b : Byte} (hp : s.seq.pend = []) (h : s.ports.outRoom.takes 1 = true) :
    copyInHand sum { consume s with seq.pend := [b] } = .go () (copied sum [b] s) := by
  rw [copyInHand_one sum rfl, flush_takes (s := { consume s with seq.pend := [b] }) h]
  cases sum <;> simp [copied, written, accept, feedAcc, consume, update, ← hp]

/-- The copy loop gets as far as the host accepts. -/
theorem copyAll_append {sum : Bool} {bytes : List Byte} (rest : List Byte) (hp : s.seq.pend = [])
    (h : s.ports.outRoom.takes bytes.length = true) :
    copyAll sum (bytes ++ rest) s = copyAll sum rest (copied sum bytes s) := by
  induction bytes generalizing s with
  | nil => rw [copied_nil, List.nil_append]
  | cons b bytes ih =>
    rw [List.length_cons, Nat.add_comm] at h
    obtain ⟨hone, hmore⟩ := takes_add h
    rw [List.cons_append, copyAll, copyInHand_takes hp hone]
    exact (ih (s := copied sum [b] s) hp hmore).trans (congrArg _ (copied_copied sum [b] bytes))

/-- The copy loop at an `OUT` that accepts nothing more: the next byte is in hand. -/
theorem copyAll_stops {sum fails : Bool} (b : Byte) (rest : List Byte) (hr : s.ports.outRoom = .upTo 0 fails) :
    copyAll sum (b :: rest) s = stopOut fails { consume s with seq.pend := [b] } := by
  have hflush : flush { consume s with seq.pend := [b] } = stopOut fails { consume s with seq.pend := [b] } := by
    rw [flush_stops (s := { consume s with seq.pend := [b] }) hr Nat.one_pos]
    simp [accept, ← hr]
  rw [copyAll, copyInHand_one sum rfl, hflush]
  cases fails <;> rfl

section
variable {sum : Bool} (hp : s.seq.pend = [])
include hp

/-- A copy to a host that accepts all that is left: then the stream's end decides. -/
theorem copyOn_takes (h : s.ports.outRoom.takes (unread s).length = true) :
    copyOn sum s = atEnd (copied sum (unread s) s) := by
  have hall := copyAll_append (sum := sum) [] hp h
  rwa [List.append_nil, ← copyOn_nil hp] at hall

/-- A copy to a host that accepts `n` of the bytes that are left, fewer than there are. -/
theorem copyOn_stops {n : Nat} {fails : Bool} (hr : s.ports.outRoom = .upTo n fails) (hn : n < (unread s).length) :
    copyOn sum s = stopOut fails (copiedUpTo sum n fails s) := by
  have htake : ((unread s).take n).length = n := List.length_take_of_le (Nat.le_of_lt hn)
  have hnext : (unread s).drop n = byteAt (unread s) n :: (unread s).drop (n + 1) := by
    rw [List.drop_eq_getElem_cons hn, byteAt, List.getElem_eq_getD]
  have htakes : s.ports.outRoom.takes ((unread s).take n).length = true := by rw [htake, hr]; simp [Room.takes]
  have hroom : (copied sum ((unread s).take n) s).ports.outRoom = .upTo 0 fails := by
    simp [copied, written, htake, hr, Room.less]
  have hcopy := copyAll_append (sum := sum) ((unread s).drop n) hp htakes
  rw [List.take_append_drop, ← copyOn_nil hp, hnext, copyAll_stops _ _ hroom] at hcopy
  rw [hcopy]
  simp [consume, copied, written, copiedUpTo, htake, hr, Room.less]

end
end

end Sys2Proof.Machine
end

section
/-! SUPPORT. `PAY.COPY` (44_codec.md R135), by how much the host accepts and what follows the bytes on `IN`. -/
namespace Sys2Proof.Machine

section
variable {s : State}

/-- The state in which `PAY.COPY` begins its copy. -/
def copyNext (s : State) : State := { begin (.prim .payCopy) s with regs.acc := 0#32 }

theorem exec_payCopy (s : State) :
    exec .payCopy s = .next ((copyOn true (copyNext s)).andThen fun _ t => finish t) := rfl

/-- With room for all that is left every byte is copied, and the stream's end decides. -/
theorem exec_payCopy_takes (h : s.ports.outRoom.takes (unread s).length = true) :
    exec .payCopy s =
      .next ((atEnd (copied true (unread s) (copyNext s))).andThen fun _ t => finish t) := by
  rw [exec_payCopy, copyOn_takes (s := copyNext s) rfl h]
  rfl

/-- With room for `n` of the bytes that are left, fewer than there are, the copy stops there. -/
theorem exec_payCopy_stops {n : Nat} {fails : Bool} (hr : s.ports.outRoom = .upTo n fails) (hn : n < (unread s).length) :
    exec .payCopy s = .next (halted fails (copiedUpTo true n fails (copyNext s))) := by
  rw [exec_payCopy, copyOn_stops (s := copyNext s) rfl hr hn, andThen_stopOut]

end

/-- Settles O36: the host accepts all that is left (`exec_payCopy_takes`), or stops before (`exec_payCopy_stops`). -/
theorem payCopyResults : Obligations.PayCopyResults := by
  refine fun s => ⟨fun htakes => ?takes, fun n fails hr hn => ?stops⟩
  case takes =>
    dsimp only
    rw [exec_payCopy_takes htakes, atEnd]
    have ht : inTail (copied true (unread s) (copyNext s)).ports = inTail s.ports := rfl
    rw [ht]
    cases inTail s.ports <;> rfl
  case stops =>
    dsimp only
    rw [exec_payCopy_stops hr hn]
    cases fails <;> rfl

end Sys2Proof.Machine
end

section
/-! SUPPORT. `DecodeFn` and `EncodeFn` (44_codec.md R139, R142, R147 to R149): a container put together from its
parts, and a container with one bit flipped. -/
namespace Sys2Proof.Machine

/-! ## The outcomes of `DecodeFn` by what it compares (44_codec.md R142) -/

section
variable {S : List Byte}

theorem decodeFn_eq_headerMismatch (hlen : 24 ≤ S.length) (hck : hdrCk (slice S 0 20) ≠ u32le (slice S 20 24))
    (sink : Bool) : decodeFn S sink = .fault .headerChecksumMismatch := by
  have hlong : ¬ S.length < 20 ∧ ¬ S.length < 24 := by omega
  simp [decodeFn, hlong, hck]

section
variable (hlen : 156 ≤ S.length) (hck : hdrCk (slice S 0 20) = u32le (slice S 20 24))
include hlen hck

/-- With verification and a good header the payload's checksum decides. -/
theorem decodeFn_verifies :
    decodeFn S true =
      if update (S.drop 156) 0#32 ≠ u32le (slice S 24 28) then .fault .payloadChecksumMismatch
      else .full (nameUnpack (slice S 28 156)) (S.drop 156) := by
  have hlong {n : Nat} (hn : n ≤ 156) : ¬ S.length < n := Nat.not_lt.mpr (Nat.le_trans hn hlen)
  simp [decodeFn, hlong, hck]

theorem decodeFn_eq_full_of_sum (hsum : update (S.drop 156) 0#32 = u32le (slice S 24 28)) :
    decodeFn S true = .full (nameUnpack (slice S 28 156)) (S.drop 156) :=
  (decodeFn_verifies hlen hck).trans (if_neg (Decidable.not_not.mpr hsum))

theorem decodeFn_eq_payloadMismatch (hsum : update (S.drop 156) 0#32 ≠ u32le (slice S 24 28)) :
    decodeFn S true = .fault .payloadChecksumMismatch :=
  (decodeFn_verifies hlen hck).trans (if_pos hsum)

end
end

/-! ## A container put together from its parts -/

section
variable {header hsum psum field : List Byte} (payload : List Byte)
  (hh : header.length = 20) (hs : hsum.length = 4) (hp : psum.length = 4) (hf : field.length = 128)
include hh hs hp hf

/-- The parts of a container stand at the offsets that `Sel` names (30_encoding.md R76). -/
theorem container_parts :
    let S := header ++ hsum ++ psum ++ field ++ payload
    156 ≤ S.length ∧ slice S 0 20 = header ∧ slice S 20 24 = hsum ∧ slice S 24 28 = psum ∧
      slice S 28 156 = field ∧ S.drop 156 = payload := by
  simp [slice, List.drop_append, List.drop_eq_nil_of_le, hh, hs, hp, hf]
  omega

end

/-- A container decodes when its header carries its own checksum (44_codec.md R139). -/
theorem decodeFn_container {header stored field : List Byte} (payload : List Byte) (hh : header.length = 20)
    (hs : stored.length = 4) (hf : field.length = 128) :
    decodeFn (header ++ le32 (hdrCk header) ++ stored ++ field ++ payload) false = .name (nameUnpack field) := by
  obtain ⟨hlen, hheader, hck, -, hname, -⟩ := container_parts payload hh (length_le32 (hdrCk header)) hs hf
  rw [decodeFn_eq_name hlen, hname]
  rw [hheader, hck, u32le_le32]

/-- It verifies when it also carries the payload's checksum. -/
theorem decodeFn_container_verified {header field : List Byte} (payload : List Byte) (hh : header.length = 20)
    (hf : field.length = 128) :
    decodeFn (header ++ le32 (hdrCk header) ++ le32 (update payload 0#32) ++ field ++ payload) true =
      .full (nameUnpack field) payload := by
  obtain ⟨hlen, hheader, hck, hpck, hname, hrest⟩ :=
    container_parts payload hh (length_le32 (hdrCk header)) (length_le32 (update payload 0#32)) hf
  rw [decodeFn_eq_full_of_sum hlen, hname, hrest]
  · rw [hheader, hck, u32le_le32]
  · rw [hrest, hpck, u32le_le32]

/-- Settles O39: 156 zero bytes are computed, and any header is `decodeFn_container`. -/
theorem decodeAcceptsAnyHeader : Obligations.DecodeAcceptsAnyHeader :=
  ⟨by decide +kernel, fun _ _ _ payload hh hs hf =>
    ⟨decodeFn_container payload hh hs hf, decodeFn_container_verified payload hh hf⟩⟩

/-- Settles O43: `EncodeFn` puts a container together, and its name comes back as `nameRoundTrip` says. -/
theorem containerRoundTrip : Obligations.ContainerRoundTrip := by
  intro P us
  have hfull : decodeFn (encodeFn P us) true = .full (nameUnpack (namePack us).1) P :=
    decodeFn_container_verified P (length_pack _) (length_namePack us)
  refine ⟨hfull, decodeFn_container P (length_pack _) (length_le32 _) (length_namePack us), ?_⟩
  rw [hfull, DecodeResult.full.injEq, and_iff_left rfl]
  exact (nameRoundTrip us).1

/-! ## One flipped bit -/

section
variable {s : List Byte} {m k : Nat}

theorem length_flipBit (s : List Byte) (m k : Nat) : (flipBit s m k).length = s.length := List.length_modify ..

theorem flipBit_ne (hm : m < s.length) (hk : k < 8) : flipBit s m k ≠ s := fun h =>
  update_flipBit_ne hm hk 0#32 (congrArg (update · 0#32) h)

theorem u32le_flipBit_ne (hs : s.length = 4) (hm : m < 4) (hk : k < 8) : u32le (flipBit s m k) ≠ u32le s := fun h => by
  have hbytes := congrArg le32 h
  rw [le32_u32le ((length_flipBit s m k).trans hs), le32_u32le hs] at hbytes
  exact flipBit_ne (hs ▸ hm) hk hbytes

/-- The zero bytes behind the header keep its checksums apart (42_fields.md R109). -/
theorem hdrCk_flipBit_ne (hm : m < s.length) (hk : k < 8) : hdrCk (flipBit s m k) ≠ hdrCk s := fun h => by
  rw [hdrCk, hdrCk, update_append, update_append] at h
  exact update_flipBit_ne hm hk 0#32 (update_injective _ h)

theorem drop_flipBit_of_lt {a : Nat} (h : m < a) : (flipBit s m k).drop a = s.drop a := List.drop_modify_of_lt _ _ _ _ h

theorem drop_flipBit {a : Nat} (h : a ≤ m) : (flipBit s m k).drop a = flipBit (s.drop a) (m - a) k :=
  List.drop_modify_of_ge _ _ _ _ h

theorem slice_flipBit_of_lt {a : Nat} (b : Nat) (h : m < a) : slice (flipBit s m k) a b = slice s a b := by
  rw [slice, drop_flipBit_of_lt h, slice]

theorem slice_flipBit {a : Nat} (b : Nat) (h : a ≤ m) :
    slice (flipBit s m k) a b = flipBit (slice s a b) (m - a) k := by
  rw [slice, drop_flipBit h]
  exact List.take_modify ..

theorem slice_flipBit_of_ge {a b : Nat} (hab : a ≤ b) (h : b ≤ m) : slice (flipBit s m k) a b = slice s a b := by
  rw [slice_flipBit b (Nat.le_trans hab h)]
  refine List.modify_eq_self (Nat.le_trans (List.length_take_le ..) ?_)
  omega

end

/-- Settles O44: the bit changes the checksum it stands under or the stored one, and leaves every other part. -/
theorem corruptionIsDetected : Obligations.CorruptionIsDetected := by
  intro S P us m k hfull hm hk
  obtain ⟨hlen, hck, hsum⟩ := decodeFn_eq_full hfull
  obtain ⟨-, rfl⟩ := DecodeResult.full.inj ((decodeFn_eq_full_of_sum hlen hck hsum).symm.trans hfull)
  have hlen' : 156 ≤ (flipBit S m k).length := (length_flipBit S m k).symm ▸ hlen
  have hlenHeader : (slice S 0 20).length = 20 := length_slice (by omega)
  have hlenHck : (slice S 20 24).length = 4 := length_slice (by omega)
  have hlenPck : (slice S 24 28).length = 4 := length_slice (by omega)
  split
  case isTrue h24 =>
    refine decodeFn_eq_headerMismatch (by omega) ?_
    by_cases h20 : m < 20
    · rw [slice_flipBit 20 m.zero_le, slice_flipBit_of_lt 24 h20, ← hck]
      exact hdrCk_flipBit_ne (by omega) hk
    · rw [slice_flipBit_of_ge (by omega) (by omega), slice_flipBit 24 (by omega), hck]
      exact (u32le_flipBit_ne hlenHck (by omega) hk).symm
  case isFalse h24 =>
    have hck' : hdrCk (slice (flipBit S m k) 0 20) = u32le (slice (flipBit S m k) 20 24) := by
      rwa [slice_flipBit_of_ge (by omega) (by omega), slice_flipBit_of_ge (by omega) (by omega)]
    split
    case isTrue hname =>
      refine ⟨_, (decodeFn_eq_full_of_sum hlen' hck' ?_).trans (congrArg _ (drop_flipBit_of_lt hname.2))⟩
      rwa [drop_flipBit_of_lt hname.2, slice_flipBit_of_ge (by omega) (by omega)]
    case isFalse hname =>
      refine decodeFn_eq_payloadMismatch hlen' hck' ?_
      by_cases h28 : m < 28
      · rw [drop_flipBit_of_lt (by omega), slice_flipBit 28 (by omega), hsum]
        exact (u32le_flipBit_ne hlenPck (by omega) hk).symm
      · rw [drop_flipBit (by omega), slice_flipBit_of_ge (by omega) (by omega), ← hsum]
        refine update_flipBit_ne ?_ hk 0#32
        rw [List.length_drop]
        omega

end Sys2Proof.Machine
end

section
/-! SUPPORT. `DECODE` phase by phase (44_codec.md R137, R138): where it stands when a part of the container has been read,
and how it ends there. -/
namespace Sys2Proof.Machine

/-! ## The registers and the position of `DECODE` (44_codec.md R138) -/

/-- The registers when the header has been read. -/
def headerRegs (S : List Byte) (x : Regs) : Regs := { x with flags := 0#1, hf := unpack (slice S 0 20) }

/-- The registers when the header's checksum has been compared. -/
def checkedRegs (S : List Byte) (x : Regs) : Regs :=
  { headerRegs S x with hck := u32le (slice S 20 24), acc := hdrCk (slice S 0 20) }

/-- The registers when the stored payload checksum has been read. -/
def sumRegs (S : List Byte) (x : Regs) : Regs := { checkedRegs S x with pck := u32le (slice S 24 28) }

/-- The registers when the name has been read and unpacked. -/
def nameRegs (S : List Byte) (x : Regs) : Regs :=
  { readRegs S x with nameLen := BitVec.ofNat 7 (nameUnpack (slice S 28 156)).length }

section
variable {s : State}

/-- Phase `p` begins with `n` bytes of `IN` consumed since `s`, and the given registers. -/
def readTo (p : Phase) (n : Nat) (regs : Regs) (s : State) : State :=
  begin p { s with seq.ipos := s.seq.ipos + n, regs := regs }

theorem unread_readTo (p : Phase) (n : Nat) (regs : Regs) (s : State) : unread (readTo p n regs s) = (unread s).drop n :=
  unread_of_ipos_add n rfl rfl

/-- A `ReadExact` that meets the end of the stream: every byte left is consumed (20_memory.md R48). -/
theorem readExact_readTo_short {p : Phase} {n k : Nat} {regs : Regs} (c : Cause) (he : inTail s.ports = .ended)
    (hn : n ≤ (unread s).length) (hk : (unread s).length < n + k) :
    readExact k c (readTo p n regs s) =
      .fail c { readTo p (unread s).length regs s with seq.got := (unread s).drop n, ports.inEos := true } := by
  have hu := unread_readTo p n regs s
  have hlen : (unread (readTo p n regs s)).length = (unread s).length - n := by rw [hu, List.length_drop]
  have hall : s.seq.ipos + n + ((unread s).length - n) = s.seq.ipos + (unread s).length := by omega
  have hread : readExact k c (readTo p n regs s) = collect c k (readTo p n regs s) := rfl
  have hend : inTail (readTo p n regs s).ports = .ended := he
  rw [hread, collect_short c k _ (by omega), hend, hu, List.length_drop]
  simp [readTo, endSeen, begin, hall]

/-- A command that is read short by the end of the stream ends in the read's fault. -/
theorem readTo_short_andThen {p : Phase} {n k : Nat} {regs : Regs} {c : Cause} {cont : List Byte → State → State}
    (he : inTail s.ports = .ended) (hn : n ≤ (unread s).length) (hk : (unread s).length < n + k) :
    (readExact k c (readTo p n regs s)).andThen cont =
      s.ended c.code regs (s.seq.ipos + (unread s).length) s.seq.opos { s.ports with inEos := true } := by
  rw [readExact_readTo_short c he hn hk]
  rfl

/-! ## `DECODE` up to each phase -/

theorem exec_decode_to_d2 (hlen : 20 ≤ (unread s).length) :
    exec .decode s = .next (goD2 (readTo .d2 20 (headerRegs (unread s) s.regs) s)) :=
  congrArg _ (goD1_reads (s := clearVerified s) rfl hlen)

theorem exec_decode_to_d3 (hlen : 24 ≤ (unread s).length) :
    exec .decode s =
      .next (enterD3 (readTo .d2 24 { headerRegs (unread s) s.regs with hck := u32le (slice (unread s) 20 24) } s)) := by
  rw [exec_decode_to_d2 (by omega)]
  exact congrArg _ (goD2_reads (s := readTo .d2 20 (headerRegs (unread s) s.regs) s) (unread_readTo ..) hlen)

theorem exec_decode_to_d4 (hlen : 24 ≤ (unread s).length)
    (hck : hdrCk (slice (unread s) 0 20) = u32le (slice (unread s) 20 24)) :
    exec .decode s = .next (goD4 (readTo .d4 24 (checkedRegs (unread s) s.regs) s)) := by
  rw [exec_decode_to_d3 hlen, enterD3_sums, checkedRegs, hck]
  · rfl
  · exact (congrArg hdrCk (pack_unpack_slice (by omega))).trans hck

theorem exec_decode_to_d5 (hlen : 28 ≤ (unread s).length)
    (hck : hdrCk (slice (unread s) 0 20) = u32le (slice (unread s) 20 24)) :
    exec .decode s = .next (goD5 (readTo .d5 28 (sumRegs (unread s) s.regs) s)) := by
  rw [exec_decode_to_d4 (by omega) hck]
  exact congrArg _ (goD4_reads (s := readTo .d4 24 (checkedRegs (unread s) s.regs) s) (unread_readTo ..) hlen)

/-! ## `DECODE` of an input that is too short, or has a bad header -/

section
variable (he : inTail s.ports = .ended)
include he

theorem exec_decode_short_header (h : (unread s).length < 20) :
    exec .decode s =
      .next (s.ended 1#8 { s.regs with flags := 0#1 } (s.seq.ipos + (unread s).length) s.seq.opos
        { s.ports with inEos := true }) :=
  congrArg _ (readTo_short_andThen (p := .d1) (n := 0) (k := 20) (regs := { s.regs with flags := 0#1 }) he
    (Nat.zero_le _) (by omega))

theorem exec_decode_short_hck (hlen : 20 ≤ (unread s).length) (h : (unread s).length < 24) :
    exec .decode s =
      .next (s.ended 2#8 (headerRegs (unread s) s.regs) (s.seq.ipos + (unread s).length) s.seq.opos
        { s.ports with inEos := true }) := by
  rw [exec_decode_to_d2 hlen]
  exact congrArg _ (readTo_short_andThen he hlen h)

theorem exec_decode_short_pck (hlen : 24 ≤ (unread s).length) (h : (unread s).length < 28)
    (hck : hdrCk (slice (unread s) 0 20) = u32le (slice (unread s) 20 24)) :
    exec .decode s =
      .next (s.ended 4#8 (checkedRegs (unread s) s.regs) (s.seq.ipos + (unread s).length) s.seq.opos
        { s.ports with inEos := true }) := by
  rw [exec_decode_to_d4 hlen hck]
  exact congrArg _ (readTo_short_andThen he hlen h)

/-- A name field that is too short leaves `NAMEBUF` free (log 4). -/
theorem exec_decode_short_name (hlen : 28 ≤ (unread s).length) (h : (unread s).length < 156)
    (hck : hdrCk (slice (unread s) 0 20) = u32le (slice (unread s) 20 24)) :
    exec .decode s =
      .next { s.ended 5#8 { sumRegs (unread s) s.regs with nameBuf := freeBytes s.fresh }
        (s.seq.ipos + (unread s).length) s.seq.opos { s.ports with inEos := true } with fresh := s.fresh + 128 } := by
  rw [exec_decode_to_d5 hlen hck, goD5, readName, Config.nameLen,
    readExact_readTo_short .nameFieldTruncated he hlen h]
  rfl

end

theorem exec_decode_bad_header (hlen : 24 ≤ (unread s).length)
    (hck : hdrCk (slice (unread s) 0 20) ≠ u32le (slice (unread s) 20 24)) :
    exec .decode s = .next (s.ended 3#8 (checkedRegs (unread s) s.regs) (s.seq.ipos + 24) s.seq.opos s.ports) := by
  have hsum : hdrCk (pack (unpack (slice (unread s) 0 20))) = hdrCk (slice (unread s) 0 20) :=
    congrArg hdrCk (pack_unpack_slice (by omega))
  have hne : hdrCk (pack (unpack (slice (unread s) 0 20))) ≠ u32le (slice (unread s) 20 24) := hsum ▸ hck
  rw [exec_decode_to_d3 hlen, checkedRegs, ← hsum]
  exact congrArg _ (if_pos hne)

/-! ## `DECODE` of an input with a good header and a whole name field -/

/-- The state in which `DECODE` begins to copy the payload. -/
def payloadCopy (s : State) : State :=
  { readTo .d7 156 (nameRegs (unread s) s.regs) s with regs.acc := 0#32 }

theorem unread_payloadCopy (s : State) : unread (payloadCopy s) = (unread s).drop 156 := unread_of_ipos_add 156 rfl rfl

section
variable (hlen : 156 ≤ (unread s).length)
  (hck : hdrCk (slice (unread s) 0 20) = u32le (slice (unread s) 20 24))
include hlen hck

theorem exec_decode_name (hmode : s.regs.mode ≠ 1#1) :
    exec .decode s =
      .next (s.ended 0#8 (nameRegs (unread s) s.regs) (s.seq.ipos + 156) s.seq.opos
        { s.ports with nout := s.ports.nout ++ [nameUnpack (slice (unread s) 28 156)] }) := by
  have hoff : sinkOn (setNameLen (nameUnpack (slice (unread s) 28 156)).length (begin .d6 (payloadNext s))) = false :=
    beq_eq_false_iff_ne.mpr hmode
  rw [exec_decode_to_d6 hlen hck]
  exact congrArg _ (if_neg (Bool.eq_false_iff.mp hoff))

theorem exec_decode_to_copy (hmode : s.regs.mode = 1#1) : exec .decode s = .next (goD7 (payloadCopy s)) := by
  have hon : sinkOn (setNameLen (nameUnpack (slice (unread s) 28 156)).length (begin .d6 (payloadNext s))) = true :=
    beq_iff_eq.mpr hmode
  rw [exec_decode_to_d6 hlen hck]
  exact congrArg _ (if_pos hon)

/-- With room for the payload and the end of `IN` behind it, `DECODE` comes to compare its checksum. -/
theorem exec_decode_to_check (he : inTail s.ports = .ended) (hmode : s.regs.mode = 1#1)
    (hroom : s.ports.outRoom.takes ((unread s).length - 156) = true) :
    exec .decode s = .next (checkPayload (endSeen (copied true ((unread s).drop 156) (payloadCopy s)))) := by
  have hcopy := copyOn_takes (sum := true) (s := payloadCopy s) rfl
    (by rw [unread_payloadCopy, List.length_drop]; exact hroom)
  rw [exec_decode_to_copy hlen hck hmode, goD7, hcopy, unread_payloadCopy, atEnd_ended]
  · rfl
  · exact he

end

end

/-- Settles O37, by where the input ends and what its checksums are. -/
theorem decodeComputesDecodeFn : Obligations.DecodeComputesDecodeFn := by
  intro s he hroom
  dsimp only
  rw [decodeFn]
  by_cases h20 : (unread s).length < 20
  · rw [if_pos h20]
    exact exec_decode_short_header he h20
  rw [if_neg h20]
  by_cases h24 : (unread s).length < 24
  · rw [if_pos h24]
    exact exec_decode_short_hck he (by omega) h24
  rw [if_neg h24]
  by_cases hck : hdrCk (slice (unread s) 0 20) = u32le (slice (unread s) 20 24)
  case neg =>
    rw [if_pos hck]
    exact exec_decode_bad_header (by omega) hck
  rw [if_neg (Decidable.not_not.mpr hck)]
  by_cases h28 : (unread s).length < 28
  · rw [if_pos h28]
    exact exec_decode_short_pck he (by omega) h28 hck
  rw [if_neg h28]
  by_cases h156 : (unread s).length < 156
  · rw [if_pos h156]
    exact ⟨_, _, length_freeBytes _, exec_decode_short_name he (by omega) h156 hck⟩
  rw [if_neg h156]
  have hlen : 156 ≤ (unread s).length := Nat.le_of_not_lt h156
  by_cases hmode : s.regs.mode = 1#1
  case neg =>
    rw [if_pos (decide_eq_false hmode)]
    exact exec_decode_name hlen hck hmode
  have hall : (unread s).length = 156 + ((unread s).drop 156).length := by rw [List.length_drop]; omega
  rw [if_neg (by simp [hmode]), exec_decode_to_check hlen hck he hmode (hroom hmode), hall, ← Nat.add_assoc]
  by_cases hsum : update ((unread s).drop 156) 0#32 = u32le (slice (unread s) 24 28)
  · rw [if_neg (Decidable.not_not.mpr hsum)]
    exact ⟨rfl, congrArg _ (if_neg (Decidable.not_not.mpr hsum))⟩
  · rw [if_pos hsum]
    exact congrArg _ (if_pos hsum)

/-- Settles O58: the copy stops (`copyOn_stops`). -/
theorem decodeOnFailedOutput : Obligations.DecodeOnFailedOutput := by
  intro s n fails
  dsimp only
  intro hck hmode hr hn
  have hlen : 156 ≤ (unread s).length := by rw [List.length_drop] at hn; omega
  rw [exec_decode_to_copy hlen hck hmode, goD7, copyOn_stops (s := payloadCopy s) rfl hr, andThen_stopOut, copiedUpTo,
    unread_payloadCopy, ← Nat.add_assoc, ← Nat.add_assoc]
  · cases fails <;> rfl
  · rw [unread_payloadCopy]
    exact hn

end Sys2Proof.Machine
end

section
/-! SUPPORT. `ENCODE` phase by phase (44_codec.md R144, R145): where it stands when a part of the container has been
written, and how it ends there. -/
namespace Sys2Proof.Machine

/-! ## `ENCODE` up to each write -/

/-- The header and its checksum, as `ENCODE` writes them. -/
def constantHead : List Byte := pack Header.constants ++ le32 (hdrCk (pack Header.constants))

/-- The registers when `ENCODE` has written the header and its checksum (44_codec.md R145). -/
def headRegs (us : List CodeUnit) (x : Regs) : Regs :=
  { x with hf := Header.constants, hck := hdrCk (pack Header.constants), acc := hdrCk (pack Header.constants),
           nameBuf := (namePack us).1, nameLen := BitVec.ofNat 7 (namePack us).2 }

section
variable {s : State} {us : List CodeUnit} {rest : List NinItem}

theorem inTail_of_ended (hend : s.ports.inEnd = .ended) : inTail s.ports = .ended := by simp [inTail, hend]

/-- The first pass over `IN` is over: `ck` is its checksum, and the name has been taken. -/
def firstPass (us : List CodeUnit) (rest : List NinItem) (ck : Word) (s : State) : State :=
  { s with regs := encodedRegs us ck s.regs, seq.ipos := s.seq.ipos + (unread s).length, ports.nin := rest,
           ports.inEos := true }

section
variable (hn : s.ports.nin = messageFirst us rest)
include hn

theorem exec_encode_to_e2 : exec .encode s = .next (enterE2 (storeName us { s with ports.nin := rest })) :=
  congrArg _ (goE1_message hn)

theorem exec_encode_to_e3 (hroom : s.ports.outRoom.takes 20 = true) :
    exec .encode s = .next (enterE3 (written (pack Header.constants)
      { storeName us { s with ports.nin := rest } with regs.hf := Header.constants })) := by
  rw [exec_encode_to_e2 hn, enterE2_written]
  exact hroom

theorem exec_encode_to_e4 (hroom : s.ports.outRoom.takes 24 = true) :
    exec .encode s = .next (enterE4 (written constantHead
      { s with regs := headRegs us s.regs, ports.nin := rest })) := by
  obtain ⟨h20, h4⟩ := takes_add (n := 20) (m := 4) hroom
  rw [exec_encode_to_e3 hn h20, enterE3_written, constantHead, ← written_written]
  · rfl
  · exact h4

theorem exec_encode_to_e5 (he : inTail s.ports = .ended) (hroom : s.ports.outRoom.takes 28 = true) :
    let ck := update (unread s) 0#32
    exec .encode s = .next (enterE5 (written (constantHead ++ le32 ck) (firstPass us rest ck s))) := by
  intro ck
  obtain ⟨h24, h4⟩ := takes_add (n := 24) (m := 4) hroom
  rw [exec_encode_to_e4 hn h24, enterE4_written, ← written_written]
  · rfl
  · exact he
  · exact h4

theorem exec_encode_to_e6 (he : inTail s.ports = .ended) (hroom : s.ports.outRoom.takes 156 = true) :
    let ck := update (unread s) 0#32
    exec .encode s = .next (enterE6 (written (containerHead us ck) (firstPass us rest ck s))) :=
  exec_encode_to_rewind hn he hroom

end

/-! ## `ENCODE` to a host that accepts the container -/

/-- From the rewind, `ENCODE` copies what the host then presents, and ends (44_codec.md R146). -/
theorem enterE6_copies {second : List Byte} (hend : s.ports.inEnd = .ended)
    (hrew : s.ports.inRewind = .other second ∨ s.ports.inRewind = .same ∧ second = s.ports.inData)
    (hroom : s.ports.outRoom.takes second.length = true) :
    enterE6 s = finish { written second s with
      seq.ipos := second.length, ports.inEos := true, ports.inData := second } := by
  have hdown : inDown (begin .e6 s) = false := by simp [inDown, hend]
  have hcopy := copyOn_takes (sum := false) (s := begin .e7 (rewound second (begin .e6 s))) rfl hroom
  rw [enterE6, rewindIn_rewound hdown hrew, andThen_go, goE7, hcopy, atEnd_ended, andThen_go]
  · simp [unread, copied, rewound, written, endSeen, begin, finish, respond]
  · exact inTail_of_ended hend

/-- `ENCODE` with a whole message, an `IN` that ends and can be rewound, and room for the container. -/
theorem exec_encode_copies {second : List Byte} (hn : s.ports.nin = messageFirst us rest)
    (hend : s.ports.inEnd = .ended)
    (hrew : s.ports.inRewind = .other second ∨ s.ports.inRewind = .same ∧ second = s.ports.inData)
    (hroom : s.ports.outRoom.takes (156 + second.length) = true) :
    let ck := update (unread s) 0#32
    exec .encode s = .next (finish { written (containerHead us ck ++ second) (firstPass us rest ck s) with
      seq.ipos := second.length, ports.inEos := true, ports.inData := second }) := by
  intro ck
  obtain ⟨h156, hsecond⟩ := takes_add hroom
  rw [exec_encode_to_e6 hn (inTail_of_ended hend) h156, enterE6_copies (second := second),
    ← written_written (containerHead us ck) second]
  · exact hend
  · exact hrew
  · rw [← length_containerHead us ck] at hsecond
    exact hsecond

end

/-- Settles O40: from position 0 the first pass is the whole payload, and the second is the same. -/
theorem encodeComputesEncodeFn : Obligations.EncodeComputesEncodeFn := by
  intro s us rest hn hend hrew hroom hi
  dsimp only
  have hu : unread s = s.ports.inData := by rw [unread, hi, List.drop_zero]
  have hlen := length_containerHead us (update s.ports.inData 0#32)
  rw [exec_encode_copies hn hend (.inr ⟨hrew, rfl⟩) hroom, hu, written, List.length_append, hlen, ← hdrCk_constants]
  rfl

/-- Settles O41, from `exec_encode_copies`. -/
theorem encodeDoesNotComparePasses : Obligations.EncodeDoesNotComparePasses := by
  intro s us rest second hn hend hrew hroom
  refine ⟨_, exec_encode_copies hn hend hrew hroom, rfl, rfl, ?_⟩
  simp [written, firstPass, containerHead]

/-! ## `ENCODE` to a host that fails a stream or stops accepting -/

/-- An `OutWrite` stopped behind `bytes` already written is one `OutWrite` of both, stopped at the same byte. -/
theorem writtenUpTo_written {n : Nat} {fails : Bool} {bytes more : List Byte} {s : State} (h : bytes.length ≤ n) :
    writtenUpTo (n - bytes.length) fails more (written bytes s) = writtenUpTo n fails (bytes ++ more) s := by
  have hn : s.seq.opos + bytes.length + (n - bytes.length) = s.seq.opos + n := by omega
  simp [writtenUpTo, written, List.take_append, List.drop_append, List.take_of_length_le h, List.drop_eq_nil_of_le h, hn]

/-- A stopped command keeps what it has written, its registers and its positions; a failed `OUT` ends it in `IoError`. -/
theorem halted_leaves (fails : Bool) (m : State) :
    (halted fails m).ports.out = m.ports.out ∧ (halted fails m).ports.outRoom = m.ports.outRoom ∧
      (halted fails m).ports.nin = m.ports.nin ∧ (halted fails m).seq.opos = m.seq.opos ∧
      (halted fails m).seq.ipos = m.seq.ipos ∧
      (halted fails m).regs = { m.regs with err := if fails = true then 7#8 else m.regs.err } ∧
      (halted fails m).seq.phase = if fails = true then .idle else m.seq.phase := by
  cases fails <;> exact ⟨rfl, rfl, rfl, rfl, rfl, rfl, rfl⟩

theorem takes_upTo {room : Room} {n k : Nat} {fails : Bool} (hr : room = .upTo n fails) (h : k ≤ n) :
    room.takes k = true := by
  rw [hr]
  exact decide_eq_true h

/-! ### The phases that an `OUT` stops -/

section
variable {s : State} {n : Nat} {fails : Bool} (hr : s.ports.outRoom = .upTo n fails)
include hr

theorem enterE2_stops (h : n < 20) :
    enterE2 s = halted fails (writtenUpTo n fails (pack Header.constants)
      (begin .e2 { s with regs.hf := Header.constants })) :=
  outWrite_stops (bytes := pack Header.constants) (s := begin .e2 { s with regs.hf := Header.constants }) hr h

theorem enterE3_stops (h : n < 4) :
    let ck := hdrCk (pack s.regs.hf)
    enterE3 s = halted fails (writtenUpTo n fails (le32 ck) (begin .e3 { s with regs.acc := ck, regs.hck := ck })) :=
  let ck := hdrCk (pack s.regs.hf)
  outWrite_stops (bytes := le32 ck) (s := begin .e3 { s with regs.acc := ck, regs.hck := ck }) hr h

theorem enterE4_stops (he : inTail s.ports = .ended) (h : n < 4) :
    let ck := update (unread s) 0#32
    enterE4 s = halted fails (writtenUpTo n fails (le32 ck) (begin .e4
      { s with regs.acc := ck, regs.pck := ck, seq.ipos := s.seq.ipos + (unread s).length, ports.inEos := true })) := by
  intro ck
  have hu : unread { begin .e4 s with regs.acc := 0#32 } = unread s := rfl
  rw [enterE4, feedE4, hu, feedAll_eq, atEnd_ended]
  · exact outWrite_stops (bytes := le32 ck) (s := begin .e4
      { s with regs.acc := ck, regs.pck := ck, seq.ipos := s.seq.ipos + (unread s).length, ports.inEos := true }) hr h
  · exact he

theorem enterE5_stops (h : n < s.regs.nameBuf.length) :
    enterE5 s = halted fails (writtenUpTo n fails s.regs.nameBuf (begin .e5 s)) :=
  outWrite_stops (bytes := s.regs.nameBuf) (s := begin .e5 s) hr h

theorem enterE6_stops (hend : s.ports.inEnd = .ended) (hrew : s.ports.inRewind = .same) (h : n < s.ports.inData.length) :
    enterE6 s = halted fails
      { writtenUpTo n fails s.ports.inData (begin .e7 { s with ports.inEos := false }) with
        seq.ipos := n + 1, seq.pend := [byteAt s.ports.inData n] } := by
  have hdown : inDown (begin .e6 s) = false := by simp [inDown, hend]
  have hcopy := copyOn_stops (sum := false) (s := begin .e7 (rewound s.ports.inData (begin .e6 s))) rfl hr h
  rw [enterE6, rewindIn_rewound hdown (.inr ⟨hrew, rfl⟩), andThen_go, goE7, begin_ports, hcopy, andThen_stopOut]
  simp [unread, copiedUpTo, writtenUpTo, rewound, begin]

end

/-- An `IN` that fails ends E4 with the bytes left fed, and nothing more written (44_codec.md R144). -/
theorem enterE4_failed {s : State} (hf : inTail s.ports = .failed) :
    enterE4 s = raise .ioError
      { s with regs.acc := update (unread s) 0#32, seq.ipos := s.seq.ipos + (unread s).length } := by
  have hu : unread { begin .e4 s with regs.acc := 0#32 } = unread s := rfl
  rw [enterE4, feedE4, hu, feedAll_eq, atEnd]
  simp only [begin_ports, hf]
  rfl

/-! ### `ENCODE` up to the write that an `OUT` stops -/

section
variable {s : State} {us : List CodeUnit} {rest : List NinItem} {n : Nat} {fails : Bool}
  (hn : s.ports.nin = messageFirst us rest) (hr : s.ports.outRoom = .upTo n fails)
include hn hr

theorem exec_encode_stops_e2 (h : n < 20) :
    exec .encode s = .next (halted fails (writtenUpTo n fails (pack Header.constants)
      (begin .e2 { storeName us { s with ports.nin := rest } with regs.hf := Header.constants }))) := by
  rw [exec_encode_to_e2 hn]
  exact congrArg _ (enterE2_stops hr h)

theorem exec_encode_stops_e3 (h : 20 ≤ n) (h' : n < 24) :
    exec .encode s = .next (halted fails (writtenUpTo n fails constantHead
      (begin .e3 { s with regs := headRegs us s.regs, ports.nin := rest }))) := by
  rw [exec_encode_to_e3 hn (takes_upTo hr h), enterE3_stops (congrArg (·.less 20) hr), constantHead,
    ← writtenUpTo_written (bytes := pack Header.constants) h]
  · rfl
  · omega

section
variable (he : inTail s.ports = .ended)
include he

theorem exec_encode_stops_e4 (h : 24 ≤ n) (h' : n < 28) :
    let ck := update (unread s) 0#32
    exec .encode s = .next (halted fails (writtenUpTo n fails (constantHead ++ le32 ck)
      (begin .e4 (firstPass us rest ck s)))) := by
  intro ck
  rw [exec_encode_to_e4 hn (takes_upTo hr h), enterE4_stops (congrArg (·.less 24) hr),
    ← writtenUpTo_written (bytes := constantHead) h]
  · rfl
  · exact he
  · omega

theorem exec_encode_stops_e5 (h : 28 ≤ n) (h' : n < 156) :
    let ck := update (unread s) 0#32
    exec .encode s = .next (halted fails (writtenUpTo n fails (containerHead us ck)
      (begin .e5 (firstPass us rest ck s)))) := by
  intro ck
  have hhead : containerHead us ck = constantHead ++ le32 ck ++ (namePack us).1 := rfl
  rw [exec_encode_to_e5 hn he (takes_upTo hr h), enterE5_stops (congrArg (·.less 28) hr), hhead,
    ← writtenUpTo_written (bytes := constantHead ++ le32 ck) h]
  · rfl
  · exact (length_namePack us).symm ▸ (by omega)

theorem exec_encode_stops_e7 (hend : s.ports.inEnd = .ended) (hrew : s.ports.inRewind = .same) (h : 156 ≤ n)
    (h' : n < 156 + s.ports.inData.length) :
    let ck := update (unread s) 0#32
    exec .encode s = .next (halted fails
      { writtenUpTo n fails (containerHead us ck ++ s.ports.inData)
          (begin .e7 { firstPass us rest ck s with ports.inEos := false }) with
        seq.ipos := n - 156 + 1, seq.pend := [byteAt s.ports.inData (n - 156)] }) := by
  intro ck
  have hroom : (written (containerHead us ck) (firstPass us rest ck s)).ports.outRoom = .upTo (n - 156) fails := by
    rw [written, length_containerHead]
    exact congrArg (·.less 156) hr
  rw [exec_encode_to_e6 hn he (takes_upTo hr h), enterE6_stops hroom,
    ← writtenUpTo_written (bytes := containerHead us ck) (Nat.le_trans (Nat.le_of_eq (length_containerHead us ck)) h),
    length_containerHead]
  · rfl
  · exact hend
  · exact hrew
  · exact (by omega : n - 156 < s.ports.inData.length)

end
end

/-- What an `OUT` that stops within the first part of `bytes` has: the beginning of them. -/
theorem take_of_prefix {part bytes : List Byte} {n : Nat} (h : part <+: bytes) (hn : n ≤ part.length) :
    bytes.take n = part.take n := by
  obtain ⟨more, rfl⟩ := h
  exact List.take_append_of_le_length hn

/-- Settles O57: the message or the first pass fails, or `OUT` stops in one of the five phases that write. -/
theorem encodeOnFailedHost : Obligations.EncodeOnFailedHost := by
  refine fun s us => ⟨fun hnin hfailed => ?name, fun rest hn hf htakes => ?input,
    fun rest n fails hn hend hrew hr h => ?output⟩
  case name =>
    rw [exec, execEncode, goE1, takeName, begin_ports, hnin, takeUnits_open us (begin .e1 s) hnin, begin_ports,
      if_pos hfailed]
    rfl
  case input =>
    rw [exec_encode_to_e4 hn htakes, enterE4_failed, ← hdrCk_constants]
    · rfl
    · exact hf
  case output =>
    intro ck
    have he : inTail s.ports = .ended := inTail_of_ended hend
    have hbytes : pack Header.constants ++ le32 0x9E54D683#32 ++ le32 ck ++ (namePack us).1 ++ s.ports.inData =
      containerHead us ck ++ s.ports.inData := by rw [← hdrCk_constants]; rfl
    have hp156 : containerHead us ck <+: containerHead us ck ++ s.ports.inData := List.prefix_append ..
    have hp28 := (List.prefix_append (constantHead ++ le32 ck) (namePack us).1).trans hp156
    have hp24 := (List.prefix_append constantHead (le32 ck)).trans hp28
    have hp20 := (List.prefix_append (pack Header.constants) (le32 (hdrCk (pack Header.constants)))).trans hp24
    rw [hbytes, ← hdrCk_constants]
    by_cases h20 : n < 20
    · have hlt : n < 24 ∧ n < 28 ∧ n < 156 := by omega
      simp only [h20, hlt, if_true]
      rw [take_of_prefix hp20 (Nat.le_of_lt h20)]
      exact ⟨_, exec_encode_stops_e2 hn hr h20, halted_leaves ..⟩
    by_cases h24 : n < 24
    · simp only [h20, h24, if_true, if_false]
      rw [take_of_prefix hp24 (Nat.le_of_lt h24)]
      exact ⟨_, exec_encode_stops_e3 hn hr (Nat.le_of_not_lt h20) h24, halted_leaves ..⟩
    by_cases h28 : n < 28
    · have hlt : n < 156 := by omega
      simp only [h20, h24, h28, hlt, if_true, if_false]
      rw [take_of_prefix hp28 (Nat.le_of_lt h28)]
      exact ⟨_, exec_encode_stops_e4 hn hr he (Nat.le_of_not_lt h24) h28, halted_leaves ..⟩
    by_cases h156 : n < 156
    · simp only [h20, h24, h28, h156, if_true, if_false]
      rw [take_of_prefix hp156 ((length_containerHead us ck).symm ▸ Nat.le_of_lt h156)]
      exact ⟨_, exec_encode_stops_e5 hn hr he (Nat.le_of_not_lt h28) h156, halted_leaves ..⟩
    · simp only [h20, h24, h28, h156, if_false]
      exact ⟨_, exec_encode_stops_e7 hn hr he hend hrew (Nat.le_of_not_lt h156) h, halted_leaves ..⟩

end Sys2Proof.Machine
end

section
/-! SUPPORT. `DECODE` and `ENCODE` from two states that agree on the ports, the positions and `MODE` (44_codec.md
R150). -/
namespace Sys2Proof.Machine

section
variable {s s' : State} (hports : s'.ports = s.ports) (hipos : s'.seq.ipos = s.seq.ipos)
  (hopos : s'.seq.opos = s.seq.opos) (hmode : s'.regs.mode = s.regs.mode) (hend : s.ports.inEnd = .ended)
  (hroom : s.ports.outRoom = .all)
include hports hipos hopos hmode hend hroom

/-- The outcome is that of `DecodeFn` in both states; only a fault leaves what earlier commands have written. -/
theorem decode_alike {t t' : State} (h : exec .decode s = .next t) (h' : exec .decode s' = .next t') :
    t'.ports.out = t.ports.out ∧ t'.ports.nout = t.ports.nout ∧ t'.regs.err = t.regs.err ∧ t'.seq = t.seq ∧
      (t.regs.err = 0#8 → t'.regs = t.regs ∧ t'.ports = t.ports) := by
  have hend' : inTail s.ports = .ended := inTail_of_ended hend
  have hfn := decodeComputesDecodeFn s hend' fun _ => by rw [hroom]; rfl
  have hfn' := decodeComputesDecodeFn s' (by rw [hports]; exact hend') fun _ => by rw [hports, hroom]; rfl
  have hu : unread s' = unread s := by rw [unread, unread, hports, hipos]
  simp only [hu, hports, hipos, hopos, hmode, h, h', Host.Outcome.next.injEq] at hfn hfn'
  cases hres : decodeFn (unread s) (decide (s.regs.mode = 1#1)) with
  | name us =>
    rw [hres] at hfn hfn'
    subst hfn hfn'
    exact ⟨rfl, rfl, rfl, rfl, fun _ => ⟨rfl, rfl⟩⟩
  | full us P =>
    rw [hres] at hfn hfn'
    obtain ⟨-, rfl⟩ := hfn
    obtain ⟨-, rfl⟩ := hfn'
    exact ⟨rfl, rfl, rfl, rfl, fun _ => ⟨rfl, rfl⟩⟩
  | fault c =>
    rw [hres] at hfn hfn'
    cases c
    case ioError | illegalCommand => exact hfn.elim
    case nameFieldTruncated =>
      obtain ⟨_, _, -, rfl⟩ := hfn
      obtain ⟨_, _, -, rfl⟩ := hfn'
      exact ⟨rfl, rfl, rfl, rfl, fun hok => absurd hok (by simp [State.ended])⟩
    all_goals
      subst hfn hfn'
      exact ⟨rfl, rfl, rfl, rfl, fun hok => absurd hok (by simp [State.ended])⟩

/-- Whether the host rewinds `IN` or not, `ENCODE` has written every register but `FLAGS` and `MODE`. -/
theorem encode_alike {us : List CodeUnit} {rest : List NinItem} {t t' : State}
    (hn : s.ports.nin = messageFirst us rest) (h : exec .encode s = .next t) (h' : exec .encode s' = .next t') :
    t'.ports = t.ports ∧ t'.seq = t.seq ∧ t'.regs = { t.regs with flags := s'.regs.flags } := by
  have hu : unread s' = unread s := by rw [unread, unread, hports, hipos]
  have htakes {n : Nat} : s.ports.outRoom.takes n = true := by rw [hroom]; rfl
  obtain hun | ⟨second, hrew⟩ : s.ports.inRewind = .unable ∨ ∃ second,
      s.ports.inRewind = .other second ∨ s.ports.inRewind = .same ∧ second = s.ports.inData := by
    cases s.ports.inRewind <;> simp
  case inl =>
    rw [encodeNeedsTheRewind s us rest hn hend hun htakes] at h
    rw [encodeNeedsTheRewind s' us rest (hports ▸ hn) (hports ▸ hend) (hports ▸ hun) (hports ▸ htakes)] at h'
    cases h
    cases h'
    simp [State.ended, Ports.answered, hu, hports, hipos, hopos, hmode]
  case inr =>
    rw [exec_encode_copies hn hend hrew htakes] at h
    rw [exec_encode_copies (s := s') (hports ▸ hn) (hports ▸ hend) (hports ▸ hrew) (hports ▸ htakes)] at h'
    cases h
    cases h'
    simp [written, firstPass, encodedRegs, hu, hports, hipos, hopos, hmode]

end

/-- Settles O46, from `decode_alike` and `encode_alike`. -/
theorem callsAreIndependent : Obligations.CallsAreIndependent :=
  fun _ _ hports hipos hopos hmode hend hroom =>
    ⟨fun _ _ => decode_alike hports hipos hopos hmode hend hroom,
      fun _ _ _ _ => encode_alike hports hipos hopos hmode hend hroom⟩

end Sys2Proof.Machine
end

section
/-! SUPPORT. Illegal words, and the states from which a step goes on (60_exceptions.md R167, R171). -/
namespace Sys2Proof.Machine

/-- Settles O4: a word that decodes is held by a row of the table (`decoderTestsTheTable`). -/
theorem illegalWordChangesOnlyErr : Obligations.IllegalWordChangesOnlyErr := by
  intro s w hidle hw hnone
  cases hd : decode w with
  | ok i =>
    obtain ⟨row, hmem, hholds⟩ := decoderTestsTheTable.2 w i hd
    exact absurd hholds (hnone row hmem)
  | error e =>
    simp only [step, hidle, hw, hd]
    rfl

/-! ## A step from a sound state -/

section
variable {s : State}

theorem resumePrim_goes_on {c : Instr} (h : waits c = true) : ∃ t, resumePrim c s = .next t := by
  cases c
  case crcFeeds | fldIn | fldOut | hdrUnpack | hdrPack | nameIn | nameOut | namePack | payCopy => exact ⟨_, rfl⟩
  all_goals cases h

/-- A command that waits where a step can end is taken up again (log 22). -/
theorem resume_goes_on (hr : s.seq.phase.restful = true) : ∃ t, resume s = .next t := by
  cases hp : s.seq.phase with
  | prim c =>
    rw [resume, hp]
    exact resumePrim_goes_on (by rwa [hp] at hr)
  | d3 | d6 | d8 | e6 =>
    rw [hp] at hr
    cases hr
  | _ => exact ⟨_, by rw [resume, hp]⟩

theorem unlessDuty_answers (ok : Bool) (s : State) :
    (∃ t, unlessDuty ok s = .next t) ∨ unlessDuty ok s = .refused .hostDuty := by
  cases ok
  · exact .inr rfl
  · exact .inl ⟨s, rfl⟩

theorem hostMove_answers (a : HostMove) (s : State) :
    (∃ t, hostMove a s = .next t) ∨ hostMove a s = .refused .hostDuty := by
  cases a
  case failIn | setRewind | setRoom | failNin | reset => exact .inl ⟨_, rfl⟩
  all_goals exact unlessDuty_answers _ _

/-- The host's move keeps the invariant, and with it a phase from which the command goes on. -/
theorem hostTurn_goes_on (hs : s.Inv) :
    (∃ t, hostTurn s = .next t) ∨ hostTurn s = .refused .hostDuty ∧ s.host ≠ [] := by
  unfold hostTurn
  split
  · exact .inl (resume_goes_on hs.phase)
  · rename_i a rest hhost
    obtain ⟨m, hm⟩ | hm := hostMove_answers a { s with host := rest }
    · have hinv : m.Inv := hostMove_keeps_inv (s := { s with host := rest }) { hs with } hm
      rw [hm]
      exact .inl (resume_goes_on hinv.phase)
    · rw [hm, hhost]
      exact .inr ⟨rfl, List.cons_ne_nil _ _⟩

end

/-- Settles O55: every command goes on, and the host's turn as `hostTurn_goes_on` says. -/
theorem soundStatesNeverFault : Obligations.SoundStatesNeverFault := by
  intro s hs
  unfold step
  split
  · rename_i w _ _
    cases decode w with
    | ok i => exact .inl (everyCommandGoesOn i _)
    | error e => exact .inl ⟨_, rfl⟩
  · exact hostTurn_goes_on hs

end Sys2Proof.Machine
end

section
/-! SUPPORT. `DECODE` of an input that the host fails (60_exceptions.md R168, R170). -/
namespace Sys2Proof.Machine

section
variable {s : State} (hf : inTail s.ports = .failed)
include hf

theorem atEnd_failed : atEnd s = .fail .ioError s := by rw [atEnd, hf]

/-- A `ReadExact` that meets the failure of the stream: every byte left is consumed (20_memory.md R48). -/
theorem readExact_readTo_failed {p : Phase} {n k : Nat} {regs : Regs} (c : Cause) (hn : n ≤ (unread s).length)
    (hk : (unread s).length < n + k) :
    readExact k c (readTo p n regs s) =
      .fail .ioError { readTo p (unread s).length regs s with seq.got := (unread s).drop n } := by
  have hleft := unread_readTo p n regs s
  have hall : n + ((unread s).drop n).length = (unread s).length := by rw [List.length_drop]; omega
  have hend : inTail (readTo p n regs s).ports = .failed := hf
  have hread := collect_short c k (readTo p n regs s) (by rw [hleft]; omega)
  rw [hend, hleft] at hread
  simp only [readTo, begin, advanced, List.nil_append, Nat.add_assoc, hall] at hread
  exact hread

/-- A command that the stream fails in a read ends in `IoError`. -/
theorem readTo_failed_andThen {p : Phase} {n k : Nat} {regs : Regs} {c : Cause} {cont : List Byte → State → State}
    (hn : n ≤ (unread s).length) (hk : (unread s).length < n + k) :
    (readExact k c (readTo p n regs s)).andThen cont =
      s.ended 7#8 regs (s.seq.ipos + (unread s).length) s.seq.opos s.ports := by
  rw [readExact_readTo_failed hf c hn hk]
  rfl

/-! ## Where the bytes run out -/

theorem exec_decode_failed_header (h : (unread s).length < 20) :
    exec .decode s =
      .next (s.ended 7#8 { s.regs with flags := 0#1 } (s.seq.ipos + (unread s).length) s.seq.opos s.ports) :=
  congrArg _ (readTo_failed_andThen (p := .d1) (n := 0) (k := 20) (regs := { s.regs with flags := 0#1 }) hf
    (Nat.zero_le _) (by omega))

theorem exec_decode_failed_hck (hlen : 20 ≤ (unread s).length) (h : (unread s).length < 24) :
    exec .decode s =
      .next (s.ended 7#8 (headerRegs (unread s) s.regs) (s.seq.ipos + (unread s).length) s.seq.opos s.ports) := by
  rw [exec_decode_to_d2 hlen]
  exact congrArg _ (readTo_failed_andThen hf hlen h)

section
variable (hck : hdrCk (slice (unread s) 0 20) = u32le (slice (unread s) 20 24))
include hck

theorem exec_decode_failed_pck (hlen : 24 ≤ (unread s).length) (h : (unread s).length < 28) :
    exec .decode s =
      .next (s.ended 7#8 (checkedRegs (unread s) s.regs) (s.seq.ipos + (unread s).length) s.seq.opos s.ports) := by
  rw [exec_decode_to_d4 hlen hck]
  exact congrArg _ (readTo_failed_andThen hf hlen h)

/-- A name field that fails leaves `NAMEBUF` free (log 4). -/
theorem exec_decode_failed_name (hlen : 28 ≤ (unread s).length) (h : (unread s).length < 156) :
    exec .decode s =
      .next { s.ended 7#8 { sumRegs (unread s) s.regs with nameBuf := freeBytes s.fresh }
        (s.seq.ipos + (unread s).length) s.seq.opos s.ports with fresh := s.fresh + 128 } := by
  rw [exec_decode_to_d5 hlen hck, goD5, readName, Config.nameLen,
    readExact_readTo_failed hf .nameFieldTruncated hlen h]
  rfl

/-- A payload that fails has been copied as far as it came. -/
theorem exec_decode_failed_payload (hlen : 156 ≤ (unread s).length) (hmode : s.regs.mode = 1#1)
    (hroom : s.ports.outRoom.takes ((unread s).length - 156) = true) :
    exec .decode s = .next (raise .ioError (copied true ((unread s).drop 156) (payloadCopy s))) := by
  have hcopy := copyOn_takes (sum := true) (s := payloadCopy s) rfl
    (by rw [unread_payloadCopy, List.length_drop]; exact hroom)
  rw [exec_decode_to_copy hlen hck hmode, goD7, hcopy, unread_payloadCopy, atEnd_failed]
  · rfl
  · exact hf

end
end

/-- Settles O38, by where the bytes run out. -/
theorem decodeOnFailedInput : Obligations.DecodeOnFailedInput := by
  intro s hf hroom
  dsimp only
  by_cases h24 : (unread s).length < 24
  · simp only [if_pos h24]
    by_cases h20 : (unread s).length < 20
    · exact ⟨_, exec_decode_failed_header hf h20, rfl, rfl, rfl, rfl, rfl⟩
    · exact ⟨_, exec_decode_failed_hck hf (by omega) h24, rfl, rfl, rfl, rfl, rfl⟩
  have hlen : 24 ≤ (unread s).length := Nat.le_of_not_lt h24
  simp only [if_neg h24]
  by_cases hck : hdrCk (slice (unread s) 0 20) = u32le (slice (unread s) 20 24)
  case neg =>
    simp only [if_pos hck]
    exact ⟨_, exec_decode_bad_header hlen hck, rfl, rfl, rfl, rfl, rfl⟩
  simp only [if_neg (Decidable.not_not.mpr hck)]
  by_cases h156 : (unread s).length < 156
  · simp only [if_pos h156]
    by_cases h28 : (unread s).length < 28
    · exact ⟨_, exec_decode_failed_pck hf hck hlen h28, rfl, rfl, rfl, rfl, rfl⟩
    · exact ⟨_, exec_decode_failed_name hf hck (by omega) h156, rfl, rfl, rfl, rfl, rfl⟩
  have hall : 156 ≤ (unread s).length := Nat.le_of_not_lt h156
  simp only [if_neg h156]
  by_cases hmode : s.regs.mode = 1#1
  · simp only [if_pos hmode]
    exact ⟨_, exec_decode_failed_payload hf hck hall hmode (hroom hmode), rfl, rfl, rfl, rfl, rfl⟩
  · simp only [if_neg hmode]
    exact ⟨_, exec_decode_name hall hck hmode, rfl, rfl, rfl, rfl, rfl⟩

end Sys2Proof.Machine
end

section
/-! SUPPORT. What reset leaves, at launch and in the middle of a run (70_reset_and_hazards.md R185, R186). -/
namespace Sys2Proof.Machine

theorem feed_zero_acc (b : Byte) : feed 0#32 b = tblEntry b := by simp [feed]

/-- Settles O1: the launch state holds these values by definition, and from `ACC = 0` a feed reads the table. -/
theorem resetLeavesSpecValues : Obligations.ResetLeavesSpecValues :=
  ⟨⟨.named, rfl, List.length_replicate ..⟩, fun _ => ⟨rfl, rfl, rfl, rfl, fun b => ⟨_, rfl, feed_zero_acc b⟩⟩⟩

theorem step_eq_hostTurn {s : State} (h : s.seq.phase ≠ .idle ∨ s.ports.cmd = none) : step s = hostTurn s := by
  rcases h with hb | hcmd
  · exact step_busy hb
  · simp [step, hcmd]

/-- Settles O2: it is the host's turn (`step_eq_hostTurn`), and its move is a reset (`hostTurn_reset`). -/
theorem resetDropsTheRunningCommand : Obligations.ResetDropsTheRunningCommand := by
  intro s rest hturn hhost
  refine ⟨_, (step_eq_hostTurn hturn).trans (hostTurn_reset hhost), ?_⟩
  exact ⟨rfl, rfl, rfl, rfl, length_freeBytes s.fresh, rfl, rfl, rfl, rfl, rfl⟩

end Sys2Proof.Machine
end

section
/-! SUPPORT. No step takes back what the block has put out (10_state.md R22; 70_reset_and_hazards.md R195). `OUT` is
followed through the stream primitives and the phases; names and responses are `faultGivesNoName` and
`oneResponsePerCommand`. -/
namespace Sys2Proof.Machine

/-! ## Stream accesses only append to `OUT` -/

/-- The bytes on `OUT` begin with `bytes`. -/
def State.OutBegins (t : State) (bytes : List Byte) : Prop := bytes <+: t.ports.out

section
variable {s : State}

theorem outBegins_refl : s.OutBegins s.ports.out := List.prefix_rfl

theorem State.OutBegins.trans {t u : State} (h₁ : t.OutBegins s.ports.out) (h₂ : u.OutBegins t.ports.out) :
    u.OutBegins s.ports.out := List.IsPrefix.trans h₁ h₂

/-- A command without `OUT` in its row of the write column keeps it. -/
theorem Frame.outBegins {c : Instr} {t : State} (h : Frame c s t) (hc : .out ∉ writes c) :
    t.OutBegins s.ports.out := by
  have hout : t.ports.out = s.ports.out := h.parts .out hc
  exact hout ▸ outBegins_refl

theorem outBegins_accept (n : Nat) (room : Room) : (accept n room s).OutBegins s.ports.out := List.prefix_append ..

theorem outBegins_flush : (flush s).state.OutBegins s.ports.out := by
  unfold flush
  split
  · exact outBegins_accept ..
  · split
    · exact outBegins_accept ..
    · split <;> exact outBegins_accept ..

theorem outBegins_atEnd : (atEnd s).state.OutBegins s.ports.out := by
  unfold atEnd
  cases inTail s.ports <;> exact outBegins_refl

theorem outBegins_feedAll (bytes : List Byte) : (feedAll bytes s).state.OutBegins s.ports.out := by
  rw [feedAll_eq]
  exact outBegins_atEnd

theorem outBegins_readExact {k : Nat} {c : Cause} : (readExact k c s).state.OutBegins s.ports.out := by
  unfold readExact
  rcases Nat.lt_or_ge (unread s).length (k - s.seq.got.length) with hshort | henough
  · rw [collect_short _ _ _ hshort]
    cases inTail s.ports <;> exact outBegins_refl
  · rw [collect_enough _ _ _ henough]
    exact outBegins_refl

theorem outBegins_readField : (readField s).state.OutBegins s.ports.out := by
  have hread : (readExact Config.nameLen .nameFieldTruncated s).state.OutBegins s.ports.out := outBegins_readExact
  unfold readField
  cases hf : readExact Config.nameLen .nameFieldTruncated s <;> rw [hf] at hread <;> exact hread

theorem outBegins_takeUnits (items : List NinItem) : (takeUnits items s).state.OutBegins s.ports.out := by
  induction items generalizing s with
  | nil =>
    unfold takeUnits
    split <;> exact outBegins_refl
  | cons item rest ih =>
    cases item with
    | unit u => exact ih
    | done => exact outBegins_refl

theorem outBegins_rewindIn : (rewindIn s).state.OutBegins s.ports.out := by
  unfold rewindIn
  split
  · exact outBegins_refl
  · split <;> exact outBegins_refl

theorem outBegins_copyInHand {sum : Bool} : (copyInHand sum s).state.OutBegins s.ports.out := by
  unfold copyInHand
  split
  · exact outBegins_refl
  · have hflush : (flush s).state.OutBegins s.ports.out := outBegins_flush
    split <;> rename_i hf <;> rw [hf] at hflush
    · cases sum <;> exact hflush
    · exact hflush
    · exact hflush

theorem outBegins_copyAll {sum : Bool} (bytes : List Byte) : (copyAll sum bytes s).state.OutBegins s.ports.out := by
  induction bytes generalizing s with
  | nil => exact outBegins_atEnd
  | cons b rest ih =>
    have hcopy : (copyInHand sum { consume s with seq.pend := [b] }).state.OutBegins s.ports.out := outBegins_copyInHand
    unfold copyAll
    split <;> rename_i hf <;> rw [hf] at hcopy
    · exact hcopy.trans ih
    · exact hcopy
    · exact hcopy

theorem outBegins_copyOn {sum : Bool} : (copyOn sum s).state.OutBegins s.ports.out := by
  have hcopy : (copyInHand sum s).state.OutBegins s.ports.out := outBegins_copyInHand
  unfold copyOn
  split <;> rename_i hf <;> rw [hf] at hcopy
  · exact hcopy.trans (outBegins_copyAll _)
  · exact hcopy
  · exact hcopy

/-- A stream access and what follows it: a wait and a fault leave `OUT` as the access does. -/
theorem outBegins_andThen {α : Type} {f : Flow α} {k : α → State → State} (hf : f.state.OutBegins s.ports.out)
    (hk : ∀ a m, (k a m).OutBegins m.ports.out) : (f.andThen k).OutBegins s.ports.out := by
  match f, hf with
  | .go a m, hf => exact hf.trans (hk a m)
  | .wait m, hf => exact hf
  | .fail c m, hf => exact hf

/-! ## The commands that write `OUT`

A phase that only sets registers or the bytes in hand before its access has the lemma of its access. -/

theorem outBegins_goWrite : (goWrite s).OutBegins s.ports.out :=
  outBegins_andThen outBegins_flush fun _ _ => outBegins_refl

theorem outBegins_writeOut (c : Instr) (bytes : List Byte) : (writeOut c bytes s).OutBegins s.ports.out :=
  outBegins_goWrite

theorem outBegins_goPayCopy : (goPayCopy s).OutBegins s.ports.out :=
  outBegins_andThen outBegins_copyOn fun _ _ => outBegins_refl

/-! ### `DECODE`, last phase first (44_codec.md R137) -/

theorem outBegins_enterD8 : (enterD8 s).OutBegins s.ports.out := outBegins_refl

theorem outBegins_checkPayload : (checkPayload s).OutBegins s.ports.out := by
  unfold checkPayload
  split
  · exact outBegins_refl
  · exact outBegins_enterD8

theorem outBegins_goD7 : (goD7 s).OutBegins s.ports.out :=
  outBegins_andThen outBegins_copyOn fun _ _ => outBegins_checkPayload

theorem outBegins_enterD7 : (enterD7 s).OutBegins s.ports.out := by
  unfold enterD7
  split
  · exact outBegins_goD7
  · exact outBegins_enterD8

theorem outBegins_goD5 : (goD5 s).OutBegins s.ports.out := by
  rw [goD5, readName_eq]
  exact outBegins_andThen outBegins_readField fun _ _ => outBegins_enterD7

theorem outBegins_goD4 : (goD4 s).OutBegins s.ports.out :=
  outBegins_andThen outBegins_readExact fun _ _ => outBegins_goD5

theorem outBegins_enterD3 : (enterD3 s).OutBegins s.ports.out := by
  unfold enterD3
  dsimp only
  split
  · exact outBegins_refl
  · exact outBegins_goD4

theorem outBegins_goD2 : (goD2 s).OutBegins s.ports.out :=
  outBegins_andThen outBegins_readExact fun _ _ => outBegins_enterD3

theorem outBegins_goD1 : (goD1 s).OutBegins s.ports.out :=
  outBegins_andThen outBegins_readExact fun _ _ => outBegins_goD2

/-! ### `ENCODE`, last phase first (44_codec.md R144) -/

theorem outBegins_goE7 : (goE7 s).OutBegins s.ports.out :=
  outBegins_andThen outBegins_copyOn fun _ _ => outBegins_refl

theorem outBegins_enterE6 : (enterE6 s).OutBegins s.ports.out :=
  outBegins_andThen outBegins_rewindIn fun _ _ => outBegins_goE7

theorem outBegins_goE5 : (goE5 s).OutBegins s.ports.out :=
  outBegins_andThen outBegins_flush fun _ _ => outBegins_enterE6

theorem outBegins_writePck : (writePck s).OutBegins s.ports.out :=
  outBegins_andThen outBegins_flush fun _ _ => outBegins_goE5

theorem outBegins_feedE4 : (feedE4 s).OutBegins s.ports.out :=
  outBegins_andThen (outBegins_feedAll _) fun _ _ => outBegins_writePck

theorem outBegins_goE4 : (goE4 s).OutBegins s.ports.out := by
  unfold goE4
  split
  · exact outBegins_feedE4
  · exact outBegins_writePck

theorem outBegins_goE3 : (goE3 s).OutBegins s.ports.out :=
  outBegins_andThen outBegins_flush fun _ _ => outBegins_feedE4

theorem outBegins_goE2 : (goE2 s).OutBegins s.ports.out :=
  outBegins_andThen outBegins_flush fun _ _ => outBegins_goE3

theorem outBegins_goE1 : (goE1 s).OutBegins s.ports.out :=
  outBegins_andThen (outBegins_takeUnits _) fun _ _ => outBegins_goE2

end

/-! ## Every command, started and taken up again -/

/-- The commands with `OUT` in their row of the write column. -/
theorem mem_writes_out {c : Instr} (h : .out ∈ writes c) :
    (∃ r, c = .fldOut r) ∨ c = .hdrPack ∨ c = .nameOut ∨ c = .payCopy ∨ c = .decode ∨ c = .encode := by
  cases c
  case regWr r _ => cases r <;> simp [writes, Reg.part] at h
  case fldIn r => cases r <;> simp [writes, Reg.part] at h
  all_goals simp [writes, Part.header] at h ⊢

section
variable {c : Instr} {s t : State}

theorem exec_outBegins (h : exec c s = .next t) : t.OutBegins s.ports.out := by
  by_cases hw : .out ∈ writes c
  · rcases mem_writes_out hw with ⟨r, rfl⟩ | rfl | rfl | rfl | rfl | rfl <;> obtain rfl := Host.Outcome.next.inj h
    · unfold ifLegal
      split
      · exact outBegins_writeOut ..
      · exact outBegins_refl
    · exact outBegins_writeOut ..
    · exact outBegins_writeOut ..
    · exact outBegins_goPayCopy
    · exact outBegins_goD1
    · exact outBegins_goE1
  · exact ((start_frame c s).trans (exec_outcome h).frame).outBegins hw

theorem resumePrim_outBegins (hp : s.seq.phase = .prim c) (h : resumePrim c s = .next t) : t.OutBegins s.ports.out := by
  by_cases hw : .out ∈ writes c
  · rcases mem_writes_out hw with ⟨r, rfl⟩ | rfl | rfl | rfl | rfl | rfl <;>
      simp only [resumePrim, Host.Outcome.next.injEq, reduceCtorEq] at h <;> subst h
    · exact outBegins_goWrite
    · exact outBegins_goWrite
    · exact outBegins_goWrite
    · exact outBegins_goPayCopy
  · exact (resumePrim_outcome hp h).frame.outBegins hw

theorem resume_outBegins (h : resume s = .next t) : t.OutBegins s.ports.out := by
  unfold resume at h
  cases hp : s.seq.phase <;> simp only [hp, Host.Outcome.next.injEq, reduceCtorEq] at h
  case prim c => exact resumePrim_outBegins hp h
  all_goals subst h
  case idle => exact outBegins_refl
  case d1 => exact outBegins_goD1
  case d2 => exact outBegins_goD2
  case d4 => exact outBegins_goD4
  case d5 => exact outBegins_goD5
  case d7 => exact outBegins_goD7
  case e1 => exact outBegins_goE1
  case e2 => exact outBegins_goE2
  case e3 => exact outBegins_goE3
  case e4 => exact outBegins_goE4
  case e5 => exact outBegins_goE5
  case e7 => exact outBegins_goE7

/-! ## What a step puts out -/

/-- What the block has put out in `s` is the beginning of what it has put out in `t` (10_state.md R22, R24, R25). -/
structure Extends (s t : State) : Prop where
  out : s.ports.out <+: t.ports.out := by exact List.prefix_rfl
  nout : s.ports.nout <+: t.ports.nout := by exact List.prefix_rfl
  responses : s.ports.responses <+: t.ports.responses := by exact List.prefix_rfl

theorem Extends.trans {u : State} (h₁ : Extends s t) (h₂ : Extends t u) : Extends s u where
  out := h₁.out.trans h₂.out
  nout := h₁.nout.trans h₂.nout
  responses := h₁.responses.trans h₂.responses

theorem isPrefix_of_eq_or_append {α : Type} {l l' : List α} (h : l' = l ∨ ∃ x, l' = l ++ [x]) : l <+: l' := by
  rcases h with rfl | ⟨x, rfl⟩
  · exact List.prefix_rfl
  · exact List.prefix_append ..

theorem isPrefix_of_ite {α : Type} {p : Prop} [Decidable p] {l l' : List α} {x : α}
    (h : if p then l' = l ++ [x] else l' = l) : l <+: l' := by
  split at h
  · exact isPrefix_of_eq_or_append (.inr ⟨x, h⟩)
  · exact isPrefix_of_eq_or_append (.inl h)

theorem exec_extends (h : exec c s = .next t) : Extends s t where
  out := exec_outBegins h
  nout := isPrefix_of_eq_or_append ((faultGivesNoName.1 c s t h).imp_right fun ⟨us, hus, _⟩ => ⟨us, hus⟩)
  responses := isPrefix_of_ite (oneResponsePerCommand.1 c s t h)

theorem resume_extends (h : resume s = .next t) : Extends s t where
  out := resume_outBegins h
  nout := isPrefix_of_eq_or_append ((faultGivesNoName.2 s t h).imp_right fun ⟨us, hus, _⟩ => ⟨us, hus⟩)
  responses := by
    by_cases hidle : s.seq.phase = .idle
    · obtain rfl := Host.Outcome.next.inj ((resume_idle hidle).symm.trans h)
      exact List.prefix_rfl
    · exact isPrefix_of_ite (oneResponsePerCommand.2.1 s t hidle h)

/-- Every move of the host but the opening of a new output stream, a reset too. -/
theorem hostMove_extends {a : HostMove} (h : hostMove a s = .next t) (ha : ∀ room, a ≠ .openOut room) :
    Extends s t := by
  cases a <;> simp only [hostMove, unlessDuty_eq_next, Host.Outcome.next.injEq] at h
  case openOut room => exact absurd rfl (ha room)
  case issue | openIn | deliver | endIn | openNin | sendNin =>
    obtain ⟨-, rfl⟩ := h
    exact {}
  case failIn | setRewind | setRoom | failNin | reset =>
    subst h
    exact {}

theorem hostTurn_extends (ho : ∀ room, s.host.head? ≠ some (.openOut room)) (h : hostTurn s = .next t) :
    Extends s t := by
  rcases hostTurn_cases h with h | ⟨a, rest, m, hhost, hm, h⟩
  · exact resume_extends h
  · have hmove : Extends { s with host := rest } m :=
      hostMove_extends hm fun room ha => ho room (by rw [hhost, ha, List.head?_cons])
    exact { hmove.trans (resume_extends h) with }

theorem step_extends (ho : ∀ room, s.host.head? ≠ some (.openOut room)) (h : step s = .next t) : Extends s t := by
  rcases step_cases h with ⟨c, -, hexec⟩ | ⟨-, rfl⟩ | hturn
  · exact { exec_extends hexec with }
  · exact { responses := List.prefix_append .. }
  · exact hostTurn_extends ho hturn

end

/-- Settles O48, from `step_extends`. -/
theorem outputIsNeverWithdrawn : Obligations.OutputIsNeverWithdrawn := by
  intro s t ho h
  obtain ⟨⟨out, hout⟩, ⟨nout, hnout⟩, ⟨resp, hresp⟩⟩ := step_extends ho h
  exact ⟨⟨out, hout.symm⟩, ⟨nout, hnout.symm⟩, ⟨resp, hresp.symm⟩⟩

end Sys2Proof.Machine
end
